-- ==== Sys2Proof/Word.lean ====
section
/-! DEFINITION. The word types of the core: bytes, 12-bit samples, 16-bit block words, 32-bit counters. -/

namespace Sys2Proof

/-- "A byte is 8 bits" (R61). -/
abbrev Byte := BitVec 8

/-- A raw or adjusted sample: SAMPLE_BITS = 12 (R12). -/
abbrev Sample := BitVec 12

/-- A word of a raw sample block, and each 16-bit field of a control request (R92, R95). -/
abbrev Half := BitVec 16

/-- A counter or anchor: CTR_BITS = 32 (R13). -/
abbrev Counter := BitVec 32

end Sys2Proof
end

