-- ==== Sys2Proof/Syntax.lean ====
section
/-! DEFINITION. The operations of the core, one constructor per row of spec/opcode_table.json, and the encoded
words they are read from. -/

namespace Sys2Proof

/-- The operations. Events of format EVT keep their `idx` and `val` fields also where the operation ignores them
("Ignored fields may hold anything and do not change the operation", R90); a row of the unassigned range keeps
its `op`. The data operand of INGEST (R95) stands beside the word, in State.operand (log 14). -/
inductive Instr where
  | reset (idx val : Half)
  | regwr (idx val : Half)
  | regrd (idx val : Half)
  | ingest (idx val : Half)
  | txdone (idx val : Half)
  | unsupported05 (idx val : Half)
  | unsupported06 (op : Byte) (idx val : Half)
  | unsupported08 (op : Byte) (idx val : Half)
  | unsupported10 (op : Byte) (idx val : Half)
  | unsupported20 (op : Byte) (idx val : Half)
  | unsupported40 (op : Byte) (idx val : Half)
  | unsupported80 (op : Byte) (idx val : Half)
  | cmdStop
  | cmdOnce
  | cmdCont
  | pack2
  | pack4
  | pack8
  | pack12
  | freqOff
  | freqMax
  | freq2
  | freq3
  | freq4
  | freq5
  | freq6
  | freq7
  | freq8
  | freq9
  | freq10
  | freq11
  | freq12
  | freq13
  | freq14
  | freq15
  | trgNone
  | trgRise
  | trgFall
  | trgThresh
  | trgStrobeLo
  | trgStrobeHi
  deriving DecidableEq, Repr

/-- The "format" column of spec/opcode_table.json: an event word (R90), or the value of one of the four
configuration bytes that select a behaviour (R101 to R104). -/
inductive Format where
  | evt
  | cmd
  | depth
  | freq
  | tmode
  deriving DecidableEq, Repr

/-- An encoded operation: its format and its bits. A code's bits alone do not say which byte they are the value
of, so the format is part of the encoding (log 9). -/
inductive Encoded where
  | evt (word : BitVec 40)
  | cmd (code : Byte)
  | depth (code : Byte)
  | freq (code : Byte)
  | tmode (code : Byte)
  deriving DecidableEq, Repr

end Sys2Proof
end

