-- ==== Sys2Proof/WellFormed.lean ====
section
/-! DEFINITION. Which terms of Instr are operations of the table: a row of the unassigned `op` range holds an `op` of
that row (R105, spec/opcode_table.json). Every other constructor is well formed with any fields. -/

namespace Sys2Proof

/-- `op` lies in the row `lo`..`hi` of the table. -/
abbrev opIn (lo hi : Nat) (op : Byte) : Bool := decide (lo ≤ op.toNat ∧ op.toNat ≤ hi)

/-- The check. -/
def Instr.wellFormed : Instr → Bool
  | .unsupported06 op _ _ => opIn 0x06 0x07 op
  | .unsupported08 op _ _ => opIn 0x08 0x0F op
  | .unsupported10 op _ _ => opIn 0x10 0x1F op
  | .unsupported20 op _ _ => opIn 0x20 0x3F op
  | .unsupported40 op _ _ => opIn 0x40 0x7F op
  | .unsupported80 op _ _ => opIn 0x80 0xFF op
  | .reset _ _ | .regwr _ _ | .regrd _ _ | .ingest _ _ | .txdone _ _ | .unsupported05 _ _ => true
  | .cmdStop | .cmdOnce | .cmdCont => true
  | .pack2 | .pack4 | .pack8 | .pack12 => true
  | .freqOff | .freqMax | .freq2 | .freq3 | .freq4 | .freq5 | .freq6 | .freq7 | .freq8 | .freq9 => true
  | .freq10 | .freq11 | .freq12 | .freq13 | .freq14 | .freq15 => true
  | .trgNone | .trgRise | .trgFall | .trgThresh | .trgStrobeLo | .trgStrobeHi => true

end Sys2Proof
end

