-- ==== Sys2Proof/Decode.lean ====
section
/-! DEFINITION. From bits to operations and back: the event word EVT (R90, R91, R105), the four code spaces (R101 to
R104), the ten-digit form of R109, and the two readings of a row of spec/opcode_table.json the host asks for. -/

namespace Sys2Proof

/-- Why bits name no operation: a code value the spec reserves (R41, R43, R44, R48, R106), or a byte sequence that
is no event word or no code. Such a value is no operation of the table; it is not refused when it is written to its
register (R55), see Machine.selectReserved. -/
inductive DecodeError where
  | reservedCommand (code : Byte)
  | reservedDepth (code : Byte)
  | reservedFrequency (code : Byte)
  | reservedTriggerMode (code : Byte)
  | eventLength (bytes : Nat)
  | codeLength (bytes : Nat)
  deriving DecidableEq, Repr

/-- `op`, bits 39..32 of an event word (R90). -/
def evtOp (w : BitVec 40) : Byte := w.extractLsb' 32 8

/-- `idx`, bits 31..16 of an event word (R90). -/
def evtIdx (w : BitVec 40) : Half := w.extractLsb' 16 16

/-- `val`, bits 15..0 of an event word (R90). -/
def evtVal (w : BitVec 40) : Half := w.extractLsb' 0 16

/-- The event word made of its three fields (R90). -/
def evtWord (op : Byte) (idx val : Half) : BitVec 40 := op ++ (idx ++ val)

/-- R91 and R105, by the match and mask of each row of spec/opcode_table.json, taken on the `op` field. Every word
is an event: the unassigned `op` values are the seven rows UNSUPPORTED. -/
def decodeEvt (w : BitVec 40) : Instr :=
  let op := evtOp w
  let idx := evtIdx w
  let val := evtVal w
  if op = 0x00#8 then .reset idx val
  else if op = 0x01#8 then .regwr idx val
  else if op = 0x02#8 then .regrd idx val
  else if op = 0x03#8 then .ingest idx val
  else if op = 0x04#8 then .txdone idx val
  else if op = 0x05#8 then .unsupported05 idx val
  else if op &&& 0xFE#8 = 0x06#8 then .unsupported06 op idx val
  else if op &&& 0xF8#8 = 0x08#8 then .unsupported08 op idx val
  else if op &&& 0xF0#8 = 0x10#8 then .unsupported10 op idx val
  else if op &&& 0xE0#8 = 0x20#8 then .unsupported20 op idx val
  else if op &&& 0xC0#8 = 0x40#8 then .unsupported40 op idx val
  else .unsupported80 op idx val

/-- Format CMD, the byte cfg[0] (R101). -/
def decodeCmd (code : Byte) : Except DecodeError Instr :=
  match code.toNat with
  | 0x00 => .ok .cmdStop
  | 0x01 => .ok .cmdOnce
  | 0x02 => .ok .cmdCont
  | _ => .error (.reservedCommand code)

/-- Format DEPTH, the byte cfg[3] (R102). -/
def decodeDepth (code : Byte) : Except DecodeError Instr :=
  match code.toNat with
  | 0x02 => .ok .pack2
  | 0x04 => .ok .pack4
  | 0x08 => .ok .pack8
  | 0x0C => .ok .pack12
  | _ => .error (.reservedDepth code)

/-- Format FREQ, the byte cfg[4] (R103). -/
def decodeFreq (code : Byte) : Except DecodeError Instr :=
  match code.toNat with
  | 0x00 => .ok .freqOff
  | 0x01 => .ok .freqMax
  | 0x02 => .ok .freq2
  | 0x03 => .ok .freq3
  | 0x04 => .ok .freq4
  | 0x05 => .ok .freq5
  | 0x06 => .ok .freq6
  | 0x07 => .ok .freq7
  | 0x08 => .ok .freq8
  | 0x09 => .ok .freq9
  | 0x0A => .ok .freq10
  | 0x0B => .ok .freq11
  | 0x0C => .ok .freq12
  | 0x0D => .ok .freq13
  | 0x0E => .ok .freq14
  | 0x0F => .ok .freq15
  | _ => .error (.reservedFrequency code)

/-- Format TMODE, the byte cfg[9] (R104). -/
def decodeTmode (code : Byte) : Except DecodeError Instr :=
  match code.toNat with
  | 0x00 => .ok .trgNone
  | 0x01 => .ok .trgRise
  | 0x02 => .ok .trgFall
  | 0x03 => .ok .trgThresh
  | 0x04 => .ok .trgStrobeLo
  | 0x05 => .ok .trgStrobeHi
  | _ => .error (.reservedTriggerMode code)

/-- The decoder: total, and it rejects by name. -/
def decode : Encoded → Except DecodeError Instr
  | .evt w => .ok (decodeEvt w)
  | .cmd c => decodeCmd c
  | .depth c => decodeDepth c
  | .freq c => decodeFreq c
  | .tmode c => decodeTmode c

/-- The decoder on bytes: an event word is five bytes in the order of R109's ten hexadecimal digits `op idx val`
(so the first byte is `op`, log 13), a code is one byte. -/
def decodeBytes (f : Format) (bytes : List Byte) : Except DecodeError Instr :=
  match f, bytes with
  | .evt, [b0, b1, b2, b3, b4] => decode (.evt (b0 ++ (b1 ++ (b2 ++ (b3 ++ b4)))))
  | .evt, bs => .error (.eventLength bs.length)
  | .cmd, [c] => decode (.cmd c)
  | .depth, [c] => decode (.depth c)
  | .freq, [c] => decode (.freq c)
  | .tmode, [c] => decode (.tmode c)
  | .cmd, bs | .depth, bs | .freq, bs | .tmode, bs => .error (.codeLength bs.length)

/-! ### The encoder -/

/-- The encoding of every operation, from the same tables (R90, R91, R101 to R105). -/
def encode : Instr → Encoded
  | .reset idx val => .evt (evtWord 0x00#8 idx val)
  | .regwr idx val => .evt (evtWord 0x01#8 idx val)
  | .regrd idx val => .evt (evtWord 0x02#8 idx val)
  | .ingest idx val => .evt (evtWord 0x03#8 idx val)
  | .txdone idx val => .evt (evtWord 0x04#8 idx val)
  | .unsupported05 idx val => .evt (evtWord 0x05#8 idx val)
  | .unsupported06 op idx val => .evt (evtWord op idx val)
  | .unsupported08 op idx val => .evt (evtWord op idx val)
  | .unsupported10 op idx val => .evt (evtWord op idx val)
  | .unsupported20 op idx val => .evt (evtWord op idx val)
  | .unsupported40 op idx val => .evt (evtWord op idx val)
  | .unsupported80 op idx val => .evt (evtWord op idx val)
  | .cmdStop => .cmd 0x00#8
  | .cmdOnce => .cmd 0x01#8
  | .cmdCont => .cmd 0x02#8
  | .pack2 => .depth 0x02#8
  | .pack4 => .depth 0x04#8
  | .pack8 => .depth 0x08#8
  | .pack12 => .depth 0x0C#8
  | .freqOff => .freq 0x00#8
  | .freqMax => .freq 0x01#8
  | .freq2 => .freq 0x02#8
  | .freq3 => .freq 0x03#8
  | .freq4 => .freq 0x04#8
  | .freq5 => .freq 0x05#8
  | .freq6 => .freq 0x06#8
  | .freq7 => .freq 0x07#8
  | .freq8 => .freq 0x08#8
  | .freq9 => .freq 0x09#8
  | .freq10 => .freq 0x0A#8
  | .freq11 => .freq 0x0B#8
  | .freq12 => .freq 0x0C#8
  | .freq13 => .freq 0x0D#8
  | .freq14 => .freq 0x0E#8
  | .freq15 => .freq 0x0F#8
  | .trgNone => .tmode 0x00#8
  | .trgRise => .tmode 0x01#8
  | .trgFall => .tmode 0x02#8
  | .trgThresh => .tmode 0x03#8
  | .trgStrobeLo => .tmode 0x04#8
  | .trgStrobeHi => .tmode 0x05#8

/-! ### Words of the opcode table -/

/-- The encoding that `nbits` bits of value `w` stand for in spec/opcode_table.json. 40 bits are an event word.
Eight bits are a code, and the row's bits do not say of which register: the first row of the table with that value
is taken (CMD before DEPTH before FREQ; the TMODE rows all share a value with an earlier row) (DESIGN CHOICE,
log 9). -/
def tableEncoded (nbits w : Nat) : Option Encoded :=
  if nbits = 40 ∧ w < 2 ^ 40 then some (.evt (BitVec.ofNat 40 w))
  else if nbits = 8 ∧ w < 2 ^ 8 then
    let c : Byte := BitVec.ofNat 8 w
    if w ≤ 2 then some (.cmd c)
    else if w = 4 ∨ w = 8 ∨ w = 12 then some (.depth c)
    else some (.freq c)
  else none

/-- What the decoder reads from `nbits` bits of value `w`, numbered as spec/opcode_table.json numbers them. -/
def decodeTableWord (nbits w : Nat) : Option Instr :=
  match tableEncoded nbits w with
  | none => none
  | some e =>
    match decode e with
    | .ok i => some i
    | .error _ => none

end Sys2Proof
end

