-- ==== Sys2Proof/Config.lean ====
section
/-! DEFINITION. What is fixed for the core: the numbered parameters of spec/00_scope.md, the open rate table and
the free values. The two open parameters a claim may instantiate, N and CFG_DEFAULTS, are data of the machine
(State.params), not constants here. -/

namespace Sys2Proof.Config

/-- NCH = 10 physical channels (R8). -/
abbrev channels : Nat := 10

/-- HDR_BYTES = 4 (R9). -/
abbrev hdrBytes : Nat := 4

/-- BODY_BYTES = 60 (R10). -/
abbrev bodyBytes : Nat := 60

/-- BODY_BITS = 480 (R10). -/
abbrev bodyBits : Nat := 480

/-- PKT_BYTES = 64 (R10). -/
abbrev pktBytes : Nat := 64

/-- CFG_SPAN = 27 (R14). -/
abbrev cfgSpan : Nat := 27

/-- BAD_COMBOS: the (depth, channel count) pairs MODE moves off (R16). -/
abbrev badCombos : List (Nat × Nat) := [(8, 8), (12, 6)]

/-- RATE_TABLE: the OPEN function from a frequency code 1..15 to a sample interval (R17, D29). It has no body, so
a claim holds for every table; the unit of an interval is not given (log 3). -/
opaque rateTable : Byte → Nat

/-- The interval MODE hands over for the reserved codes 16..255, of which the spec says "an unspecified `interval`"
(R106, U3). A free value for each frequency byte and channel count; that it depends on nothing else is R148's
"same ... outputs" (log 4). -/
opaque reservedInterval : Byte → Nat → Nat

/-- What a slot byte that nothing has written since the last RESET holds: any value (R39, R320, U6). The first
argument is State.slotEpoch, so each RESET brings values of its own; the second is the byte's address (log 5). -/
opaque freeSlotByte : Nat → Nat → Byte

end Sys2Proof.Config
end

