-- ==== Sys2Proof/Machine/State.lean ====
section
/-! DEFINITION. The state of the core (spec/10_state.md), its inputs and outputs as plain data, the reasons a step
can stop, and the state after reset (R58). -/

namespace Sys2Proof.Machine

/-- The strobe sub-state (R33): waiting for a crossing, or inside the region since one. -/
inductive Strobe where
  | idle
  | hold
  deriving DecidableEq, Repr

/-- What the core hands out: the three output events of R111 and the responses of R94, R130, R297 and R298. -/
inductive Output where
  /-- `TXSTART(i, p)`: packet `p`, the 64 bytes of slot `i` at that instant, goes to the transport (R258). -/
  | txstart (slot : Nat) (packet : List Byte)
  /-- `ACQ(1, list, d, swap, interval)`: the derived acquisition parameters (R146). -/
  | acqOn (list : List Nat) (d : BitVec 4) (swap : Bool) (interval : Nat)
  /-- `ACQ(0, list, -, -, -)`: acquisition is off (R134). -/
  | acqOff (list : List Nat)
  /-- `IDLE(b)`: the idle indicator (R111). -/
  | idle (b : Bool)
  /-- The acknowledgement of a REGWR; it "carries no status" (R130). -/
  | ack
  /-- The reply of a REGRD: 0, 1 or 2 bytes (R94). -/
  | reply (bytes : List Byte)
  /-- The outcome Unsupported (R297). -/
  | unsupported
  /-- The outcome Ignored (R298). -/
  | ignored
  deriving DecidableEq, Repr

/-- An event a source has raised (R292, R293): its word and, for INGEST, the block delivered with it (R95). -/
structure Request where
  word : Encoded
  operand : List Half
  deriving DecidableEq, Repr

/-- The open parameters of the core a claim may instantiate: N (R11) and CFG_DEFAULTS (R18). No event writes them. -/
structure Params where
  ringSlots : Nat
  cfgDefaults : Vector Byte 27
  deriving DecidableEq, Repr

/-- Everything the spec gives the core (spec/10_state.md), then the model's own fields. -/
structure State where
  params : Params
  /-- The configuration byte space (R40). -/
  cfg : Vector Byte 27
  /-- "next slot the producer will fill" (R21). -/
  produceAt : Nat
  /-- "oldest slot not yet fully transmitted" (R22). -/
  sendFrom : Nat
  /-- "rolling sequence counter" (R23). -/
  seq : BitVec 7
  /-- The next packet of the open window carries the restart flag (R24). -/
  restartPending : Bool
  /-- "a transmission is still outstanding" (R25). -/
  txBusy : Bool
  /-- The outstanding transmission belongs to a discarded configuration (R26). -/
  txStale : Bool
  /-- "samples ingested" (R27). -/
  totalIn : Counter
  /-- "samples transmitted" (R28). -/
  totalOut : Counter
  /-- R29. -/
  armed : Bool
  /-- R29. -/
  fired : Bool
  /-- The bit `open` of R29. -/
  openBit : Bool
  /-- R33. -/
  strobe : Strobe
  /-- The "held-duration counter" (R33). -/
  held : Counter
  /-- A sample has been examined since the last ARM (R34). -/
  prevValid : Bool
  /-- The comparator result of that sample (R34). -/
  prevAbove : Bool
  /-- R35. -/
  engaged : Bool
  /-- `total_in` at the last FIRE or ARM (R36). -/
  rxAnchor : Counter
  /-- `total_out` at the last FIRE or ARM (R36). -/
  txAnchor : Counter
  /-- The latches of R37: depth, samples per packet, channel count `C`, swap flag, header mask, header mode byte. -/
  d : BitVec 4
  spp : BitVec 8
  chans : BitVec 4
  swap : Bool
  hdrMask : BitVec 16
  hdrMode : Byte
  /-- The slot memory (R39, R69): the bytes written since the last RESET, in the canonical form of Memory.wf. -/
  slots : List Host.Cell
  /-- The model's own: which free values the unwritten slot bytes have; RESET advances it (log 5). -/
  slotEpoch : Nat
  /-- The model's own: the data operand of the event being processed (R95, log 14). -/
  operand : List Half
  /-- The model's own: events raised and not yet processed, oldest first (R293, log 7). -/
  pending : List Request
  /-- The model's own: what the sources raise before each later step (log 7). -/
  arrivals : List (List Request)
  /-- The model's own: everything emitted and answered so far, oldest first (R111, log 12). -/
  out : List Output
  deriving DecidableEq, Repr

/-- The core itself has no fault ("No core condition is fatal", R290). These two stop the model in states that the
spec's own ranges exclude and that no run from reset reaches; both are safe (log 16, log 17). -/
inductive Fault where
  /-- Raised by INGEST and by TXDONE when `produce_at` or `send_from` is not an index in 0..N-1 (R21, R22). Safe. -/
  | ringIndex
  /-- Raised by INGEST when engaged with latches that R37 and R140 exclude. Safe. -/
  | latches
  deriving DecidableEq, Repr

/-- The inputs "outside the interface contract" (R290, R299). -/
inductive Refusal where
  /-- An instruction without a meaning. No arm of exec raises it. Safe. -/
  | notModelled (mnemonic : String)
  /-- Raised by INGEST while engaged: the block's length is not `spp` (R95, R299). Safe: no claim about such a trace. -/
  | blockLength
  /-- Raised by every event and by an idle step: N < 2 (R11, R299). Safe: no claim about such a core. -/
  | ringTooSmall
  deriving DecidableEq, Repr

/-- The parameters after reset: N = 4, the capacity of the source's one example, is a DESIGN CHOICE (log 1);
CFG_DEFAULTS all zero is the spec's default (R18, D8, log 2). -/
def Params.reset : Params where
  ringSlots := 4
  cfgDefaults := Vector.replicate 27 0#8

/-- The machine right after RESET, by the table of R58 with CFG_DEFAULTS all zero. Nothing is listed in the slot
memory, so its bytes are free (U6). `out` holds what the reset's own MODE emits: IDLE(1), ACQ(0, [], -, -, -) (R134,
R149). The inputs are empty: a program is what the sources raise (log 10). -/
def State.reset : State where
  params := Params.reset
  cfg := Vector.replicate 27 0#8
  produceAt := 0
  sendFrom := 0
  seq := 0
  restartPending := false
  txBusy := false
  txStale := false
  totalIn := 0
  totalOut := 0
  armed := false
  fired := false
  openBit := false
  strobe := .idle
  held := 0
  prevValid := false
  prevAbove := false
  engaged := false
  rxAnchor := 0
  txAnchor := 0
  d := 0
  spp := 0
  chans := 0
  swap := false
  hdrMask := 0
  hdrMode := 0
  slots := []
  slotEpoch := 0
  operand := []
  pending := []
  arrivals := []
  out := [.idle true, .acqOff []]

end Sys2Proof.Machine
end

