-- ==== Sys2Proof/Machine/Ops.lean ====
section
/-! DEFINITION. The named operations over the two memories (R60, R62, R132), the output side (R111), the outcomes that
stand where other hardware takes an exception (R19, R295), and the interface contract (R299). -/

namespace Sys2Proof.Machine

/-! ### The slot memory, byte by byte -/

/-- The slot memory: the bytes written since the last RESET. -/
abbrev Memory := List Host.Cell

/-- The canonical form: addresses strictly rising. An unlisted address has no determined value (it reads as a free
value, U6), so no entry equals what it would read as without it. -/
abbrev Memory.wf (m : Memory) : Prop := m.Pairwise (fun x y => x.1 < y.1)

/-- The byte written at an address, if one was. -/
def Memory.read : Memory → Nat → Option Byte
  | [], _ => none
  | (k, v) :: m, a => if k = a then some v else Memory.read m a

/-- Writes one byte, keeping the canonical form. -/
def Memory.write : Memory → Nat → Byte → Memory
  | [], a, b => [(a, b)]
  | (k, v) :: m, a, b =>
    if a < k then (a, b) :: (k, v) :: m
    else if a = k then (a, b) :: m
    else (k, v) :: Memory.write m a b

/-- Writes bytes at consecutive addresses. -/
def Memory.writeAll (m : Memory) (a : Nat) : List Byte → Memory
  | [] => m
  | b :: bs => Memory.writeAll (Memory.write m a b) (a + 1) bs

/-- Slot i occupies bytes 64 i .. 64 i + 63 (R69). -/
def slotBase (i : Nat) : Nat := 64 * i

/-- The model's read of one byte of the slot memory: what was last written there since RESET, otherwise a free value
(R39, U6, log 5). -/
def slotByte (s : State) (a : Nat) : Byte :=
  (Memory.read s.slots a).getD (Config.freeSlotByte s.slotEpoch a)

/-- `SlotRead(i)`: the 64-byte packet of slot i (R19). -/
def slotRead (i : Nat) (s : State) : List Byte :=
  (List.range 64).map (fun j => slotByte s (slotBase i + j))

/-- `SlotWrite(i, p)` (R19). -/
def slotWrite (i : Nat) (p : List Byte) (s : State) : State :=
  { s with slots := Memory.writeAll s.slots (slotBase i) p }

/-! ### The configuration byte space -/

/-- `MemRead(i, 1)` (R19). -/
def memRead1 (s : State) (i : Nat) (_ : i < 27 := by decide) : Byte := s.cfg[i]

/-- `MemRead(i, 2)`, little-endian: "the byte at the lowest index is the least significant" (R19, R62). -/
def memRead2 (s : State) (i : Nat) (_ : i + 1 < 27 := by decide) : Half := s.cfg[i + 1] ++ s.cfg[i]

/-- `MemRead(i, 4)`, little-endian (R19, R62). -/
def memRead4 (s : State) (i : Nat) (_ : i + 3 < 27 := by decide) : BitVec 32 :=
  s.cfg[i + 3] ++ (s.cfg[i + 2] ++ (s.cfg[i + 1] ++ s.cfg[i]))

/-- `MemWrite(i, 2, v)`, little-endian (R19, R62). -/
def memWrite2 (i : Nat) (v : Half) (s : State) (_ : i + 1 < 27 := by decide) : State :=
  { s with cfg := (s.cfg.set i (v.extractLsb' 0 8)).set (i + 1) (v.extractLsb' 8 8) }

/-- `CfgWrite(index, value)` (R132): the state after the write, or none where it fails and nothing changes. -/
def cfgWrite (index value : Byte) (s : State) : Option State :=
  if h : index.toNat < 27 then some { s with cfg := s.cfg.set index.toNat value } else none

/-- The configuration byte a read names, if it exists: "each requested index that is out of range is simply omitted"
(R94, R131). -/
def cfgRead (index : Byte) (s : State) : List Byte :=
  if h : index.toNat < 27 then [s.cfg[index.toNat]] else []

/-! ### Outputs and outcomes -/

/-- Appends one output. -/
def emit (o : Output) (s : State) : State := { s with out := s.out ++ [o] }

/-- `raise <Outcome>` (R19): "the operation ends here with the named outcome on its response interface", and nothing
else changes. This is all that stands for an exception: taking an event "saves no state, changes no mode and consults
no vector table" (R295), and "There is no return instruction" (R296). -/
def raiseOutcome (o : Output) (s : State) : Host.Outcome State Fault Refusal := .next (emit o s)

/-- "any use of the model with N < 2" is refused (R299); with N of 2 or more the event goes its way. -/
def inContract (s : State) (r : Host.Outcome State Fault Refusal) : Host.Outcome State Fault Refusal :=
  if s.params.ringSlots < 2 then .refused .ringTooSmall else r

end Sys2Proof.Machine
end

