-- ==== Sys2Proof/Machine/Operands.lean ====
section
/-! DEFINITION. Every operand form: the halves of a control request (R93), the named configuration fields (R40 to R54),
the words of a block (R95, R221) and the samples the trigger examines (R171). -/

namespace Sys2Proof.Machine

/-! ### The control request (R92, R93) -/

/-- `index_low` and `value_low`: the low byte of a 16-bit field. -/
def lowByte (h : Half) : Byte := h.extractLsb' 0 8

/-- `index_high` and `value_high`: the high byte. -/
def highByte (h : Half) : Byte := h.extractLsb' 8 8

/-! ### The named configuration fields (R40) -/

/-- R41. -/
def cfgCmd (s : State) : Byte := memRead1 s 0
/-- R42. -/
def cfgChannels (s : State) : Half := memRead2 s 1
/-- R43. -/
def cfgDepth (s : State) : Byte := memRead1 s 3
/-- R44. -/
def cfgFreq (s : State) : Byte := memRead1 s 4
/-- R45. -/
def cfgOffset (s : State) : Half := memRead2 s 5
/-- R46. -/
def cfgGain (s : State) : Byte := memRead1 s 7
/-- R47. -/
def cfgSamples (s : State) : Byte := memRead1 s 8
/-- R48. -/
def cfgTrigMode (s : State) : Byte := memRead1 s 9
/-- R49. -/
def cfgTrigChannel (s : State) : Byte := memRead1 s 10
/-- R50. -/
def cfgTrigLevel (s : State) : Half := memRead2 s 11
/-- R51, R62: `sext_32` of the four bytes, a signed number. -/
def cfgTrigOffset (s : State) : Int := (memRead4 s 13).toInt
/-- R52. -/
def cfgTrigTMin (s : State) : BitVec 32 := memRead4 s 17
/-- R53. -/
def cfgTrigTMax (s : State) : BitVec 32 := memRead4 s 21
/-- R54. -/
def cfgUsedChannels (s : State) : Half := memRead2 s 25

/-! ### The block operand of INGEST -/

/-- "Bits [11:0] of a word are the raw sample" (R95). -/
def rawSample (w : Half) : Sample := w.extractLsb' 0 12

/-- `SWAP` (R221): in each 32-bit unit the second stored word comes first. -/
def swapPairs : List Half → List Half
  | lo :: hi :: rest => hi :: lo :: swapPairs rest
  | rest => rest

/-- The block in time order (R221): swapped iff `swap = 1`. -/
def timeOrder (s : State) (w : List Half) : List Half := if s.swap then swapPairs w else w

/-- The words of one channel of a block of `n` words in scans of `c` (R171): `B[t], B[t+C], B[t+2C], ...`, one for
each of the `n / c` scans. -/
def channelWords (block : List Half) (n c t : Nat) : List Half :=
  (List.range (n / c)).filterMap (fun j => block[j * c + t]?)

/-- The words the Trigger Engine examines in a block (R170, R171). -/
def examinedWords (s : State) (block : List Half) : List Half :=
  channelWords block s.spp.toNat s.chans.toNat (cfgTrigChannel s).toNat

end Sys2Proof.Machine
end

