-- ==== Sys2Proof/Machine/Flags.lean ====
section
/-! DEFINITION. Every derived signal and test: the gates of R31 and R32, the ring arithmetic of R229 and R264, the
comparator (R172), the window, stall and burst tests (R187, R189, R255), and the disengage test (R139). -/

namespace Sys2Proof.Machine

/-- `win_open := fired and open` (R31). -/
def winOpen (s : State) : Bool := s.fired && s.openBit

/-- `adv_en := armed or win_open` (R32). -/
def advEn (s : State) : Bool := s.armed || winOpen s

/-- One slot on, modulo N (R38, R229). -/
def ringNext (n i : Nat) : Nat := (i + 1) % n

/-- `(i - k) mod N`, the non-negative remainder (R19, R229 (c)). -/
def ringBack (n i k : Nat) : Nat := (((i : Int) - (k : Int)) % (n : Int)).toNat

/-- `next` of R250: the slot after `produce_at`. -/
def nextSlot (s : State) : Nat := ringNext s.params.ringSlots s.produceAt

/-- `is_empty` (R264). -/
def isEmpty (s : State) : Bool := s.sendFrom == s.produceAt

/-- `is_full` (R264). -/
def isFull (s : State) : Bool := nextSlot s == s.sendFrom

/-- "The stall condition is exactly `next = send_from and tx_busy = 1`" (R255). -/
def stalled (s : State) : Bool := isFull s && s.txBusy

/-- Both indices lie in 0..N-1 (R21, R22). -/
def indicesOk (s : State) : Bool :=
  decide (s.produceAt < s.params.ringSlots) && decide (s.sendFrom < s.params.ringSlots)

/-- The latches hold what a full MODE leaves (R37, R140): one of the four depths with its `spp`, and a channel
count in 1..10 that divides `spp`. -/
def latchesOk (s : State) : Bool :=
  decide (s.d.toNat ∈ [2, 4, 8, 12]) && decide (s.spp.toNat = Config.bodyBits / s.d.toNat) &&
    decide (1 ≤ s.chans.toNat ∧ s.chans.toNat ≤ Config.channels) && decide (s.spp.toNat % s.chans.toNat = 0)

/-- The comparator (R172): `v > cfg.trig_level`, unsigned, strict, on the raw sample. -/
def above (s : State) (w : Half) : Bool := decide ((cfgTrigLevel s).toNat < (rawSample w).toNat)

/-- The window test (R187): `(total_in - rx_anchor) mod 2^32 >= max(sext_32(cfg.trig_offset), 0)`. -/
def delayPassed (s : State) : Bool :=
  decide (max (cfgTrigOffset s) 0 ≤ (((s.totalIn - s.rxAnchor).toNat : Nat) : Int))

/-- `burst_length = 2^(cfg.samples + 10)`, a mathematical integer (R189). -/
def burstLength (s : State) : Nat := 2 ^ ((cfgSamples s).toNat + 10)

/-- The burst test (R190): `(total_out - tx_anchor) mod 2^32 >= burst_length`. -/
def burstReached (s : State) : Bool := decide (burstLength s ≤ (s.totalOut - s.txAnchor).toNat)

/-- The depth codes (R43): the code is the number of bits. -/
def depthCode (b : Byte) : Bool := decide (b.toNat ∈ [2, 4, 8, 12])

/-- `Disengaged(list)` (R139). -/
def disengages (list : List Nat) (s : State) : Bool :=
  list.isEmpty || !(cfgCmd s == 1#8 || cfgCmd s == 2#8) || cfgFreq s == 0#8 || !depthCode (cfgDepth s)

end Sys2Proof.Machine
end

