-- ==== Sys2Proof/Machine/ModeEngine.lean ====
section
/-! DEFINITION. The Mode Engine (spec/40_config.md section 2): channel derivation, MODE, ARM, DISARM, and the write
that runs it (R133). -/

namespace Sys2Proof.Machine

/-! ### Channels (R135 to R137) -/

/-- The list of `Expand(m)` (R135): the selected channels, ascending. -/
def channelList (m : BitVec 10) : List Nat := (List.range Config.channels).filter (fun i => m.getLsbD i)

/-- The `spare` of `Expand(m)` (R135): the largest unselected channel. -/
def spareChannel (m : BitVec 10) : Option Nat :=
  (List.range Config.channels).reverse.find? (fun i => !m.getLsbD i)

/-- `used <- used + 2^spare` (R136, R137). With every channel selected there is no spare and nothing to add. -/
def addSpare (m : BitVec 10) : BitVec 10 :=
  match spareChannel m with
  | some i => m + BitVec.ofNat 10 (2 ^ i)
  | none => m

/-- Step 3, pairing (R136). -/
def pairChannels (m : BitVec 10) : BitVec 10 :=
  if 1 < (channelList m).length ∧ (channelList m).length % 2 = 1 then addSpare m else m

/-- Step 4, the known-bad combinations (R137): one channel added, then step 3 again. -/
def avoidBadCombo (depth : Byte) (m : BitVec 10) : BitVec 10 :=
  if (depth.toNat, (channelList m).length) ∈ Config.badCombos then pairChannels (addSpare m) else m

/-- `DeriveChannels()` (R135 to R137): the effective mask. Bits 15..10 of the request are dropped. -/
def usedMask (s : State) : BitVec 10 :=
  avoidBadCombo (cfgDepth s) (pairChannels ((cfgChannels s).extractLsb' 0 10))

/-! ### Arming -/

/-- `DISARM()` (R147). -/
def disarm (s : State) : State :=
  { s with
    armed := false, fired := false, openBit := false, strobe := .idle, held := 0,
    prevValid := false, prevAbove := false, restartPending := false }

/-- `ARM(fresh)` (R145). -/
def arm (fresh : Bool) (s : State) : State :=
  { disarm s with
    armed := cfgCmd s == 2#8 || (cfgCmd s == 1#8 && fresh)
    rxAnchor := s.totalIn
    txAnchor := s.totalOut }

/-! ### MODE -/

/-- `interval` (R146): from RATE_TABLE for the codes 1..15, halved in the fast-interleave mode, scaled by
`channel_count / 2` with several channels; unspecified for 16..255 (R106, U3). -/
def sampleInterval (freq : Byte) (c : Nat) (swap : Bool) : Nat :=
  if 15 < freq.toNat then Config.reservedInterval freq c
  else if swap then Config.rateTable freq / 2
  else if 1 < c then Config.rateTable freq * c / 2
  else Config.rateTable freq

/-- R143: an outstanding transmission is marked stale, on both paths. -/
def markStale (s : State) : State := if s.txBusy then { s with txStale := true } else s

/-- The disengage path (R139). -/
def modeOff (list : List Nat) (s : State) : State :=
  emit (.acqOff list) (emit (.idle true) (disarm { s with engaged := false }))

/-- Steps 6 to 8 (R140, R141, R142): the latches, and the reset of the ring, the sequence and the counters. -/
def latchMode (used : BitVec 10) (list : List Nat) (s : State) : State :=
  { s with
    engaged := true
    d := (cfgDepth s).extractLsb' 0 4
    spp := BitVec.ofNat 8 (Config.bodyBits / (cfgDepth s).toNat)
    chans := BitVec.ofNat 4 list.length
    swap := list.length == 1 && cfgFreq s == 1#8
    hdrMask := used.setWidth 16
    hdrMode := (cfgFreq s).extractLsb' 0 4 ++ (cfgDepth s).extractLsb' 0 4
    seq := 0, produceAt := 0, sendFrom := 0, totalIn := 0, totalOut := 0 }

/-- The full path: steps 6 to 10 (R140 to R146). -/
def modeOn (used : BitVec 10) (list : List Nat) (s : State) : State :=
  let t := arm true (latchMode used list s)
  emit (.acqOn list t.d t.swap (sampleInterval (cfgFreq t) list.length t.swap)) (emit (.idle false) t)

/-- `MODE()` (R134): derive the channels, store the mask (R138), mark an outstanding transmission stale (R143), then
one of the two paths. -/
def modeEngine (s : State) : State :=
  let used := usedMask s
  let list := channelList used
  let t := markStale (memWrite2 25 (used.setWidth 16) s)
  if disengages list t then modeOff list t else modeOn used list t

/-- One half of a REGWR (R130, R133): MODE runs after a write that succeeds and not after one that fails. -/
def writeConfig (index value : Byte) (s : State) : State :=
  match cfgWrite index value s with
  | some t => modeEngine t
  | none => s

end Sys2Proof.Machine
end

