-- ==== Sys2Proof/Machine/Codes.lean ====
section
/-! DEFINITION. The meanings of the 29 code rows (R101 to R104). A code is the value of one configuration byte, and the
operation is the one-byte write that puts it there: `WR1 reg, code` = `REGWR 0xFF00 + reg, code[7:0]` (R110), so MODE
runs and the write is acknowledged (R130, R133). MODE then acts on a command or frequency code at once (R139, R141,
R145, R146) and latches a depth (R140); a packer (R223 to R226) or a trigger mode (R173 to R178) is what every later
INGEST uses (DESIGN CHOICE, log 8). -/

namespace Sys2Proof.Machine

/-- Puts `code` into the configuration byte `reg`: `WR1 reg, code` (R110). -/
def selectCode (reg code : Byte) (s : State) : Host.Outcome State Fault Refusal :=
  inContract s (.next (emit .ack (writeConfig reg code s)))

/-- CMD.STOP: MODE disengages (R139). -/
def execCmdStop (s : State) : Host.Outcome State Fault Refusal := selectCode 0#8 0x00#8 s
/-- CMD.ONCE: armed by this fresh MODE and not re-armed after the burst (R145, R190). -/
def execCmdOnce (s : State) : Host.Outcome State Fault Refusal := selectCode 0#8 0x01#8 s
/-- CMD.CONT: armed now and re-armed after each burst (R145, R190). -/
def execCmdCont (s : State) : Host.Outcome State Fault Refusal := selectCode 0#8 0x02#8 s
/-- PACK2: depth 2, `spp` 240; ENCODE packs with packTwo (R223). -/
def execPack2 (s : State) : Host.Outcome State Fault Refusal := selectCode 3#8 0x02#8 s
/-- PACK4: depth 4, `spp` 120; ENCODE packs with packFour (R224). -/
def execPack4 (s : State) : Host.Outcome State Fault Refusal := selectCode 3#8 0x04#8 s
/-- PACK8: depth 8, `spp` 60; ENCODE packs with packEight (R225). -/
def execPack8 (s : State) : Host.Outcome State Fault Refusal := selectCode 3#8 0x08#8 s
/-- PACK12: depth 12, `spp` 40; ENCODE packs with packTwelve (R226). -/
def execPack12 (s : State) : Host.Outcome State Fault Refusal := selectCode 3#8 0x0C#8 s
/-- FREQ.OFF: MODE disengages (R139). -/
def execFreqOff (s : State) : Host.Outcome State Fault Refusal := selectCode 4#8 0x00#8 s
/-- FREQ.MAX: the fastest rate; with one channel `swap` is set (R141). -/
def execFreqMax (s : State) : Host.Outcome State Fault Refusal := selectCode 4#8 0x01#8 s
/-- FREQ.2: `interval` from RATE_TABLE[2] (R146). -/
def execFreq2 (s : State) : Host.Outcome State Fault Refusal := selectCode 4#8 0x02#8 s
/-- FREQ.3: `interval` from RATE_TABLE[3] (R146). -/
def execFreq3 (s : State) : Host.Outcome State Fault Refusal := selectCode 4#8 0x03#8 s
/-- FREQ.4: `interval` from RATE_TABLE[4] (R146). -/
def execFreq4 (s : State) : Host.Outcome State Fault Refusal := selectCode 4#8 0x04#8 s
/-- FREQ.5: `interval` from RATE_TABLE[5] (R146). -/
def execFreq5 (s : State) : Host.Outcome State Fault Refusal := selectCode 4#8 0x05#8 s
/-- FREQ.6: `interval` from RATE_TABLE[6] (R146). -/
def execFreq6 (s : State) : Host.Outcome State Fault Refusal := selectCode 4#8 0x06#8 s
/-- FREQ.7: `interval` from RATE_TABLE[7] (R146). -/
def execFreq7 (s : State) : Host.Outcome State Fault Refusal := selectCode 4#8 0x07#8 s
/-- FREQ.8: `interval` from RATE_TABLE[8] (R146). -/
def execFreq8 (s : State) : Host.Outcome State Fault Refusal := selectCode 4#8 0x08#8 s
/-- FREQ.9: `interval` from RATE_TABLE[9] (R146). -/
def execFreq9 (s : State) : Host.Outcome State Fault Refusal := selectCode 4#8 0x09#8 s
/-- FREQ.10: `interval` from RATE_TABLE[10] (R146). -/
def execFreq10 (s : State) : Host.Outcome State Fault Refusal := selectCode 4#8 0x0A#8 s
/-- FREQ.11: `interval` from RATE_TABLE[11] (R146). -/
def execFreq11 (s : State) : Host.Outcome State Fault Refusal := selectCode 4#8 0x0B#8 s
/-- FREQ.12: `interval` from RATE_TABLE[12] (R146). -/
def execFreq12 (s : State) : Host.Outcome State Fault Refusal := selectCode 4#8 0x0C#8 s
/-- FREQ.13: `interval` from RATE_TABLE[13] (R146). -/
def execFreq13 (s : State) : Host.Outcome State Fault Refusal := selectCode 4#8 0x0D#8 s
/-- FREQ.14: `interval` from RATE_TABLE[14] (R146). -/
def execFreq14 (s : State) : Host.Outcome State Fault Refusal := selectCode 4#8 0x0E#8 s
/-- FREQ.15: `interval` from RATE_TABLE[15] (R146). -/
def execFreq15 (s : State) : Host.Outcome State Fault Refusal := selectCode 4#8 0x0F#8 s
/-- TRG.NONE: fires on the first evaluation (R173). -/
def execTrgNone (s : State) : Host.Outcome State Fault Refusal := selectCode 9#8 0x00#8 s
/-- TRG.RISE: TRIG_EVAL uses condRise (R174). -/
def execTrgRise (s : State) : Host.Outcome State Fault Refusal := selectCode 9#8 0x01#8 s
/-- TRG.FALL: TRIG_EVAL uses condFall (R175). -/
def execTrgFall (s : State) : Host.Outcome State Fault Refusal := selectCode 9#8 0x02#8 s
/-- TRG.THRESH: TRIG_EVAL uses condThresh (R176). -/
def execTrgThresh (s : State) : Host.Outcome State Fault Refusal := selectCode 9#8 0x03#8 s
/-- TRG.STROBE_LO: TRIG_EVAL uses condStrobeLo (R177, R179). -/
def execTrgStrobeLo (s : State) : Host.Outcome State Fault Refusal := selectCode 9#8 0x04#8 s
/-- TRG.STROBE_HI: TRIG_EVAL uses condStrobeHi (R178, R179). -/
def execTrgStrobeHi (s : State) : Host.Outcome State Fault Refusal := selectCode 9#8 0x05#8 s

/-- A code value the spec reserves is no operation of the table, and it is not refused: "None is rejected at write
time" (R106). A request that carries one is run as the write it is (log 22); an event word never comes here. -/
def selectReserved (e : Encoded) (s : State) : Host.Outcome State Fault Refusal :=
  match e with
  | .cmd c => selectCode 0#8 c s
  | .depth c => selectCode 3#8 c s
  | .freq c => selectCode 4#8 c s
  | .tmode c => selectCode 9#8 c s
  | .evt _ => inContract s (raiseOutcome .unsupported s)

end Sys2Proof.Machine
end

