-- ==== Sys2Proof/Machine/Encoder.lean ====
section
/-! DEFINITION. The Sample Encoder (spec/42_encoder.md): ADJ, the four packers, ENCODE, and the inverse packers R228
gives "for tests only". -/

namespace Sys2Proof.Machine

/-- `ADJ(x)` (R222): `((raw - cfg.offset) * 2^cfg.gain) mod 4096` on mathematical integers. -/
def adjust (offset : Half) (gain : Byte) (w : Half) : Sample :=
  BitVec.ofInt 12 ((((rawSample w).toNat : Int) - (offset.toNat : Int)) * 2 ^ gain.toNat)

/-! ### The packers (R223 to R226) -/

/-- `a[11:10]` (R223). -/
def top2 (a : Sample) : BitVec 2 := a.extractLsb' 10 2
/-- `a[11:8]` (R224). -/
def top4 (a : Sample) : BitVec 4 := a.extractLsb' 8 4
/-- `a[11:4]` (R225, R226). -/
def top8 (a : Sample) : Byte := a.extractLsb' 4 8
/-- `a[3:0]` (R226). -/
def low4 (a : Sample) : BitVec 4 := a.extractLsb' 0 4

/-- `PACK2` (R223): four samples to a byte, the first in the top bits. -/
def packTwo : List Sample → List Byte
  | a :: b :: c :: d :: rest => (top2 a ++ (top2 b ++ (top2 c ++ top2 d))) :: packTwo rest
  | _ => []

/-- `PACK4` (R224): two samples to a byte, the first in the high nibble. -/
def packFour : List Sample → List Byte
  | a :: b :: rest => (top4 a ++ top4 b) :: packFour rest
  | _ => []

/-- `PACK8` (R225): one sample to a byte. -/
def packEight : List Sample → List Byte
  | a :: rest => top8 a :: packEight rest
  | [] => []

/-- `PACK12` (R226): two samples to three bytes. -/
def packTwelve : List Sample → List Byte
  | a :: b :: rest => top8 a :: (low4 a ++ low4 b) :: top8 b :: packTwelve rest
  | _ => []

/-- The `case d of` of ENCODE (R220). "`d` is one of 2, 4, 8, 12 whenever ENCODE runs": for any other latch INGEST has
already stopped (latchesOk), so the last line is never taken. -/
def packBody (d : BitVec 4) (a : List Sample) : List Byte :=
  match d.toNat with
  | 2 => packTwo a
  | 4 => packFour a
  | 8 => packEight a
  | 12 => packTwelve a
  | _ => []

/-- `ENCODE(B)` (R220): reads `cfg.offset`, `cfg.gain` and the latch `d`, "and writes no state". -/
def encodeBlock (s : State) (block : List Half) : List Byte :=
  packBody s.d (block.map (adjust (cfgOffset s) (cfgGain s)))

/-! ### The inverse packers (R228), given for statements about the round trip -/

/-- `UNPACK2` (R228). -/
def unpackTwo : List Byte → List Sample
  | [] => []
  | b :: rest =>
    (b.extractLsb' 6 2 ++ 0#10) :: (b.extractLsb' 4 2 ++ 0#10) :: (b.extractLsb' 2 2 ++ 0#10) ::
      (b.extractLsb' 0 2 ++ 0#10) :: unpackTwo rest

/-- `UNPACK4` (R228). -/
def unpackFour : List Byte → List Sample
  | [] => []
  | b :: rest => (b.extractLsb' 4 4 ++ 0#8) :: (b.extractLsb' 0 4 ++ 0#8) :: unpackFour rest

/-- `UNPACK8` (R228). -/
def unpackEight : List Byte → List Sample
  | [] => []
  | b :: rest => (b ++ 0#4) :: unpackEight rest

/-- `UNPACK12` (R228). -/
def unpackTwelve : List Byte → List Sample
  | x :: y :: z :: rest => (x ++ y.extractLsb' 4 4) :: (z ++ y.extractLsb' 0 4) :: unpackTwelve rest
  | _ => []

end Sys2Proof.Machine
end

