-- ==== Sys2Proof/Machine/Trigger.lean ====
section
/-! DEFINITION. The Trigger Engine (spec/41_trigger.md): the six mode evaluators, StrobeStep, FIRE, TRIG_EVAL and the
window rule. -/

namespace Sys2Proof.Machine

/-! ### The six modes -/

/-- The interval test at the end of `StrobeStep` (R179); a `trig_t_max` of 0 "means unbounded" (R53). -/
def heldInInterval (s : State) : Bool :=
  decide ((cfgTrigTMin s).toNat ≤ s.held.toNat) &&
    (cfgTrigTMax s == 0#32 || decide (s.held.toNat ≤ (cfgTrigTMax s).toNat))

/-- `min(held + 1, 2^32 - 1)` (R179). -/
def heldSucc (h : Counter) : Counter := if h.toNat = 2 ^ 32 - 1 then h else h + 1

/-- `StrobeStep(in, prev_in)` (R179): whether it hits, and the state with `strobe` and `held` moved on. -/
def strobeStep (inside prevInside : Bool) (s : State) : Bool × State :=
  if !inside then (false, { s with strobe := .idle, held := 0 })
  else if s.strobe = .hold then
    let t := { s with held := heldSucc s.held }
    (heldInInterval t, t)
  else if s.prevValid && !prevInside then
    let t := { s with strobe := .hold, held := 0 }
    (heldInInterval t, t)
  else (false, s)

/-- `TRG.RISE` (R174). -/
def condRise (s : State) (ab : Bool) : Bool := s.prevValid && !s.prevAbove && ab

/-- `TRG.FALL` (R175). -/
def condFall (s : State) (ab : Bool) : Bool := s.prevValid && s.prevAbove && !ab

/-- `TRG.THRESH` (R176). -/
def condThresh (s : State) (ab : Bool) : Bool := s.prevValid && (s.prevAbove != ab)

/-- `TRG.STROBE_LO` (R177): the region is "not above". -/
def condStrobeLo (s : State) (ab : Bool) : Bool × State := strobeStep (!ab) (!s.prevAbove) s

/-- `TRG.STROBE_HI` (R178): the region is "above". -/
def condStrobeHi (s : State) (ab : Bool) : Bool × State := strobeStep ab s.prevAbove s

/-- `Cond(m, above)` (R170) for the modes 1 to 5. Mode 0 fires before any sample is looked at (R173) and the reserved
modes look at none (R181), so no sample of theirs comes here. -/
def cond (m : Byte) (s : State) (ab : Bool) : Bool × State :=
  match m.toNat with
  | 1 => (condRise s ab, s)
  | 2 => (condFall s ab, s)
  | 3 => (condThresh s ab, s)
  | 4 => condStrobeLo s ab
  | 5 => condStrobeHi s ab
  | _ => (false, s)

/-- One examined sample: the comparator, the condition, then `prev_valid <- 1; prev_above <- above` (R170, R180). -/
def examine (w : Half) (s : State) : Bool × State :=
  let ab := above s w
  let (hit, t) := cond (cfgTrigMode s) s ab
  (hit, { t with prevValid := true, prevAbove := ab })

/-! ### Fire -/

/-- The whole-packet count of a rewind (R185), clamped to K_MAX = N - 2 (R186); 0 for an offset of 0 or more. -/
def rewindCount (s : State) : Nat :=
  if cfgTrigOffset s < 0 then min ((-cfgTrigOffset s).toNat / s.spp.toNat) (s.params.ringSlots - 2) else 0

/-- `FIRE()` (R183 to R186). -/
def fire (s : State) : State :=
  { s with
    armed := false
    fired := true
    rxAnchor := s.totalIn
    txAnchor := s.totalOut
    restartPending := true
    sendFrom := ringBack s.params.ringSlots s.produceAt (rewindCount s) }

/-! ### TRIG_EVAL -/

/-- The loop of R170 over the examined samples: it "stops at the first hit" (R182). -/
def scanSamples : List Half → State → State
  | [], s => s
  | w :: ws, s =>
    let (hit, t) := examine w s
    if hit then fire t else scanSamples ws t

/-- The armed half of TRIG_EVAL (R170, R171, R173, R181). -/
def evalArmed (block : List Half) (s : State) : State :=
  if cfgTrigMode s = 0#8 then fire s
  else if (cfgTrigMode s).toNat ≤ 5 ∧ (cfgTrigChannel s).toNat < s.chans.toNat then
    scanSamples (examinedWords s block) s
  else s

/-- The window rule at the end of TRIG_EVAL (R187). -/
def openWindow (s : State) : State :=
  if s.fired && !s.openBit && delayPassed s then { s with openBit := true } else s

/-- `TRIG_EVAL(B)` (R170), `block` in time order. "When `armed = 0` no sample is examined" (R192). -/
def trigEval (block : List Half) (s : State) : State :=
  openWindow (if s.armed then evalArmed block s else s)

end Sys2Proof.Machine
end

