-- ==== Sys2Proof/Machine/Ring.lean ====
section
/-! DEFINITION. The Packet Ring and the Streaming Scheduler (spec/43_ring.md): the producer's steps of INGEST, KICK, and
the two completions of TXDONE. -/

namespace Sys2Proof.Machine

/-! ### The producer -/

/-- The header of the next packet (R96 to R99, R251): `[ flag*128 + seq, hdr_mask[7:0], hdr_mask[15:8], hdr_mode ]`. -/
def header (flag : Bool) (s : State) : List Byte :=
  [BitVec.ofBool flag ++ s.seq, s.hdrMask.extractLsb' 0 8, s.hdrMask.extractLsb' 8 8, s.hdrMode]

/-- The restart flag of the next packet (R250, R252): `restart_pending = 1 and win_open`. -/
def takesFlag (s : State) : Bool := s.restartPending && winOpen s

/-- R250 from the flag to the counter: the flag (R252), the packet into slot `produce_at` (R251), the sequence (R253),
the count (R254). `block` is in time order. -/
def producePacket (block : List Half) (s : State) : State :=
  let flag := takesFlag s
  let t := slotWrite s.produceAt (header flag s ++ encodeBlock s block) s
  { t with
    restartPending := s.restartPending && !flag
    seq := s.seq + 1
    totalIn := s.totalIn + s.spp.setWidth 32 }

/-- R255: `produce_at` advances while `adv_en` holds and the advance would not meet the slot in flight. -/
def advance (s : State) : State :=
  if advEn s && !stalled s then { s with produceAt := nextSlot s } else s

/-! ### The scheduler -/

/-- `KICK()` (R257, R258). -/
def kick (s : State) : State :=
  if winOpen s && !s.txBusy && !isEmpty s then
    emit (.txstart s.sendFrom (slotRead s.sendFrom s)) { s with txBusy := true }
  else s

/-- What INGEST does with a block while engaged (R250), in the order of R3: trigger, encode, write, advance,
scheduler. -/
def ingestBlock (w : List Half) (s : State) : State :=
  let block := timeOrder s w
  kick (advance (producePacket block (trigEval block s)))

/-! ### The consumer -/

/-- The burst test of TXDONE (R190, R259). -/
def endBurst (s : State) : State := if s.fired && burstReached s then arm false s else s

/-- A completion that counts (R259). -/
def completeCounted (s : State) : State :=
  kick (endBurst { s with
    txBusy := false
    sendFrom := ringNext s.params.ringSlots s.sendFrom
    totalOut := s.totalOut + s.spp.setWidth 32 })

/-- A stale completion (R260): it "frees the transport and changes nothing else"; KICK then runs. -/
def completeStale (s : State) : State := kick { s with txBusy := false, txStale := false }

end Sys2Proof.Machine
end

