-- ==== Sys2Proof/Machine/Events.lean ====
section
/-! DEFINITION. The meanings of the five events: RESET (R149), REGWR (R130), REGRD (R131), INGEST (R250), TXDONE (R259),
and of the seven rows of unassigned `op` values (R105, R297). -/

namespace Sys2Proof.Machine

/-! ### RESET -/

/-- Everything R149 sets before it runs MODE. The slot memory "is left unspecified": nothing stays listed and the
bytes get fresh free values (R320, U6, log 6). -/
def clearAll (s : State) : State :=
  disarm { s with
    cfg := s.params.cfgDefaults
    txBusy := false, txStale := false
    produceAt := 0, sendFrom := 0, seq := 0, totalIn := 0, totalOut := 0
    rxAnchor := 0, txAnchor := 0
    d := 0, spp := 0, chans := 0, swap := false, hdrMask := 0, hdrMode := 0
    slots := [], slotEpoch := s.slotEpoch + 1 }

/-- RESET (R149): `idx` and `val` are ignored (R90). -/
def execReset (_idx _val : Half) (s : State) : Host.Outcome State Fault Refusal :=
  inContract s (.next (modeEngine (clearAll s)))

/-! ### The Register Store -/

/-- REGWR (R130): the low pair, then the high pair, then the acknowledgement. -/
def execRegwr (idx val : Half) (s : State) : Host.Outcome State Fault Refusal :=
  inContract s (.next (emit .ack
    (writeConfig (highByte idx) (highByte val) (writeConfig (lowByte idx) (lowByte val) s))))

/-- REGRD (R131): the reply, and no state changes. `val` is ignored (R90). -/
def execRegrd (idx _val : Half) (s : State) : Host.Outcome State Fault Refusal :=
  inContract s (.next (emit (.reply (cfgRead (lowByte idx) s ++ cfgRead (highByte idx) s)) s))

/-! ### INGEST and TXDONE -/

/-- INGEST (R250) on the block in State.operand: Ignored while disengaged (R298); a block of another length is refused
(R95, R299). The two faults stand for states that R21, R22 and R37 exclude (log 16, log 17). -/
def execIngest (_idx _val : Half) (s : State) : Host.Outcome State Fault Refusal :=
  inContract s
    (if s.engaged = false then raiseOutcome .ignored s
     else if s.operand.length ≠ s.spp.toNat then .refused .blockLength
     else if indicesOk s = false then .fault .ringIndex
     else if latchesOk s = false then .fault .latches
     else .next (ingestBlock s.operand s))

/-- TXDONE (R259): Ignored with nothing outstanding (R261), stale (R260) or counted. -/
def execTxdone (_idx _val : Half) (s : State) : Host.Outcome State Fault Refusal :=
  inContract s
    (if s.txBusy = false then raiseOutcome .ignored s
     else if indicesOk s = false then .fault .ringIndex
     else if s.txStale then .next (completeStale s)
     else .next (completeCounted s))

/-! ### The unassigned `op` values -/

/-- `Unsupported` (R297): "No state changes, MODE does not run, nothing is emitted." -/
def rejectRequest (s : State) : Host.Outcome State Fault Refusal := inContract s (raiseOutcome .unsupported s)

/-- `op` 0x05 (R105, R297). -/
def execUnsupported05 (_idx _val : Half) (s : State) : Host.Outcome State Fault Refusal := rejectRequest s
/-- `op` 0x06..0x07 (R105, R297). -/
def execUnsupported06 (_op : Byte) (_idx _val : Half) (s : State) : Host.Outcome State Fault Refusal := rejectRequest s
/-- `op` 0x08..0x0F (R105, R297). -/
def execUnsupported08 (_op : Byte) (_idx _val : Half) (s : State) : Host.Outcome State Fault Refusal := rejectRequest s
/-- `op` 0x10..0x1F (R105, R297). -/
def execUnsupported10 (_op : Byte) (_idx _val : Half) (s : State) : Host.Outcome State Fault Refusal := rejectRequest s
/-- `op` 0x20..0x3F (R105, R297). -/
def execUnsupported20 (_op : Byte) (_idx _val : Half) (s : State) : Host.Outcome State Fault Refusal := rejectRequest s
/-- `op` 0x40..0x7F (R105, R297). -/
def execUnsupported40 (_op : Byte) (_idx _val : Half) (s : State) : Host.Outcome State Fault Refusal := rejectRequest s
/-- `op` 0x80..0xFF (R105, R297). -/
def execUnsupported80 (_op : Byte) (_idx _val : Half) (s : State) : Host.Outcome State Fault Refusal := rejectRequest s

end Sys2Proof.Machine
end

