-- ==== Sys2Proof/Machine/Arbiter.lean ====
section
/-! DEFINITION. Which event the core takes next (R293, R294), and how an event word is placed as the next one. -/

namespace Sys2Proof.Machine

/-- The priority order of R294: RESET, then INGEST, then TXDONE, then control. Unsupported requests and the writes of a
code are control requests (R292 (c), R110). -/
def priority (r : Request) : Nat :=
  match decode r.word with
  | .ok (.reset _ _) => 0
  | .ok (.ingest _ _) => 1
  | .ok (.txdone _ _) => 2
  | _ => 3

/-- The oldest pending event of one priority, and the others. -/
def takeClass (p : Nat) : List Request → Option (Request × List Request)
  | [] => none
  | r :: rs =>
    if priority r = p then some (r, rs)
    else
      match takeClass p rs with
      | some (x, rest) => some (x, r :: rest)
      | none => none

/-- The event the core takes (R294); within one class the oldest (DESIGN CHOICE, log 7). -/
def takeNext (l : List Request) : Option (Request × List Request) :=
  (takeClass 0 l).or ((takeClass 1 l).or ((takeClass 2 l).or (takeClass 3 l)))

/-- Before each step the sources raise what `arrivals` lists for it; "An event is pending from the moment its source
raises it until the core processes it" (R293). -/
def arrive (s : State) : State :=
  match s.arrivals with
  | [] => s
  | batch :: later => { s with pending := s.pending ++ batch, arrivals := later }

/-- Takes an event out of the pending ones, "processing it clears it" (R293), with its data operand. -/
def accept (r : Request) (rest : List Request) (s : State) : State :=
  { s with pending := rest, operand := r.operand }

/-- With nothing pending the core does nothing: "nothing in the core ever busy-waits" (R74), nothing waits or wakes
(R303). -/
def idleStep (s : State) : Host.Outcome State Fault Refusal := inContract s (.next s)

/-- The data operand of a word placed with zeros above its bits: for INGEST a block of `spp` zero words, for every other
word none (log 11). -/
def zeroOperand (e : Encoded) (s : State) : List Half :=
  match decode e with
  | .ok (.ingest _ _) => List.replicate s.spp.toNat 0#16
  | _ => []

/-- Makes one event the only pending one of the very next step. -/
def placeNext (e : Encoded) (s : State) : State :=
  { s with pending := [{ word := e, operand := zeroOperand e s }], arrivals := [] :: s.arrivals }

end Sys2Proof.Machine
end

