-- ==== Sys2Proof/Machine/Dispatch.lean ====
section
/-! DEFINITION. One arm per constructor of Instr, each one call of its meaning. -/

namespace Sys2Proof.Machine

/-- What an operation does to the core. -/
def exec (i : Instr) (s : State) : Host.Outcome State Fault Refusal :=
  match i with
  | .reset idx val => Sys2Proof.Machine.execReset idx val s
  | .regwr idx val => Sys2Proof.Machine.execRegwr idx val s
  | .regrd idx val => Sys2Proof.Machine.execRegrd idx val s
  | .ingest idx val => Sys2Proof.Machine.execIngest idx val s
  | .txdone idx val => Sys2Proof.Machine.execTxdone idx val s
  | .unsupported05 idx val => Sys2Proof.Machine.execUnsupported05 idx val s
  | .unsupported06 op idx val => Sys2Proof.Machine.execUnsupported06 op idx val s
  | .unsupported08 op idx val => Sys2Proof.Machine.execUnsupported08 op idx val s
  | .unsupported10 op idx val => Sys2Proof.Machine.execUnsupported10 op idx val s
  | .unsupported20 op idx val => Sys2Proof.Machine.execUnsupported20 op idx val s
  | .unsupported40 op idx val => Sys2Proof.Machine.execUnsupported40 op idx val s
  | .unsupported80 op idx val => Sys2Proof.Machine.execUnsupported80 op idx val s
  | .cmdStop => Sys2Proof.Machine.execCmdStop s
  | .cmdOnce => Sys2Proof.Machine.execCmdOnce s
  | .cmdCont => Sys2Proof.Machine.execCmdCont s
  | .pack2 => Sys2Proof.Machine.execPack2 s
  | .pack4 => Sys2Proof.Machine.execPack4 s
  | .pack8 => Sys2Proof.Machine.execPack8 s
  | .pack12 => Sys2Proof.Machine.execPack12 s
  | .freqOff => Sys2Proof.Machine.execFreqOff s
  | .freqMax => Sys2Proof.Machine.execFreqMax s
  | .freq2 => Sys2Proof.Machine.execFreq2 s
  | .freq3 => Sys2Proof.Machine.execFreq3 s
  | .freq4 => Sys2Proof.Machine.execFreq4 s
  | .freq5 => Sys2Proof.Machine.execFreq5 s
  | .freq6 => Sys2Proof.Machine.execFreq6 s
  | .freq7 => Sys2Proof.Machine.execFreq7 s
  | .freq8 => Sys2Proof.Machine.execFreq8 s
  | .freq9 => Sys2Proof.Machine.execFreq9 s
  | .freq10 => Sys2Proof.Machine.execFreq10 s
  | .freq11 => Sys2Proof.Machine.execFreq11 s
  | .freq12 => Sys2Proof.Machine.execFreq12 s
  | .freq13 => Sys2Proof.Machine.execFreq13 s
  | .freq14 => Sys2Proof.Machine.execFreq14 s
  | .freq15 => Sys2Proof.Machine.execFreq15 s
  | .trgNone => Sys2Proof.Machine.execTrgNone s
  | .trgRise => Sys2Proof.Machine.execTrgRise s
  | .trgFall => Sys2Proof.Machine.execTrgFall s
  | .trgThresh => Sys2Proof.Machine.execTrgThresh s
  | .trgStrobeLo => Sys2Proof.Machine.execTrgStrobeLo s
  | .trgStrobeHi => Sys2Proof.Machine.execTrgStrobeHi s

end Sys2Proof.Machine
end

