-- ==== Sys2Proof/Machine/Step.lean ====
section
/-! DEFINITION. One step: the sources raise their events, the core takes one and runs it to completion (R71, R294). -/

namespace Sys2Proof.Machine

/-- Runs one event: the operation its word decodes to, or the write of a reserved code (R106). -/
def runRequest (r : Request) (s : State) : Host.Outcome State Fault Refusal :=
  match decode r.word with
  | .ok i => exec i s
  | .error _ => selectReserved r.word s

/-- "pick the next event (...), apply its rule to the whole state" (R71). -/
def step (s : State) : Host.Outcome State Fault Refusal :=
  let t := arrive s
  match takeNext t.pending with
  | none => idleStep t
  | some (r, rest) => runRequest r (accept r rest t)

/-- `s` with one encoded operation placed as the next event the core takes (log 10, log 11). -/
def State.withFetchWord (s : State) (nbits w : Nat) : State :=
  match tableEncoded nbits w with
  | some e => placeNext e s
  | none => s

end Sys2Proof.Machine
end

