-- ==== Sys2Proof/Machine/HostSide.lean ====
section
/-! DEFINITION. What the host does, "given so that a model can state what the host concludes" (R108): reading a header,
counting loss, and the pseudo-operations of a trace (R110). No step of the core calls it. -/

namespace Sys2Proof.Machine

/-- "channel list = set bits of the mask, LSB first" (R108). -/
def hostChannels (mask : BitVec 16) : List Nat := (List.range 16).filter (fun i => mask.getLsbD i)

/-- "depth = low nibble of mode byte" (R108). -/
def hostDepth (mode : Byte) : BitVec 4 := mode.extractLsb' 0 4

/-- "frequency code = high nibble" (R108). -/
def hostFreq (mode : Byte) : BitVec 4 := mode.extractLsb' 4 4

/-- The sequence number of a packet, bits 6..0 of its first byte (R97). -/
def seqOf (seqflag : Byte) : BitVec 7 := seqflag.extractLsb' 0 7

/-- The restart flag of a packet, bit 7 of its first byte (R97). -/
def restartOf (seqflag : Byte) : Bool := seqflag.getLsbD 7

/-- `((received_sequence - expected_next_sequence + 128) mod 128)` (R108). -/
def sequenceGap (last received : BitVec 7) : Nat :=
  (received.toNat + 128 - (last.toNat + 1) % 128) % 128

/-- The loss the host counts at a packet, none where the restart flag "resets loss tracking" (R108). -/
def hostLoss (last : BitVec 7) (seqflag : Byte) : Option Nat :=
  if restartOf seqflag then none else some (sequenceGap last (seqOf seqflag))

/-! ### Pseudo-operations (R110) -/

/-- `WR1 i, v`: one byte. -/
def wr1 (i v : Byte) : Instr := .regwr (0xFF#8 ++ i) (0#8 ++ v)

/-- `WR2 i, v`: a little-endian 2-byte field at i. -/
def wr2 (i : Byte) (v : Half) : Instr := .regwr ((i + 1) ++ i) v

/-- `WR4 i, v`: two of them. -/
def wr4 (i : Byte) (v : BitVec 32) : List Instr := [wr2 i (v.extractLsb' 0 16), wr2 (i + 2) (v.extractLsb' 16 16)]

/-- `RD1 i`. -/
def rd1 (i : Byte) : Instr := .regrd (0xFF#8 ++ i) 0

/-- `RD2 i`. -/
def rd2 (i : Byte) : Instr := .regrd ((i + 1) ++ i) 0

end Sys2Proof.Machine
end

