-- ==== Sys2Proof/Safety.lean ====
section
/-! DEFINITION. The terms of the claims: the invariant of R59, the latches of R75, the named trigger states of R30, and
the closed form of what a write leaves (R134 to R147). -/

namespace Sys2Proof.Machine

/-! ### The named trigger states (R30) -/

/-- Disarmed = (0, 0, 0). -/
abbrev Disarmed (s : State) : Prop := s.armed = false ∧ s.fired = false ∧ s.openBit = false

/-- Armed-waiting = (1, 0, 0). -/
abbrev ArmedWaiting (s : State) : Prop := s.armed = true ∧ s.fired = false ∧ s.openBit = false

/-- Delay = (0, 1, 0). -/
abbrev Delay (s : State) : Prop := s.armed = false ∧ s.fired = true ∧ s.openBit = false

/-- Open = (0, 1, 1). -/
abbrev Open (s : State) : Prop := s.armed = false ∧ s.fired = true ∧ s.openBit = true

/-- One of the four. -/
abbrev NamedState (s : State) : Prop := Disarmed s ∨ ArmedWaiting s ∨ Delay s ∨ Open s

/-! ### Invariants -/

/-- R59 (a): both ring indices lie in 0..N-1. -/
abbrev IndicesInRing (s : State) : Prop :=
  s.produceAt < s.params.ringSlots ∧ s.sendFrom < s.params.ringSlots

/-- R59 (b). -/
abbrev TriggerFlagsLegal (s : State) : Prop :=
  ¬(s.armed = true ∧ s.fired = true) ∧ (s.openBit = true → s.fired = true)

/-- R59 (c): the slot in flight is never the slot the producer writes. -/
abbrev InFlightProtected (s : State) : Prop :=
  s.txBusy = true → s.txStale = false → winOpen s = true ∧ s.sendFrom ≠ s.produceAt

/-- R59 (d): nothing unsent waits while the transport is free. -/
abbrev NothingWaits (s : State) : Prop := winOpen s = true → s.txBusy = false → s.sendFrom = s.produceAt

/-- R59 (e). -/
abbrev StaleIsBusy (s : State) : Prop := s.txStale = true → s.txBusy = true

/-- R59 (f). -/
abbrev ArmedHasNoCountedFlight (s : State) : Prop := s.armed = true → s.txBusy = false ∨ s.txStale = true

/-- R59, for a ring the spec allows (R11). -/
structure RingInvariant (s : State) : Prop where
  ringSize : 2 ≤ s.params.ringSlots
  indices : IndicesInRing s
  flags : TriggerFlagsLegal s
  inFlight : InFlightProtected s
  nothingWaits : NothingWaits s
  staleBusy : StaleIsBusy s
  armedFree : ArmedHasNoCountedFlight s

/-- The latches agree with the configuration bytes and the engaged bit with the disengage test: "There is no stale copy
of a configuration byte anywhere" (R75), and what R37 and R140 say the latches hold. The trigger runs only while
engaged. -/
structure LatchInvariant (s : State) : Prop where
  maskStored : cfgUsedChannels s = (usedMask s).setWidth 16
  engagedIff : s.engaged = !disengages (channelList (usedMask s)) s
  latches : s.engaged = true →
    s.d = (cfgDepth s).extractLsb' 0 4 ∧ s.spp.toNat = Config.bodyBits / (cfgDepth s).toNat ∧
      s.chans.toNat = (channelList (usedMask s)).length ∧
      s.swap = ((channelList (usedMask s)).length == 1 && cfgFreq s == 1#8) ∧
      s.hdrMask = cfgUsedChannels s ∧
      s.hdrMode = (cfgFreq s).extractLsb' 0 4 ++ (cfgDepth s).extractLsb' 0 4
  triggerEngaged : s.armed = true ∨ s.fired = true → s.engaged = true

/-- What every event keeps: R59, R75 and the canonical form of the slot memory. -/
structure CoreInvariant (s : State) : Prop where
  ring : RingInvariant s
  latch : LatchInvariant s
  memory : Memory.wf s.slots

/-! ### What a write leaves, in closed form -/

/-- The configuration bytes with the derived mask in bytes 25 and 26, little-endian (R138, R62). -/
def withMask (b : Vector Byte 27) (m : BitVec 10) : Vector Byte 27 :=
  (b.set 25 ((m.setWidth 16).extractLsb' 0 8)).set 26 ((m.setWidth 16).extractLsb' 8 8)

/-- The state after MODE's disengage path on the configuration bytes `b`, before the acknowledgement: R138, R143, R139
and R147, everything else as before. -/
def afterDisengage (s : State) (b : Vector Byte 27) : State :=
  let c := { s with cfg := b }
  { s with
    cfg := withMask b (usedMask c)
    txStale := s.txStale || s.txBusy
    engaged := false
    armed := false, fired := false, openBit := false, strobe := .idle, held := 0
    prevValid := false, prevAbove := false, restartPending := false
    out := s.out ++ [.idle true, .acqOff (channelList (usedMask c))] }

/-- The state after MODE's full path on the configuration bytes `b`, before the acknowledgement: R138, R143, R140 to
R142, R145 with `fresh = 1`, and R146, everything else as before. -/
def afterFullMode (s : State) (b : Vector Byte 27) : State :=
  let c := { s with cfg := b }
  let list := channelList (usedMask c)
  let fast := list.length == 1 && cfgFreq c == 1#8
  { s with
    cfg := withMask b (usedMask c)
    txStale := s.txStale || s.txBusy
    engaged := true
    d := (cfgDepth c).extractLsb' 0 4
    spp := BitVec.ofNat 8 (480 / (cfgDepth c).toNat)
    chans := BitVec.ofNat 4 list.length
    swap := fast
    hdrMask := (usedMask c).setWidth 16
    hdrMode := (cfgFreq c).extractLsb' 0 4 ++ (cfgDepth c).extractLsb' 0 4
    seq := 0, produceAt := 0, sendFrom := 0, totalIn := 0, totalOut := 0, rxAnchor := 0, txAnchor := 0
    armed := true, fired := false, openBit := false, strobe := .idle, held := 0
    prevValid := false, prevAbove := false, restartPending := false
    out := s.out ++ [.idle false,
      .acqOn list ((cfgDepth c).extractLsb' 0 4) fast (sampleInterval (cfgFreq c) list.length fast)] }

/-- The test of R139 on configuration bytes. -/
def bytesDisengage (s : State) (b : Vector Byte 27) : Bool :=
  disengages (channelList (usedMask { s with cfg := b })) { s with cfg := b }

/-- One of the two paths (R134). -/
def afterMode (s : State) (b : Vector Byte 27) : State :=
  if bytesDisengage s b then afterDisengage s b else afterFullMode s b

/-- The register and the value of each code row (R101 to R104), none for an event. -/
def codeOf : Instr → Option (Fin 27 × Byte)
  | .cmdStop => some (0, 0)
  | .cmdOnce => some (0, 1)
  | .cmdCont => some (0, 2)
  | .pack2 => some (3, 2)
  | .pack4 => some (3, 4)
  | .pack8 => some (3, 8)
  | .pack12 => some (3, 12)
  | .freqOff => some (4, 0)
  | .freqMax => some (4, 1)
  | .freq2 => some (4, 2)
  | .freq3 => some (4, 3)
  | .freq4 => some (4, 4)
  | .freq5 => some (4, 5)
  | .freq6 => some (4, 6)
  | .freq7 => some (4, 7)
  | .freq8 => some (4, 8)
  | .freq9 => some (4, 9)
  | .freq10 => some (4, 10)
  | .freq11 => some (4, 11)
  | .freq12 => some (4, 12)
  | .freq13 => some (4, 13)
  | .freq14 => some (4, 14)
  | .freq15 => some (4, 15)
  | .trgNone => some (9, 0)
  | .trgRise => some (9, 1)
  | .trgFall => some (9, 2)
  | .trgThresh => some (9, 3)
  | .trgStrobeLo => some (9, 4)
  | .trgStrobeHi => some (9, 5)
  | .reset _ _ | .regwr _ _ | .regrd _ _ | .ingest _ _ | .txdone _ _ | .unsupported05 _ _ => none
  | .unsupported06 _ _ _ | .unsupported08 _ _ _ | .unsupported10 _ _ _ => none
  | .unsupported20 _ _ _ | .unsupported40 _ _ _ | .unsupported80 _ _ _ => none

/-- What one half of a REGWR leaves: MODE on the changed bytes for an index 0..26, nothing for another (R130, R132,
R133). -/
def afterWrite (i v : Byte) (s : State) : State :=
  if h : i.toNat < 27 then afterMode s (s.cfg.set i.toNat v) else s

/-! ### When a block is taken -/

/-- The core takes a block: N allowed (R11), engaged (R35), a block of `spp` words (R95), the indices and the latches in
their ranges (R21, R22, R37). -/
structure CanIngest (s : State) : Prop where
  ringSize : 2 ≤ s.params.ringSlots
  engaged : s.engaged = true
  length : s.operand.length = s.spp.toNat
  indices : IndicesInRing s
  latches : latchesOk s = true

/-- The block being taken, in time order: its pairs swapped "iff `swap = 1`", and "With `swap = 0`, `B = w`" (R221). -/
def blockInTime (s : State) : List Half := if s.swap then swapPairs s.operand else s.operand

/-- The comparator results of the samples examined in the block being taken, in order (R171, R172). -/
def comparisons (s : State) : List Bool := (examinedWords s (blockInTime s)).map (above s)

/-- The same with "the immediately preceding sample" in front, where there is one (R34, R180). -/
def comparisonsWithPrev (s : State) : List Bool :=
  (if s.prevValid then [s.prevAbove] else []) ++ comparisons s

/-- Somewhere `a` is directly followed by `b`. -/
def EdgeAt (l : List Bool) (a b : Bool) : Prop := ∃ j : Nat, l[j]? = some a ∧ l[j + 1]? = some b

/-- Somewhere a sample outside the region is followed by a crossing sample and `k` more inside it, `k` in the interval
`[tMin, tMax]`, unbounded for `tMax = 0` (R179). `l` says for each sample whether it is inside. -/
def StrobeHit (l : List Bool) (tMin tMax : Nat) : Prop :=
  ∃ c k : Nat, l[c]? = some false ∧ (∀ i, i ≤ k → l[c + 1 + i]? = some true) ∧ tMin ≤ k ∧ (tMax = 0 ∨ k ≤ tMax)

/-! ### The trigger condition, sample by sample and across blocks -/

/-- The comparator result of the sample that directly precedes the `n`-th examined sample: the one before it in the
block, or "the previous examined sample of the same channel, also across block boundaries" for the first (R180). -/
def resultBefore (s : State) : Nat → Option Bool
  | 0 => if s.prevValid then some s.prevAbove else none
  | n + 1 => (comparisons s)[n]?

/-- Whether a comparator result lies in the strobe region: "not above" in mode 4 (R177), "above" in mode 5 (R178). -/
def inRegion (s : State) (result : Bool) : Bool := if cfgTrigMode s = 4#8 then !result else result

/-- The `n`-th examined sample lies in the strobe region. -/
def InsideAt (s : State) (n : Nat) : Prop := (comparisons s)[n]?.map (inRegion s) = some true

/-- The `n`-th examined sample lies outside it. -/
def OutsideAt (s : State) (n : Nat) : Prop := (comparisons s)[n]?.map (inRegion s) = some false

/-- At the `n`-th examined sample the strobe is in HOLD with `held = h` (R33, R179). Either the signal crossed in at the
sample `x`, from a sample outside the region (at the first sample of a block only where no region is being held), and has
stayed inside for the `n - x` samples after the crossing one; or the block was entered in HOLD and every sample so far
lies inside: one more each, "saturating at 2^32 - 1". -/
def HeldAt (s : State) (n h : Nat) : Prop :=
  (∃ x, x ≤ n ∧ (resultBefore s x).map (inRegion s) = some false ∧ (∀ i, x ≤ i → i ≤ n → InsideAt s i) ∧
    (x = 0 → s.strobe = .idle) ∧ h = n - x) ∨
  (s.strobe = .hold ∧ (∀ i, i ≤ n → InsideAt s i) ∧ h = min (s.held.toNat + n + 1) (2 ^ 32 - 1))

/-- `[trig_t_min, trig_t_max]`, where `trig_t_max == 0` "means unbounded" (R53, R179). -/
def InInterval (s : State) (h : Nat) : Prop :=
  (cfgTrigTMin s).toNat ≤ h ∧ ((cfgTrigTMax s).toNat = 0 ∨ h ≤ (cfgTrigTMax s).toNat)

/-- The condition of the modes 1 to 5 is met at the `n`-th examined sample (R174 to R179). -/
def HitAt (s : State) (n : Nat) : Prop :=
  (cfgTrigMode s = 1#8 ∧ resultBefore s n = some false ∧ (comparisons s)[n]? = some true) ∨
  (cfgTrigMode s = 2#8 ∧ resultBefore s n = some true ∧ (comparisons s)[n]? = some false) ∨
  (cfgTrigMode s = 3#8 ∧ ∃ b, resultBefore s n = some b ∧ (comparisons s)[n]? = some (!b)) ∨
  ((cfgTrigMode s = 4#8 ∨ cfgTrigMode s = 5#8) ∧ ∃ h, HeldAt s n h ∧ InInterval s h)

/-- The `n`-th examined sample is the last one examined: evaluation "stops at the first hit" (R182), and otherwise runs
through the block. -/
def LastExamined (s : State) (n : Nat) : Prop :=
  n < (comparisons s).length ∧ (∀ m, m < n → ¬HitAt s m) ∧ (HitAt s n ∨ n + 1 = (comparisons s).length)

/-! ### Channels added by MODE -/

/-- `m'` is `m` with its highest unselected channel added (R135, R136). -/
def AddsHighest (m m' : BitVec 10) : Prop :=
  ∃ i : Nat, i < 10 ∧ m.getLsbD i = false ∧ (∀ j, i < j → j < 10 → m.getLsbD j = true) ∧
    ∀ j, m'.getLsbD j = (m.getLsbD j || decide (j = i))

/-! ### The transition table (R191) -/

/-- Nothing moves. -/
abbrev SameTrigger (s t : State) : Prop := t.armed = s.armed ∧ t.fired = s.fired ∧ t.openBit = s.openBit

/-- The two rows of R191 that a run of MODE makes. -/
abbrev ModeMove (t : State) : Prop :=
  (t.engaged = false ∧ Disarmed t) ∨ (t.engaged = true ∧ ArmedWaiting t)

/-- The rows of R191, by the event. -/
def LegalMove (i : Instr) (s t : State) : Prop :=
  match i with
  | .reset _ _ => ModeMove t
  | .regwr idx _ =>
    if (lowByte idx).toNat < 27 ∨ (highByte idx).toNat < 27 then ModeMove t else SameTrigger s t
  | .regrd _ _ => SameTrigger s t
  | .ingest _ _ =>
    (Disarmed s ∧ Disarmed t) ∨ (ArmedWaiting s ∧ ArmedWaiting t) ∨
      (ArmedWaiting s ∧ Open t ∧ cfgTrigOffset s ≤ 0) ∨ (ArmedWaiting s ∧ Delay t ∧ 0 < cfgTrigOffset s) ∨
      (Delay s ∧ Open t ∧ cfgTrigOffset s ≤ ((s.totalIn - s.rxAnchor).toNat : Int)) ∨
      (Delay s ∧ Delay t ∧ ((s.totalIn - s.rxAnchor).toNat : Int) < cfgTrigOffset s) ∨ (Open s ∧ Open t)
  | .txdone _ _ =>
    SameTrigger s t ∨
      (Open s ∧ burstLength s ≤ (t.totalOut - s.txAnchor).toNat ∧
        ((cfgCmd s = 1#8 ∧ Disarmed t) ∨ (cfgCmd s = 2#8 ∧ ArmedWaiting t)))
  | .unsupported05 _ _ | .unsupported06 _ _ _ | .unsupported08 _ _ _ | .unsupported10 _ _ _ => SameTrigger s t
  | .unsupported20 _ _ _ | .unsupported40 _ _ _ | .unsupported80 _ _ _ => SameTrigger s t
  | .cmdStop | .cmdOnce | .cmdCont | .pack2 | .pack4 | .pack8 | .pack12 => ModeMove t
  | .freqOff | .freqMax | .freq2 | .freq3 | .freq4 | .freq5 | .freq6 | .freq7 | .freq8 | .freq9 => ModeMove t
  | .freq10 | .freq11 | .freq12 | .freq13 | .freq14 | .freq15 => ModeMove t
  | .trgNone | .trgRise | .trgFall | .trgThresh | .trgStrobeLo | .trgStrobeHi => ModeMove t

end Sys2Proof.Machine
end

