-- ==== Sys2Proof/Certificates/Slice0/Obligations.lean ====
section
/-! DEFINITION. The statements for the provers. A statement about an event says what exec answers and, field by field or
as one equation, what the next state holds and leaves alone; reads of the slot memory go through slotByte, the model's
read of one byte. -/

open Sys2Proof Sys2Proof.Machine

/-! ### Encoding and the step -/

/-- Decoding gives exactly the well-formed operation that encodes to the word: no bit is dropped and no word is read two
ways (R90, R91, R101 to R105). -/
def Obligations.DecodeIffEncode : Prop :=
  ∀ (e : Encoded) (i : Instr), decode e = .ok i ↔ i.wellFormed = true ∧ encode i = e

/-- Words the spec writes out: the encodings of programs P1 and of V1, and codes of R101 to R104. That an event word as
bytes has `op` first is the model's choice (log 13): the spec packs it as one 40-bit number and gives no byte order. -/
def Obligations.SpecWordsDecode : Prop :=
  decodeBytes .evt [0x00, 0x00, 0x00, 0x00, 0x00] = .ok (.reset 0 0) ∧
    decodeBytes .evt [0x01, 0x02, 0x01, 0x00, 0x01] = .ok (.regwr 0x0201 0x0001) ∧
    decodeBytes .evt [0x02, 0x1A, 0x19, 0x00, 0x00] = .ok (.regrd 0x1A19 0) ∧
    decodeBytes .evt [0x03, 0x00, 0x00, 0x00, 0x00] = .ok (.ingest 0 0) ∧
    decodeBytes .evt [0x04, 0x00, 0x00, 0x00, 0x00] = .ok (.txdone 0 0) ∧
    decodeBytes .evt [0x7F, 0x12, 0x34, 0x56, 0x78] = .ok (.unsupported40 0x7F 0x1234 0x5678) ∧
    decodeBytes .cmd [0x01] = .ok .cmdOnce ∧ decodeBytes .depth [0x0C] = .ok .pack12 ∧
    decodeBytes .freq [0x01] = .ok .freqMax ∧ decodeBytes .tmode [0x05] = .ok .trgStrobeHi

/-- Every `op` from 0x05 up decodes to an operation whose outcome is Unsupported and changes no state (R105, R297). -/
def Obligations.UnassignedOpsUnsupported : Prop :=
  ∀ (op : Byte) (idx val : Half) (s : State), 5 ≤ op.toNat → 2 ≤ s.params.ringSlots →
    ∃ i, decode (.evt (evtWord op idx val)) = .ok i ∧ exec i s = .next { s with out := s.out ++ [.unsupported] }

/-- The seven rows of unassigned `op` values, with any fields (R297). -/
def Obligations.UnsupportedOutcome : Prop :=
  ∀ (op : Byte) (idx val : Half) (s : State), 2 ≤ s.params.ringSlots →
    ∀ i ∈ [Instr.unsupported05 idx val, .unsupported06 op idx val, .unsupported08 op idx val,
        .unsupported10 op idx val, .unsupported20 op idx val, .unsupported40 op idx val, .unsupported80 op idx val],
      exec i s = .next { s with out := s.out ++ [.unsupported] }

/-- A step runs the operation that the taken event's word decodes to, on the state with that event taken out of the
pending ones and its operand in place; with nothing pending nothing happens; and a table word placed by withFetchWord is
what the next step runs (R71). -/
def Obligations.StepRunsDecodedEvent : Prop :=
  (∀ (s : State) (r : Request) (rest : List Request) (i : Instr),
    takeNext (arrive s).pending = some (r, rest) → decode r.word = .ok i →
      step s = exec i { arrive s with pending := rest, operand := r.operand }) ∧
  (∀ s : State, (arrive s).pending = [] → 2 ≤ s.params.ringSlots → step s = .next (arrive s)) ∧
  (∀ (s : State) (nbits w : Nat) (i : Instr), decodeTableWord nbits w = some i →
    ∃ block, step (s.withFetchWord nbits w) = exec i { s with pending := [], operand := block })

/-- The core takes RESET before INGEST before TXDONE before control, and takes exactly one event (R294). -/
def Obligations.PriorityOrder : Prop :=
  (∀ (l : List Request) (r : Request) (rest : List Request), takeNext l = some (r, rest) →
    l.Perm (r :: rest) ∧ ∀ x ∈ rest, priority r ≤ priority x) ∧
  (∀ l : List Request, takeNext l = none → l = []) ∧
  (∀ (r : Request) (i : Instr), decode r.word = .ok i →
    priority r = match i with
      | .reset _ _ => 0
      | .ingest _ _ => 1
      | .txdone _ _ => 2
      | _ => 3)

/-- "Ignored fields may hold anything and do not change the operation" (R90). -/
def Obligations.IgnoredFieldsDoNothing : Prop :=
  ∀ (a b c e : Half) (s : State), exec (.reset a b) s = exec (.reset c e) s ∧
    exec (.regrd a b) s = exec (.regrd a e) s ∧ exec (.ingest a b) s = exec (.ingest c e) s ∧
    exec (.txdone a b) s = exec (.txdone c e) s

/-- The two refused inputs of R299: N below 2, and a block of the wrong length while engaged. -/
def Obligations.RefusedInputs : Prop :=
  (∀ (i : Instr) (s : State), s.params.ringSlots < 2 → exec i s = .refused .ringTooSmall) ∧
  (∀ (idx val : Half) (s : State), 2 ≤ s.params.ringSlots → s.engaged = true → s.operand.length ≠ s.spp.toNat →
    exec (.ingest idx val) s = .refused .blockLength)

/-- The model's own stops in states the spec's ranges exclude (log 16, log 17): an index outside the ring (R21, R22), and
latches no full MODE leaves (R37, R140). -/
def Obligations.FaultsOutsideRanges : Prop :=
  ∀ (idx val : Half) (s : State), 2 ≤ s.params.ringSlots →
    (s.engaged = true → s.operand.length = s.spp.toNat → ¬IndicesInRing s →
      exec (.ingest idx val) s = .fault .ringIndex) ∧
    (s.engaged = true → s.operand.length = s.spp.toNat → IndicesInRing s → latchesOk s = false →
      exec (.ingest idx val) s = .fault .latches) ∧
    (s.txBusy = true → ¬IndicesInRing s → exec (.txdone idx val) s = .fault .ringIndex)

/-! ### The Register Store -/

/-- REGWR: the low pair, then the high pair, MODE after each write that succeeds, then the acknowledgement (R130, R132,
R133). -/
def Obligations.RegwrLowThenHigh : Prop :=
  ∀ (idx val : Half) (s : State), 2 ≤ s.params.ringSlots →
    exec (.regwr idx val) s =
      .next (emit .ack (afterWrite (highByte idx) (highByte val) (afterWrite (lowByte idx) (lowByte val) s)))

/-- REGWR with both indices out of range changes nothing and is still acknowledged (R65, R130). -/
def Obligations.RegwrBothOutOfRange : Prop :=
  ∀ (idx val : Half) (s : State), 2 ≤ s.params.ringSlots → 27 ≤ idx.toNat % 256 → 27 ≤ idx.toNat / 256 →
    exec (.regwr idx val) s = .next { s with out := s.out ++ [.ack] }

/-- A REGWR with two valid indices whose final bytes engage leaves, but for the outputs, what one MODE on the final bytes
leaves; one whose final bytes disengage leaves the same configuration, trigger and transport state (R130 (c), R148). -/
def Obligations.RegwrTwoBytesOneMode : Prop :=
  ∀ (idx val : Half) (s : State) (hl : (lowByte idx).toNat < 27) (hh : (highByte idx).toNat < 27),
    2 ≤ s.params.ringSlots →
    let b := (s.cfg.set (lowByte idx).toNat (lowByte val)).set (highByte idx).toNat (highByte val)
    ∃ t, exec (.regwr idx val) s = .next t ∧
      (bytesDisengage s b = false → { t with out := s.out } = { afterFullMode s b with out := s.out }) ∧
      (bytesDisengage s b = true → t.cfg = (afterDisengage s b).cfg ∧ t.engaged = false ∧ Disarmed t ∧
        t.strobe = .idle ∧ t.held = 0 ∧ t.prevValid = false ∧ t.prevAbove = false ∧ t.restartPending = false ∧
        t.txBusy = s.txBusy ∧ t.txStale = (s.txStale || s.txBusy) ∧ t.slots = s.slots)

/-- REGRD: each index 0..26 contributes its byte, low index first, every other index contributes none, and nothing but
the reply happens (R131, R94, R67). -/
def Obligations.RegrdReply : Prop :=
  ∀ (idx val : Half) (s : State), 2 ≤ s.params.ringSlots →
    exec (.regrd idx val) s = .next { s with out := s.out ++ [.reply
      ((s.cfg.toList[idx.toNat % 256]?).toList ++ (s.cfg.toList[idx.toNat / 256]?).toList)] }

/-- Every named field stands at its bytes (R40): the one-byte fields, the multi-byte ones little-endian, and
`cfg.trig_offset` the signed number of its four bytes (R62). -/
def Obligations.LittleEndianFields : Prop :=
  ∀ s : State,
    let u (i : Nat) (h : i < 27) : Nat := (s.cfg[i]).toNat
    (cfgCmd s).toNat = u 0 (by decide) ∧ (cfgDepth s).toNat = u 3 (by decide) ∧ (cfgFreq s).toNat = u 4 (by decide) ∧
      (cfgGain s).toNat = u 7 (by decide) ∧ (cfgSamples s).toNat = u 8 (by decide) ∧
      (cfgTrigMode s).toNat = u 9 (by decide) ∧ (cfgTrigChannel s).toNat = u 10 (by decide) ∧
      (cfgChannels s).toNat = u 1 (by decide) + 256 * u 2 (by decide) ∧
      (cfgOffset s).toNat = u 5 (by decide) + 256 * u 6 (by decide) ∧
      (cfgTrigLevel s).toNat = u 11 (by decide) + 256 * u 12 (by decide) ∧
      (cfgUsedChannels s).toNat = u 25 (by decide) + 256 * u 26 (by decide) ∧
      (cfgTrigTMin s).toNat =
        u 17 (by decide) + 256 * u 18 (by decide) + 65536 * u 19 (by decide) + 16777216 * u 20 (by decide) ∧
      (cfgTrigTMax s).toNat =
        u 21 (by decide) + 256 * u 22 (by decide) + 65536 * u 23 (by decide) + 16777216 * u 24 (by decide) ∧
      (let n := u 13 (by decide) + 256 * u 14 (by decide) + 65536 * u 15 (by decide) + 16777216 * u 16 (by decide)
       cfgTrigOffset s = if n < 2147483648 then (n : Int) else (n : Int) - 4294967296)

/-! ### MODE -/

/-- Every code row is the one-byte write of its code, as a REGWR would do it, with MODE and the acknowledgement (R110,
R130, R133). That a code row is an operation of its own is the model's choice (log 8). -/
def Obligations.CodeRowsWriteTheirRegister : Prop :=
  ∀ (i : Instr) (r : Fin 27) (c : Byte) (s : State), codeOf i = some (r, c) → 2 ≤ s.params.ringSlots →
    exec i s = .next (emit .ack (afterMode s (s.cfg.set r c))) ∧
      exec i s = exec (wr1 (BitVec.ofNat 8 r) c) s

/-- R139 and R147: a one-byte write after which there is no channel, the command is not 1 or 2, the frequency is off or
the depth is none of the four disengages, disarms, marks an outstanding transmission stale, and keeps the rest. -/
def Obligations.DisengagePath : Prop :=
  ∀ (r : Fin 27) (v : Byte) (s : State), 2 ≤ s.params.ringSlots →
    let c := { s with cfg := s.cfg.set r v }
    (channelList (usedMask c) = [] ∨ (cfgCmd c ≠ 1#8 ∧ cfgCmd c ≠ 2#8) ∨ cfgFreq c = 0#8 ∨
      (cfgDepth c).toNat ∉ [2, 4, 8, 12]) →
    exec (wr1 (BitVec.ofNat 8 r) v) s = .next { s with
      cfg := withMask (s.cfg.set r v) (usedMask c)
      txStale := s.txStale || s.txBusy
      engaged := false
      armed := false, fired := false, openBit := false, strobe := .idle, held := 0
      prevValid := false, prevAbove := false, restartPending := false
      out := s.out ++ [.idle true, .acqOff (channelList (usedMask c)), .ack] }

/-- R140 to R146: a one-byte write after which none of those holds engages, latches the derived configuration, resets the
ring, the sequence and the counters, arms, and hands out the parameters. The interval of
R146 is over the opaque table, as a natural number with the halvings rounded down (log 3). -/
def Obligations.FullPath : Prop :=
  ∀ (r : Fin 27) (v : Byte) (s : State), 2 ≤ s.params.ringSlots →
    let c := { s with cfg := s.cfg.set r v }
    let list := channelList (usedMask c)
    list ≠ [] → (cfgCmd c = 1#8 ∨ cfgCmd c = 2#8) → cfgFreq c ≠ 0#8 → (cfgDepth c).toNat ∈ [2, 4, 8, 12] →
    ∃ t, exec (wr1 (BitVec.ofNat 8 r) v) s = .next t ∧ t.engaged = true ∧
      t.cfg = withMask (s.cfg.set r v) (usedMask c) ∧
      t.d.toNat = (cfgDepth c).toNat ∧ t.spp.toNat = 480 / (cfgDepth c).toNat ∧ t.chans.toNat = list.length ∧
      (t.swap = true ↔ list.length = 1 ∧ cfgFreq c = 1#8) ∧
      t.hdrMask.toNat = (usedMask c).toNat ∧
      t.hdrMode.toNat = (cfgFreq c).toNat % 16 * 16 + (cfgDepth c).toNat % 16 ∧
      t.seq = 0 ∧ t.produceAt = 0 ∧ t.sendFrom = 0 ∧ t.totalIn = 0 ∧ t.totalOut = 0 ∧
      ArmedWaiting t ∧ t.strobe = .idle ∧ t.held = 0 ∧ t.prevValid = false ∧ t.prevAbove = false ∧
      t.restartPending = false ∧ t.rxAnchor = 0 ∧ t.txAnchor = 0 ∧
      t.txBusy = s.txBusy ∧ t.txStale = (s.txStale || s.txBusy) ∧
      t.params = s.params ∧ t.slots = s.slots ∧ t.slotEpoch = s.slotEpoch ∧ t.operand = s.operand ∧
      t.pending = s.pending ∧ t.arrivals = s.arrivals ∧
      ∃ interval, t.out = s.out ++ [.idle false, .acqOn list t.d t.swap interval, .ack] ∧
        ((cfgFreq c).toNat ≤ 15 → t.swap = true → interval = Config.rateTable (cfgFreq c) / 2) ∧
        ((cfgFreq c).toNat ≤ 15 → 1 < list.length → interval = Config.rateTable (cfgFreq c) * list.length / 2) ∧
        ((cfgFreq c).toNat ≤ 15 → list.length = 1 → t.swap = false → interval = Config.rateTable (cfgFreq c))

/-- Pairing and the known-bad combinations (R135, R136, R137): the highest unselected channel is added to an odd count
above one; a bad (depth, count) pair gets the two highest unselected channels, one after the other. -/
def Obligations.ChannelForcing : Prop :=
  ∀ s : State,
    let m := (cfgChannels s).extractLsb' 0 10
    let count (x : BitVec 10) := (channelList x).length
    ∃ p : BitVec 10,
      (if 1 < count m ∧ count m % 2 = 1 then AddsHighest m p else p = m) ∧
      (if ((cfgDepth s).toNat, count p) ∈ [(8, 8), (12, 6)] then ∃ q, AddsHighest p q ∧ AddsHighest q (usedMask s)
       else usedMask s = p)

/-- For every depth and effective channel count that reaches step 6, `spp` is a multiple of the count (R140), the pair is
not a bad one (R137), and no requested channel is lost. -/
def Obligations.SppMultipleOfChannels : Prop :=
  ∀ s : State, (cfgDepth s).toNat ∈ [2, 4, 8, 12] → channelList (usedMask s) ≠ [] →
    (channelList (usedMask s)).length ∣ 480 / (cfgDepth s).toNat ∧
      ((cfgDepth s).toNat, (channelList (usedMask s)).length) ∉ [(8, 8), (12, 6)] ∧
      ∀ i, i < 10 → (cfgChannels s).getLsbD i = true → i ∈ channelList (usedMask s)

/-- After any REGWR that writes a byte, `cfg.used_channels` is the derived mask, whatever was written to it, and its
bits 15..10 are zero (R138, R54). -/
def Obligations.UsedChannelsStored : Prop :=
  ∀ (idx val : Half) (s : State), 2 ≤ s.params.ringSlots → (lowByte idx).toNat < 27 ∨ (highByte idx).toNat < 27 →
    ∃ t, exec (.regwr idx val) s = .next t ∧ cfgUsedChannels t = (usedMask t).setWidth 16 ∧
      (cfgUsedChannels t).toNat < 1024

/-- The Mode Engine is idempotent but for the repeated outputs (R148, which marks its clause on the outputs as derived).
That the second MODE hands out the same interval also for a reserved frequency code rests on the model's choice that this
free value depends on the frequency byte and the channel count alone (log 4). -/
def Obligations.ModeIdempotent : Prop :=
  ∀ s : State, { modeEngine (modeEngine s) with out := s.out } = { modeEngine s with out := s.out } ∧
    ∃ o, (modeEngine s).out = s.out ++ o ∧ (modeEngine (modeEngine s)).out = (modeEngine s).out ++ o

/-! ### RESET -/

/-- RESET loads CFG_DEFAULTS, clears every working register and latch, leaves the slot memory unspecified and runs MODE
once (R149, R320), for any CFG_DEFAULTS. Where they engage, the latches and the outputs are those of the full path (R140 to
R142, R146, log 3); where they disengage, the latches are 0. The fresh free values of the slot bytes, and the pending
events that stay, are the model's choice (logs 5, 6, 7). -/
def Obligations.ResetLoadsDefaults : Prop :=
  ∀ (idx val : Half) (s : State), 2 ≤ s.params.ringSlots →
    let c := { s with cfg := s.params.cfgDefaults }
    let list := channelList (usedMask c)
    ∃ t, exec (.reset idx val) s = .next t ∧
      t.cfg = withMask s.params.cfgDefaults (usedMask c) ∧
      (t.engaged = true ↔ list ≠ [] ∧ (cfgCmd c = 1#8 ∨ cfgCmd c = 2#8) ∧ cfgFreq c ≠ 0#8 ∧
        (cfgDepth c).toNat ∈ [2, 4, 8, 12]) ∧
      (t.engaged = true → ArmedWaiting t ∧ t.d.toNat = (cfgDepth c).toNat ∧ t.spp.toNat = 480 / (cfgDepth c).toNat ∧
        t.chans.toNat = list.length ∧ (t.swap = true ↔ list.length = 1 ∧ cfgFreq c = 1#8) ∧
        t.hdrMask.toNat = (usedMask c).toNat ∧
        t.hdrMode.toNat = (cfgFreq c).toNat % 16 * 16 + (cfgDepth c).toNat % 16 ∧
        ∃ interval, t.out = s.out ++ [.idle false, .acqOn list t.d t.swap interval] ∧
          ((cfgFreq c).toNat ≤ 15 → t.swap = true → interval = Config.rateTable (cfgFreq c) / 2) ∧
          ((cfgFreq c).toNat ≤ 15 → 1 < list.length → interval = Config.rateTable (cfgFreq c) * list.length / 2) ∧
          ((cfgFreq c).toNat ≤ 15 → list.length = 1 → t.swap = false → interval = Config.rateTable (cfgFreq c))) ∧
      (t.engaged = false → Disarmed t ∧ t.d = 0 ∧ t.spp = 0 ∧ t.chans = 0 ∧ t.swap = false ∧ t.hdrMask = 0 ∧
        t.hdrMode = 0 ∧ t.out = s.out ++ [.idle true, .acqOff list]) ∧
      t.txBusy = false ∧ t.txStale = false ∧ t.produceAt = 0 ∧ t.sendFrom = 0 ∧ t.seq = 0 ∧ t.totalIn = 0 ∧
      t.totalOut = 0 ∧ t.rxAnchor = 0 ∧ t.txAnchor = 0 ∧ t.strobe = .idle ∧ t.held = 0 ∧ t.prevValid = false ∧
      t.prevAbove = false ∧ t.restartPending = false ∧ t.params = s.params ∧ t.operand = s.operand ∧
      t.pending = s.pending ∧ t.arrivals = s.arrivals ∧ ∀ a, slotByte t a = Config.freeSlotByte (s.slotEpoch + 1) a

/-- The table of R58: RESET with CFG_DEFAULTS all zero. The slot memory's bytes are free values, and `out` shows what the
reset emits. -/
def Obligations.ResetTable : Prop :=
  ∀ (idx val : Half) (s : State), 2 ≤ s.params.ringSlots → s.params.cfgDefaults = Vector.replicate 27 0#8 →
    exec (.reset idx val) s = .next { s with
      cfg := Vector.replicate 27 0#8
      produceAt := 0, sendFrom := 0, seq := 0, restartPending := false, txBusy := false, txStale := false
      totalIn := 0, totalOut := 0, armed := false, fired := false, openBit := false, strobe := .idle, held := 0
      prevValid := false, prevAbove := false, rxAnchor := 0, txAnchor := 0, engaged := false
      d := 0, spp := 0, chans := 0, swap := false, hdrMask := 0, hdrMode := 0
      slots := [], slotEpoch := s.slotEpoch + 1
      out := s.out ++ [.idle true, .acqOff []] }

/-! ### INGEST -/

/-- INGEST writes one packet into slot `produce_at` and no other byte of the slot memory, counts the sequence and the
samples, and leaves the configuration, the latches and the consumer's registers alone (R250 to R254, R96 to R99). The
flag is set where a fire is pending or made now and the window is open after the trigger has run (R252). The block is
encoded in time order: its pairs swapped exactly where `swap = 1` (R221). -/
def Obligations.IngestStoresPacket : Prop :=
  ∀ (idx val : Half) (s : State), CanIngest s →
    ∃ t, exec (.ingest idx val) s = .next t ∧
      (let pendingFlag := s.restartPending || (s.armed && !t.armed)
       let flag := pendingFlag && (t.fired && t.openBit)
       let packet := [BitVec.ofBool flag ++ s.seq, s.hdrMask.extractLsb' 0 8, s.hdrMask.extractLsb' 8 8, s.hdrMode] ++
         encodeBlock s (if s.swap then swapPairs s.operand else s.operand)
       packet.length = 64 ∧
       (∀ j b, packet[j]? = some b → slotByte t (64 * s.produceAt + j) = b) ∧
       (∀ a, a < 64 * s.produceAt ∨ 64 * s.produceAt + 64 ≤ a → slotByte t a = slotByte s a) ∧
       t.restartPending = (pendingFlag && !flag)) ∧
      t.seq = s.seq + 1 ∧ t.totalIn = s.totalIn + s.spp.setWidth 32 ∧
      t.params = s.params ∧ t.cfg = s.cfg ∧ t.totalOut = s.totalOut ∧ t.txStale = s.txStale ∧ t.engaged = s.engaged ∧
      t.d = s.d ∧ t.spp = s.spp ∧ t.chans = s.chans ∧ t.swap = s.swap ∧ t.hdrMask = s.hdrMask ∧
      t.hdrMode = s.hdrMode ∧ t.slotEpoch = s.slotEpoch ∧ t.operand = s.operand ∧ t.pending = s.pending ∧
      t.arrivals = s.arrivals

/-- The advance and the scheduler at the end of INGEST (R255, R256, R257): `produce_at` moves one slot while armed or the
window is open, unless that slot is `send_from` and the transport is busy; a transmission of slot `send_from` starts
where the window is open, the transport is free and the ring is not empty, and nothing else is emitted. -/
def Obligations.IngestAdvancesAndKicks : Prop :=
  ∀ (idx val : Half) (s : State), CanIngest s →
    ∃ t, exec (.ingest idx val) s = .next t ∧
      (let next := (s.produceAt + 1) % s.params.ringSlots
       let window := t.fired && t.openBit
       t.produceAt = (if (t.armed = true ∨ window = true) ∧ ¬(next = t.sendFrom ∧ s.txBusy = true) then next
         else s.produceAt) ∧
       (window = true ∧ s.txBusy = false ∧ t.sendFrom ≠ t.produceAt →
         t.txBusy = true ∧ t.out = s.out ++ [.txstart t.sendFrom (slotRead t.sendFrom t)]) ∧
       (¬(window = true ∧ s.txBusy = false ∧ t.sendFrom ≠ t.produceAt) → t.txBusy = s.txBusy ∧ t.out = s.out))

/-- FIRE (R183 to R187): an armed INGEST that fires anchors both counters, puts `send_from` the clamped whole-packet
count behind the firing block's slot, and opens the window at once for an offset of 0 or less; one that does not fire
moves none of these. -/
def Obligations.FirePlacesSendFrom : Prop :=
  ∀ (idx val : Half) (s : State), CanIngest s → ArmedWaiting s →
    ∃ t, exec (.ingest idx val) s = .next t ∧
      (t.fired = true → t.armed = false ∧ t.rxAnchor = s.totalIn ∧ t.txAnchor = s.totalOut ∧
        (let k : Int := if cfgTrigOffset s < 0 then
            min (-cfgTrigOffset s / (s.spp.toNat : Int)) ((s.params.ringSlots : Int) - 2) else 0
         (t.sendFrom : Int) = ((s.produceAt : Int) - k) % (s.params.ringSlots : Int)) ∧
        t.openBit = decide (cfgTrigOffset s ≤ 0)) ∧
      (t.fired = false → ArmedWaiting t ∧ t.rxAnchor = s.rxAnchor ∧ t.txAnchor = s.txAnchor ∧
        t.sendFrom = s.sendFrom ∧ t.restartPending = s.restartPending)

/-- TRG.NONE fires on the first evaluation, before any sample is looked at (R173). -/
def Obligations.TriggerNoneFires : Prop :=
  ∀ (idx val : Half) (s : State), CanIngest s → ArmedWaiting s → cfgTrigMode s = 0#8 →
    ∃ t, exec (.ingest idx val) s = .next t ∧ t.fired = true ∧ t.armed = false ∧ t.prevValid = s.prevValid ∧
      t.prevAbove = s.prevAbove ∧ t.strobe = s.strobe ∧ t.held = s.held

/-- TRG.RISE, TRG.FALL and TRG.THRESH (R174, R175, R176, R180): a block fires exactly where, counting the preceding
examined sample if there is one, a sample not above the level is directly followed by one above it, or the reverse, or
either. -/
def Obligations.EdgeModesFire : Prop :=
  ∀ (idx val : Half) (s : State), CanIngest s → ArmedWaiting s → (cfgTrigChannel s).toNat < s.chans.toNat →
    (cfgTrigMode s).toNat ∈ [1, 2, 3] →
    ∃ t, exec (.ingest idx val) s = .next t ∧
      (cfgTrigMode s = 1#8 → (t.fired = true ↔ EdgeAt (comparisonsWithPrev s) false true)) ∧
      (cfgTrigMode s = 2#8 → (t.fired = true ↔ EdgeAt (comparisonsWithPrev s) true false)) ∧
      (cfgTrigMode s = 3#8 → (t.fired = true ↔
        EdgeAt (comparisonsWithPrev s) false true ∨ EdgeAt (comparisonsWithPrev s) true false))

/-- "After each examined sample" (R180): an armed block in a mode 1 to 5 leaves `prev_valid` set and in `prev_above` the
comparator result of the last sample examined, the one that hit where the block fires (R182) and the block's last one where
it does not. The strobe registers (R33, R179): untouched in the modes 1 to 3; in the modes 4 and 5, IDLE and 0 where that
sample lies outside the region, HOLD and the number of samples held where one is held, from this block or carried into it,
and untouched (still IDLE) where the signal has been inside "but never seen outside since ARM". -/
def Obligations.PreviousSampleCarried : Prop :=
  ∀ (idx val : Half) (s : State), CanIngest s → ArmedWaiting s → (cfgTrigChannel s).toNat < s.chans.toNat →
    (cfgTrigMode s).toNat ∈ [1, 2, 3, 4, 5] →
    ∃ t n, exec (.ingest idx val) s = .next t ∧ LastExamined s n ∧ (t.fired = true ↔ HitAt s n) ∧
      t.prevValid = true ∧ (comparisons s)[n]? = some t.prevAbove ∧
      ((cfgTrigMode s).toNat ∈ [1, 2, 3] → t.strobe = s.strobe ∧ t.held = s.held) ∧
      ((cfgTrigMode s).toNat ∈ [4, 5] →
        (OutsideAt s n → t.strobe = .idle ∧ t.held = 0) ∧
        (∀ h, HeldAt s n h → t.strobe = .hold ∧ t.held.toNat = h) ∧
        (InsideAt s n → (∀ h, ¬HeldAt s n h) → t.strobe = .idle ∧ t.held = s.held))

/-- TRG.STROBE_LO and TRG.STROBE_HI on any armed block, whatever strobe, `held` and preceding sample were carried into it
(R177, R178, R179, R180): it fires exactly where at some examined sample the strobe is in HOLD with a count in
`[trig_t_min, trig_t_max]`, unbounded above for `trig_t_max = 0`. On the first block after arming that is where a crossing
into the region is followed by such a number of further samples inside it. -/
def Obligations.StrobeModesFire : Prop :=
  ∀ (idx val : Half) (s : State), CanIngest s → ArmedWaiting s → (cfgTrigChannel s).toNat < s.chans.toNat →
    (cfgTrigMode s).toNat ∈ [4, 5] →
    ∃ t, exec (.ingest idx val) s = .next t ∧
      (t.fired = true ↔ ∃ n h, HeldAt s n h ∧ InInterval s h) ∧
      (s.prevValid = false → s.strobe = .idle →
        (cfgTrigMode s = 4#8 → (t.fired = true ↔
          StrobeHit ((comparisons s).map not) (cfgTrigTMin s).toNat (cfgTrigTMax s).toNat)) ∧
        (cfgTrigMode s = 5#8 → (t.fired = true ↔
          StrobeHit (comparisons s) (cfgTrigTMin s).toNat (cfgTrigTMax s).toNat)))

/-- A reserved trigger mode, or a trigger channel past the scan in the modes 1 to 5: no sample is examined and the engine
stays Armed-waiting (R181, R171). -/
def Obligations.NoSampleNoFire : Prop :=
  ∀ (idx val : Half) (s : State), CanIngest s → ArmedWaiting s →
    (6 ≤ (cfgTrigMode s).toNat ∨ (cfgTrigMode s ≠ 0#8 ∧ s.chans.toNat ≤ (cfgTrigChannel s).toNat)) →
    ∃ t, exec (.ingest idx val) s = .next t ∧ ArmedWaiting t ∧ t.prevValid = s.prevValid ∧
      t.prevAbove = s.prevAbove ∧ t.strobe = s.strobe ∧ t.held = s.held ∧ t.sendFrom = s.sendFrom

/-- With `armed = 0` an INGEST examines no sample: `prev_valid`, `prev_above`, `strobe` and `held` keep their values
(R192), and there is no fire. -/
def Obligations.UnarmedKeepsTrigger : Prop :=
  ∀ (idx val : Half) (s : State), CanIngest s → s.armed = false →
    ∃ t, exec (.ingest idx val) s = .next t ∧ t.prevValid = s.prevValid ∧ t.prevAbove = s.prevAbove ∧
      t.strobe = s.strobe ∧ t.held = s.held ∧ t.armed = false ∧ t.fired = s.fired ∧ t.rxAnchor = s.rxAnchor ∧
      t.txAnchor = s.txAnchor ∧ t.sendFrom = s.sendFrom

/-- The post-trigger delay (R187, R256): in Delay the window opens in the first INGEST before which at least
`max(off, 0)` samples have been ingested since the fire; until then `produce_at` stays pinned and nothing is sent. -/
def Obligations.DelayOpensWindow : Prop :=
  ∀ (idx val : Half) (s : State), CanIngest s → Delay s →
    ∃ t, exec (.ingest idx val) s = .next t ∧
      (max (cfgTrigOffset s) 0 ≤ ((s.totalIn - s.rxAnchor).toNat : Int) → Open t) ∧
      (((s.totalIn - s.rxAnchor).toNat : Int) < max (cfgTrigOffset s) 0 →
        Delay t ∧ t.produceAt = s.produceAt ∧ t.out = s.out ∧ t.txBusy = s.txBusy)

/-- The restart flag (R252, R24), read in bit 7 of the packet just written: clear in a packet produced while no trigger has
fired, the history; set by the firing block for an offset of 0 or less; clear in Delay, which keeps it pending; set by the block that opens the window; and clear in Open once it is
spent. -/
def Obligations.RestartFlagPlacement : Prop :=
  ∀ (idx val : Half) (s : State), CanIngest s →
    ∃ t, exec (.ingest idx val) s = .next t ∧
      (let flagged := restartOf (slotByte t (64 * s.produceAt))
       (ArmedWaiting s → ArmedWaiting t → flagged = false) ∧
       (ArmedWaiting s → Open t → flagged = true ∧ t.restartPending = false) ∧
       (ArmedWaiting s → Delay t → flagged = false ∧ t.restartPending = true) ∧
       (Delay s → Delay t → flagged = false ∧ t.restartPending = s.restartPending) ∧
       (Delay s → s.restartPending = true → Open t → flagged = true ∧ t.restartPending = false) ∧
       (Open s → s.restartPending = false → flagged = false ∧ t.restartPending = false))

/-- A full ring in an open window with the transport busy drops the newest block: the slot at `produce_at` is written
again next time, no index moves, nothing is emitted, and a sequence number is spent (R255 (b), R253, R263). -/
def Obligations.SaturationDropsNewest : Prop :=
  ∀ (idx val : Half) (s : State), CanIngest s → Open s → s.txBusy = true →
    (s.produceAt + 1) % s.params.ringSlots = s.sendFrom →
    ∃ t, exec (.ingest idx val) s = .next t ∧ t.produceAt = s.produceAt ∧ t.sendFrom = s.sendFrom ∧ t.out = s.out ∧
      t.txBusy = true ∧ t.seq = s.seq + 1 ∧ slotRead s.sendFrom t = slotRead s.sendFrom s

/-! ### The code rows' own effects -/

/-- PACK2, PACK4, PACK8, PACK12 (R223 to R226, R102): selecting the code latches that depth and its `spp`, and the next
block's body is that packer's output on the adjusted samples. That selecting is an operation is the model's choice
(log 8). -/
def Obligations.DepthCodesSelectPacker : Prop :=
  ∀ (i : Instr) (n : Nat) (pack : List Sample → List Byte) (s : State),
    (i, n, pack) ∈ [(Instr.pack2, 2, packTwo), (.pack4, 4, packFour), (.pack8, 8, packEight),
      (.pack12, 12, packTwelve)] →
    2 ≤ s.params.ringSlots →
    ∃ t, exec i s = .next t ∧ (cfgDepth t).toNat = n ∧
      (t.engaged = true → t.d.toNat = n ∧ t.spp.toNat = 480 / n ∧
        ∀ w : List Half, w.length = 480 / n →
          ∃ u, exec (.ingest 0 0) { t with operand := w } = .next u ∧
            ∀ j b, (pack ((if t.swap then swapPairs w else w).map (adjust (cfgOffset s) (cfgGain s))))[j]? = some b →
              slotByte u (64 * t.produceAt + 4 + j) = b)

/-- The six trigger codes (R173 to R179, R104): selecting the code arms with that mode, and the first block then fires
exactly where that mode's condition is met. That selecting is an operation is the model's choice (log 8). -/
def Obligations.TriggerCodesSelectMode : Prop :=
  ∀ (i : Instr) (fires : State → Prop) (s : State),
    (i, fires) ∈ [(Instr.trgNone, fun _ => True), (.trgRise, fun u => EdgeAt (comparisons u) false true),
      (.trgFall, fun u => EdgeAt (comparisons u) true false),
      (.trgThresh, fun u => EdgeAt (comparisons u) false true ∨ EdgeAt (comparisons u) true false),
      (.trgStrobeLo, fun u => StrobeHit ((comparisons u).map not) (cfgTrigTMin u).toNat (cfgTrigTMax u).toNat),
      (.trgStrobeHi, fun u => StrobeHit (comparisons u) (cfgTrigTMin u).toNat (cfgTrigTMax u).toNat)] →
    2 ≤ s.params.ringSlots →
    ∃ t, exec i s = .next t ∧
      (t.engaged = true → ArmedWaiting t ∧
        ((cfgTrigChannel t).toNat < t.chans.toNat → ∀ w : List Half, w.length = t.spp.toNat →
          ∃ u, exec (.ingest 0 0) { t with operand := w } = .next u ∧
            (u.fired = true ↔ fires { t with operand := w })))

/-- FREQ.OFF disengages; FREQ.MAX and FREQ.2 to FREQ.15, where the rest of the configuration engages, set `swap` exactly
for FREQ.MAX with one channel and hand out the interval of R146 (R139, R141, R146). -/
def Obligations.FrequencyCodesSetInterval : Prop :=
  ∀ (i : Instr) (c : Byte) (s : State), codeOf i = some (4, c) → 2 ≤ s.params.ringSlots →
    ∃ t, exec i s = .next t ∧ cfgFreq t = c ∧ (c = 0#8 → t.engaged = false) ∧
      (t.engaged = true → t.hdrMode.toNat / 16 = c.toNat ∧ (t.swap = true ↔ c = 1#8 ∧ t.chans.toNat = 1) ∧
        ∃ list, list.length = t.chans.toNat ∧ t.out = s.out ++ [.idle false, .acqOn list t.d t.swap
          (if t.swap then Config.rateTable c / 2
           else if 1 < t.chans.toNat then Config.rateTable c * t.chans.toNat / 2
           else Config.rateTable c), .ack])

/-- CMD.STOP disengages; CMD.ONCE and CMD.CONT, where the rest of the configuration engages, arm (R139, R145). -/
def Obligations.CommandCodesArm : Prop :=
  ∀ s : State, 2 ≤ s.params.ringSlots →
    (∃ t, exec .cmdStop s = .next t ∧ t.engaged = false ∧ Disarmed t ∧ cfgCmd t = 0#8) ∧
    (∀ i ∈ [Instr.cmdOnce, .cmdCont], ∃ t, exec i s = .next t ∧
      (t.engaged = true ↔ channelList (usedMask s) ≠ [] ∧ cfgFreq s ≠ 0#8 ∧ (cfgDepth s).toNat ∈ [2, 4, 8, 12]) ∧
      (t.engaged = true → ArmedWaiting t ∧ t.rxAnchor = t.totalIn ∧ t.txAnchor = t.totalOut ∧
        (cfgCmd t = 1#8 ↔ i = .cmdOnce)))

/-- The reserved code values (R106): a command 3..255 and a depth that is none of the four disengage; a frequency 16..255
engages where the rest does, with its low nibble in the mode byte. -/
def Obligations.ReservedCodesAct : Prop :=
  ∀ (v : Byte) (s : State), 2 ≤ s.params.ringSlots →
    (3 ≤ v.toNat → ∃ t, exec (wr1 0 v) s = .next t ∧ t.engaged = false ∧ Disarmed t) ∧
    (v.toNat ∉ [2, 4, 8, 12] → ∃ t, exec (wr1 3 v) s = .next t ∧ t.engaged = false ∧ Disarmed t) ∧
    (16 ≤ v.toNat → channelList (usedMask s) ≠ [] → cfgCmd s = 1#8 ∨ cfgCmd s = 2#8 →
      (cfgDepth s).toNat ∈ [2, 4, 8, 12] →
      ∃ t, exec (wr1 4 v) s = .next t ∧ t.engaged = true ∧ t.hdrMode.toNat / 16 = v.toNat % 16)

/-! ### TXDONE -/

/-- A counted completion (R259): `send_from` moves one slot, the samples are counted; where the burst is not reached the
next slot starts at once if the window is open and the ring is not empty, and otherwise the transport goes idle. The
producer's registers, the configuration, the latches and the slot memory stay. -/
def Obligations.TxdoneCounted : Prop :=
  ∀ (idx val : Half) (s : State), 2 ≤ s.params.ringSlots → IndicesInRing s → s.txBusy = true → s.txStale = false →
    ∃ t, exec (.txdone idx val) s = .next t ∧
      t.sendFrom = (s.sendFrom + 1) % s.params.ringSlots ∧ t.totalOut = s.totalOut + s.spp.setWidth 32 ∧
      t.txStale = false ∧ t.produceAt = s.produceAt ∧ t.seq = s.seq ∧ t.totalIn = s.totalIn ∧ t.cfg = s.cfg ∧
      t.params = s.params ∧ t.engaged = s.engaged ∧ t.d = s.d ∧ t.spp = s.spp ∧ t.chans = s.chans ∧
      t.swap = s.swap ∧ t.hdrMask = s.hdrMask ∧ t.hdrMode = s.hdrMode ∧ t.slots = s.slots ∧
      t.slotEpoch = s.slotEpoch ∧ t.operand = s.operand ∧ t.pending = s.pending ∧ t.arrivals = s.arrivals ∧
      (s.fired = false ∨ (t.totalOut - s.txAnchor).toNat < 2 ^ ((cfgSamples s).toNat + 10) →
        t.armed = s.armed ∧ t.fired = s.fired ∧ t.openBit = s.openBit ∧ t.restartPending = s.restartPending ∧
        t.strobe = s.strobe ∧ t.held = s.held ∧ t.prevValid = s.prevValid ∧ t.prevAbove = s.prevAbove ∧
        t.rxAnchor = s.rxAnchor ∧ t.txAnchor = s.txAnchor ∧
        (if winOpen s = true ∧ t.sendFrom ≠ s.produceAt then
           t.txBusy = true ∧ t.out = s.out ++ [.txstart t.sendFrom (slotRead t.sendFrom s)]
         else t.txBusy = false ∧ t.out = s.out))

/-- The end of a burst (R190, R189): at the completion that reaches `2^(cfg.samples + 10)` samples since the fire the
engine disarms for the command once and re-arms for continuous, sends nothing more, and leaves the ring and the
sequence as they are. -/
def Obligations.BurstEndByCommand : Prop :=
  ∀ (idx val : Half) (s : State), 2 ≤ s.params.ringSlots → IndicesInRing s → s.txBusy = true → s.txStale = false →
    s.fired = true → (cfgCmd s = 1#8 ∨ cfgCmd s = 2#8) →
    2 ^ ((cfgSamples s).toNat + 10) ≤ (s.totalOut + s.spp.setWidth 32 - s.txAnchor).toNat →
    ∃ t, exec (.txdone idx val) s = .next t ∧ (cfgCmd s = 1#8 → Disarmed t) ∧ (cfgCmd s = 2#8 → ArmedWaiting t) ∧
      t.rxAnchor = s.totalIn ∧ t.txAnchor = s.totalOut + s.spp.setWidth 32 ∧ t.strobe = .idle ∧ t.held = 0 ∧
      t.prevValid = false ∧ t.prevAbove = false ∧ t.restartPending = false ∧ t.txBusy = false ∧ t.out = s.out ∧
      t.produceAt = s.produceAt ∧ t.sendFrom = (s.sendFrom + 1) % s.params.ringSlots ∧ t.seq = s.seq ∧
      t.slots = s.slots

/-- For `cfg.samples >= 22` no completion ends the burst (R189). -/
def Obligations.BurstNeverEndsFrom22 : Prop :=
  ∀ (idx val : Half) (s : State), 2 ≤ s.params.ringSlots → IndicesInRing s → s.txBusy = true →
    22 ≤ (cfgSamples s).toNat → ∃ t, exec (.txdone idx val) s = .next t ∧ SameTrigger s t

/-- A stale completion frees the transport and changes nothing else; then KICK runs (R260). -/
def Obligations.TxdoneStale : Prop :=
  ∀ (idx val : Half) (s : State), 2 ≤ s.params.ringSlots → IndicesInRing s → s.txBusy = true → s.txStale = true →
    exec (.txdone idx val) s = .next
      (if winOpen s = true ∧ s.sendFrom ≠ s.produceAt then
         { s with txStale := false, out := s.out ++ [.txstart s.sendFrom (slotRead s.sendFrom s)] }
       else { s with txBusy := false, txStale := false })

/-- INGEST while disengaged and TXDONE with nothing outstanding end with the outcome Ignored and no state change (R298,
R261). That a block of the wrong length is Ignored too while disengaged, and not refused, is read from the order of R250
(log 14, DEDUCED). -/
def Obligations.EventsIgnored : Prop :=
  ∀ (idx val : Half) (s : State), 2 ≤ s.params.ringSlots →
    (s.engaged = false → exec (.ingest idx val) s = .next { s with out := s.out ++ [.ignored] }) ∧
    (s.txBusy = false → exec (.txdone idx val) s = .next { s with out := s.out ++ [.ignored] })

/-! ### Invariants and whole-machine rules -/

/-- R59 is kept by every step from any state that meets it, under every interleaving of the sources (R294). -/
def Obligations.RingInvariantKept : Prop :=
  ∀ s t : State, RingInvariant s → step s = .next t → RingInvariant t

/-- The latches agree with the configuration, `engaged` with the disengage test, and the trigger is off while disengaged,
after every step (R75, R35, R138). -/
def Obligations.LatchInvariantKept : Prop :=
  ∀ s t : State, LatchInvariant s → step s = .next t → LatchInvariant t

/-- The slot memory keeps its canonical form (the model's, log 5). -/
def Obligations.MemoryCanonicalKept : Prop :=
  ∀ s t : State, Memory.wf s.slots → step s = .next t → Memory.wf t.slots

/-- The state after reset meets all three. -/
def Obligations.ResetMeetsInvariant : Prop := CoreInvariant State.reset

/-- R290: from every state that meets the invariant a step answers a next state that meets it, unless it takes an INGEST
whose block has the wrong length while engaged, which is refused (R299). No step faults. -/
def Obligations.StepNeverFaults : Prop :=
  ∀ s : State, CoreInvariant s →
    (∃ t, step s = .next t ∧ CoreInvariant t) ∨
    (step s = .refused .blockLength ∧ ∃ r rest idx val, takeNext (arrive s).pending = some (r, rest) ∧
      decode r.word = .ok (.ingest idx val) ∧ s.engaged = true ∧ r.operand.length ≠ s.spp.toNat)

/-- The transition table of (`armed`, `fired`, `open`): every event moves between the named states only as R191 lists,
and ends in one of them. -/
def Obligations.TriggerTransitions : Prop :=
  ∀ (i : Instr) (s t : State), CoreInvariant s → exec i s = .next t → LegalMove i s t ∧ NamedState t

/-- While a transmission is outstanding and not stale, no event but RESET writes the slot in flight (R258, R59 (c), which
the spec marks as derived). That RESET is the exception rests on the model's choice to drop the written slot bytes there
(log 6). -/
def Obligations.InFlightSlotPreserved : Prop :=
  ∀ (i : Instr) (s t : State), RingInvariant s → s.txBusy = true → s.txStale = false → exec i s = .next t →
    (∀ idx val, i ≠ .reset idx val) → slotRead s.sendFrom t = slotRead s.sendFrom s

/-- The writer discipline (R72): what INGEST, TXDONE and REGWR each never write. -/
def Obligations.WriterDiscipline : Prop :=
  ∀ (idx val : Half) (s t : State),
    (exec (.ingest idx val) s = .next t →
      t.totalOut = s.totalOut ∧ t.txStale = s.txStale ∧ t.cfg = s.cfg ∧ t.engaged = s.engaged ∧ t.d = s.d ∧
        t.spp = s.spp ∧ t.chans = s.chans ∧ t.swap = s.swap ∧ t.hdrMask = s.hdrMask ∧ t.hdrMode = s.hdrMode ∧
        (s.armed = false → t.sendFrom = s.sendFrom)) ∧
    (exec (.txdone idx val) s = .next t →
      t.produceAt = s.produceAt ∧ t.slots = s.slots ∧ t.seq = s.seq ∧ t.totalIn = s.totalIn ∧ t.cfg = s.cfg ∧
        t.engaged = s.engaged ∧ t.d = s.d ∧ t.spp = s.spp ∧ t.chans = s.chans ∧ t.swap = s.swap ∧
        t.hdrMask = s.hdrMask ∧ t.hdrMode = s.hdrMode) ∧
    (exec (.regwr idx val) s = .next t →
      t.slots = s.slots ∧ t.slotEpoch = s.slotEpoch ∧ t.txBusy = s.txBusy ∧
        (s.txBusy = false → t.txStale = s.txStale))

/-! ### The Sample Encoder and the block -/

/-- The four packers bit by bit (R223 to R226): byte `j`, or byte triple `j`, from its group of samples. -/
def Obligations.PackersBitLayout : Prop :=
  ∀ (a : List Sample) (j : Nat),
    (∀ w x y z, a[4 * j]? = some w → a[4 * j + 1]? = some x → a[4 * j + 2]? = some y → a[4 * j + 3]? = some z →
      ∃ b, (packTwo a)[j]? = some b ∧
        b.toNat = w.toNat / 1024 * 64 + x.toNat / 1024 * 16 + y.toNat / 1024 * 4 + z.toNat / 1024) ∧
    (∀ w x, a[2 * j]? = some w → a[2 * j + 1]? = some x →
      ∃ b, (packFour a)[j]? = some b ∧ b.toNat = w.toNat / 256 * 16 + x.toNat / 256) ∧
    (∀ w, a[j]? = some w → ∃ b, (packEight a)[j]? = some b ∧ b.toNat = w.toNat / 16) ∧
    (∀ w x, a[2 * j]? = some w → a[2 * j + 1]? = some x →
      ∃ b c e, (packTwelve a)[3 * j]? = some b ∧ (packTwelve a)[3 * j + 1]? = some c ∧
        (packTwelve a)[3 * j + 2]? = some e ∧ b.toNat = w.toNat / 16 ∧
        c.toNat = w.toNat % 16 * 16 + x.toNat % 16 ∧ e.toNat = x.toNat / 16)

/-- ADJ (R222): `((raw - cfg.offset) * 2^cfg.gain) mod 4096` with `raw` the low 12 bits of the word; a gain of 12 or more
gives 0, and offset 0 with gain 0 is the identity on the raw sample. -/
def Obligations.AdjustFormula : Prop :=
  ∀ (offset w : Half) (gain : Byte),
    ((adjust offset gain w).toNat : Int) =
      (((w.toNat % 4096 : Nat) : Int) - (offset.toNat : Int)) * 2 ^ gain.toNat % 4096 ∧
    (12 ≤ gain.toNat → adjust offset gain w = 0) ∧ (adjust 0 0 w).toNat = w.toNat % 4096

/-- SWAP (R221): a block is put into time order by exchanging the two words of every pair exactly where `swap = 1`; in
each pair the second stored word then comes first; an even block keeps its length, and swapping twice gives it back. -/
def Obligations.SwapOrder : Prop :=
  (∀ (s : State) (w : List Half), (s.swap = true → timeOrder s w = swapPairs w) ∧ (s.swap = false → timeOrder s w = w)) ∧
  (∀ w : List Half, w.length % 2 = 0 →
    (swapPairs w).length = w.length ∧ swapPairs (swapPairs w) = w ∧
      ∀ i, 2 * i + 1 < w.length → (swapPairs w)[2 * i]? = w[2 * i + 1]? ∧ (swapPairs w)[2 * i + 1]? = w[2 * i]?)

/-- The round trip (R230): packing what was unpacked gives the same bytes at every depth, and at depth 12 unpacking what
was packed gives the same samples. -/
def Obligations.PackRoundTrip : Prop :=
  (∀ out : List Byte, packTwo (unpackTwo out) = out ∧ packFour (unpackFour out) = out ∧
    packEight (unpackEight out) = out ∧ (out.length % 3 = 0 → packTwelve (unpackTwelve out) = out)) ∧
  (∀ a : List Sample, a.length % 2 = 0 → unpackTwelve (packTwelve a) = a)

/-- Which words the trigger examines (R171) and the comparator (R172): `B[t], B[t+C], ...`, one for each scan, compared
unsigned and strictly on the low 12 bits. -/
def Obligations.ExaminedWordsAndComparator : Prop :=
  ∀ (s : State) (block : List Half) (w : Half), block.length = s.spp.toNat →
    (cfgTrigChannel s).toNat < s.chans.toNat →
    (examinedWords s block).length = s.spp.toNat / s.chans.toNat ∧
      (∀ j, j < s.spp.toNat / s.chans.toNat →
        (examinedWords s block)[j]? = block[j * s.chans.toNat + (cfgTrigChannel s).toNat]?) ∧
      above s w = decide ((cfgTrigLevel s).toNat < w.toNat % 4096)

/-- What the host reads in the header of a packet produced while engaged (R108, R97 to R99): the channels in use, the
depth, the frequency code's low nibble, and the sequence number. -/
def Obligations.HeaderTellsHost : Prop :=
  ∀ (idx val : Half) (s : State), CanIngest s → LatchInvariant s →
    ∃ t, exec (.ingest idx val) s = .next t ∧
      (let at_ := fun j => slotByte t (64 * s.produceAt + j)
       seqOf (at_ 0) = s.seq ∧ hostChannels (at_ 2 ++ at_ 1) = channelList (usedMask s) ∧
         (hostDepth (at_ 3)).toNat = (cfgDepth s).toNat ∧ (hostFreq (at_ 3)).toNat = (cfgFreq s).toNat % 16)

/-- The host's loss formula (R108): after `k` dropped packets, `k` below 128, it counts `k`, also across the wrap of the
sequence, and the restart flag resets the count. -/
def Obligations.LossFormulaCountsDrops : Prop :=
  ∀ (last : BitVec 7) (k : Nat), k < 128 →
    hostLoss last (0#1 ++ (last + 1 + BitVec.ofNat 7 k)) = some k ∧
      hostLoss last (1#1 ++ (last + 1 + BitVec.ofNat 7 k)) = none
end

