-- ==== Sys2Proof/Laws/Arbiter.lean ====
section
/-! SUPPORT. The arbiter's choice among the pending events (R294). -/

namespace Sys2Proof.Machine

theorem priority_le (r : Request) : priority r ≤ 3 := by
  unfold priority; split <;> omega

/-- takeClass takes an event of its class, leaves the others, and finds one where there is one. -/
theorem takeClass_spec (p : Nat) (l : List Request) :
    (∀ r rest, takeClass p l = some (r, rest) → priority r = p ∧ l.Perm (r :: rest)) ∧
      (takeClass p l = none → ∀ r ∈ l, priority r ≠ p) := by
  induction l with
  | nil => simp [takeClass]
  | cons x xs ih =>
    constructor
    · intro r rest h
      simp only [takeClass] at h
      split at h
      · cases h; exact ⟨‹_›, .refl _⟩
      · split at h
        · rename_i y rs hy
          cases h
          have := ih.1 _ _ hy
          exact ⟨this.1, (this.2.cons x).trans (.swap ..)⟩
        · cases h
    · intro h r hr
      simp only [takeClass] at h
      split at h
      · cases h
      · split at h
        · cases h
        · rcases List.mem_cons.1 hr with rfl | hr
          · assumption
          · exact ih.2 ‹_› r hr

end Sys2Proof.Machine
end

