-- ==== Sys2Proof/Laws/State.lean ====
section
/-! SUPPORT. One lemma per field per update of State, for every unconditional update the machine has. -/

namespace Sys2Proof.Machine

/-! ### emit -/

@[simp] theorem emit_params (o : Output) (s : State) : (emit o s).params = s.params := rfl
@[simp] theorem emit_cfg (o : Output) (s : State) : (emit o s).cfg = s.cfg := rfl
@[simp] theorem emit_produceAt (o : Output) (s : State) : (emit o s).produceAt = s.produceAt := rfl
@[simp] theorem emit_sendFrom (o : Output) (s : State) : (emit o s).sendFrom = s.sendFrom := rfl
@[simp] theorem emit_seq (o : Output) (s : State) : (emit o s).seq = s.seq := rfl
@[simp] theorem emit_restartPending (o : Output) (s : State) : (emit o s).restartPending = s.restartPending := rfl
@[simp] theorem emit_txBusy (o : Output) (s : State) : (emit o s).txBusy = s.txBusy := rfl
@[simp] theorem emit_txStale (o : Output) (s : State) : (emit o s).txStale = s.txStale := rfl
@[simp] theorem emit_totalIn (o : Output) (s : State) : (emit o s).totalIn = s.totalIn := rfl
@[simp] theorem emit_totalOut (o : Output) (s : State) : (emit o s).totalOut = s.totalOut := rfl
@[simp] theorem emit_armed (o : Output) (s : State) : (emit o s).armed = s.armed := rfl
@[simp] theorem emit_fired (o : Output) (s : State) : (emit o s).fired = s.fired := rfl
@[simp] theorem emit_openBit (o : Output) (s : State) : (emit o s).openBit = s.openBit := rfl
@[simp] theorem emit_strobe (o : Output) (s : State) : (emit o s).strobe = s.strobe := rfl
@[simp] theorem emit_held (o : Output) (s : State) : (emit o s).held = s.held := rfl
@[simp] theorem emit_prevValid (o : Output) (s : State) : (emit o s).prevValid = s.prevValid := rfl
@[simp] theorem emit_prevAbove (o : Output) (s : State) : (emit o s).prevAbove = s.prevAbove := rfl
@[simp] theorem emit_engaged (o : Output) (s : State) : (emit o s).engaged = s.engaged := rfl
@[simp] theorem emit_rxAnchor (o : Output) (s : State) : (emit o s).rxAnchor = s.rxAnchor := rfl
@[simp] theorem emit_txAnchor (o : Output) (s : State) : (emit o s).txAnchor = s.txAnchor := rfl
@[simp] theorem emit_d (o : Output) (s : State) : (emit o s).d = s.d := rfl
@[simp] theorem emit_spp (o : Output) (s : State) : (emit o s).spp = s.spp := rfl
@[simp] theorem emit_chans (o : Output) (s : State) : (emit o s).chans = s.chans := rfl
@[simp] theorem emit_swap (o : Output) (s : State) : (emit o s).swap = s.swap := rfl
@[simp] theorem emit_hdrMask (o : Output) (s : State) : (emit o s).hdrMask = s.hdrMask := rfl
@[simp] theorem emit_hdrMode (o : Output) (s : State) : (emit o s).hdrMode = s.hdrMode := rfl
@[simp] theorem emit_slots (o : Output) (s : State) : (emit o s).slots = s.slots := rfl
@[simp] theorem emit_slotEpoch (o : Output) (s : State) : (emit o s).slotEpoch = s.slotEpoch := rfl
@[simp] theorem emit_operand (o : Output) (s : State) : (emit o s).operand = s.operand := rfl
@[simp] theorem emit_pending (o : Output) (s : State) : (emit o s).pending = s.pending := rfl
@[simp] theorem emit_arrivals (o : Output) (s : State) : (emit o s).arrivals = s.arrivals := rfl
@[simp] theorem emit_out (o : Output) (s : State) : (emit o s).out = s.out ++ [o] := rfl

/-! ### slotWrite -/

@[simp] theorem slotWrite_params (i : Nat) (p : List Byte) (s : State) : (slotWrite i p s).params = s.params := rfl
@[simp] theorem slotWrite_cfg (i : Nat) (p : List Byte) (s : State) : (slotWrite i p s).cfg = s.cfg := rfl
@[simp] theorem slotWrite_produceAt (i : Nat) (p : List Byte) (s : State) : (slotWrite i p s).produceAt = s.produceAt := rfl
@[simp] theorem slotWrite_sendFrom (i : Nat) (p : List Byte) (s : State) : (slotWrite i p s).sendFrom = s.sendFrom := rfl
@[simp] theorem slotWrite_seq (i : Nat) (p : List Byte) (s : State) : (slotWrite i p s).seq = s.seq := rfl
@[simp] theorem slotWrite_restartPending (i : Nat) (p : List Byte) (s : State) : (slotWrite i p s).restartPending = s.restartPending := rfl
@[simp] theorem slotWrite_txBusy (i : Nat) (p : List Byte) (s : State) : (slotWrite i p s).txBusy = s.txBusy := rfl
@[simp] theorem slotWrite_txStale (i : Nat) (p : List Byte) (s : State) : (slotWrite i p s).txStale = s.txStale := rfl
@[simp] theorem slotWrite_totalIn (i : Nat) (p : List Byte) (s : State) : (slotWrite i p s).totalIn = s.totalIn := rfl
@[simp] theorem slotWrite_totalOut (i : Nat) (p : List Byte) (s : State) : (slotWrite i p s).totalOut = s.totalOut := rfl
@[simp] theorem slotWrite_armed (i : Nat) (p : List Byte) (s : State) : (slotWrite i p s).armed = s.armed := rfl
@[simp] theorem slotWrite_fired (i : Nat) (p : List Byte) (s : State) : (slotWrite i p s).fired = s.fired := rfl
@[simp] theorem slotWrite_openBit (i : Nat) (p : List Byte) (s : State) : (slotWrite i p s).openBit = s.openBit := rfl
@[simp] theorem slotWrite_strobe (i : Nat) (p : List Byte) (s : State) : (slotWrite i p s).strobe = s.strobe := rfl
@[simp] theorem slotWrite_held (i : Nat) (p : List Byte) (s : State) : (slotWrite i p s).held = s.held := rfl
@[simp] theorem slotWrite_prevValid (i : Nat) (p : List Byte) (s : State) : (slotWrite i p s).prevValid = s.prevValid := rfl
@[simp] theorem slotWrite_prevAbove (i : Nat) (p : List Byte) (s : State) : (slotWrite i p s).prevAbove = s.prevAbove := rfl
@[simp] theorem slotWrite_engaged (i : Nat) (p : List Byte) (s : State) : (slotWrite i p s).engaged = s.engaged := rfl
@[simp] theorem slotWrite_rxAnchor (i : Nat) (p : List Byte) (s : State) : (slotWrite i p s).rxAnchor = s.rxAnchor := rfl
@[simp] theorem slotWrite_txAnchor (i : Nat) (p : List Byte) (s : State) : (slotWrite i p s).txAnchor = s.txAnchor := rfl
@[simp] theorem slotWrite_d (i : Nat) (p : List Byte) (s : State) : (slotWrite i p s).d = s.d := rfl
@[simp] theorem slotWrite_spp (i : Nat) (p : List Byte) (s : State) : (slotWrite i p s).spp = s.spp := rfl
@[simp] theorem slotWrite_chans (i : Nat) (p : List Byte) (s : State) : (slotWrite i p s).chans = s.chans := rfl
@[simp] theorem slotWrite_swap (i : Nat) (p : List Byte) (s : State) : (slotWrite i p s).swap = s.swap := rfl
@[simp] theorem slotWrite_hdrMask (i : Nat) (p : List Byte) (s : State) : (slotWrite i p s).hdrMask = s.hdrMask := rfl
@[simp] theorem slotWrite_hdrMode (i : Nat) (p : List Byte) (s : State) : (slotWrite i p s).hdrMode = s.hdrMode := rfl
@[simp] theorem slotWrite_slots (i : Nat) (p : List Byte) (s : State) : (slotWrite i p s).slots = Memory.writeAll s.slots (slotBase i) p := rfl
@[simp] theorem slotWrite_slotEpoch (i : Nat) (p : List Byte) (s : State) : (slotWrite i p s).slotEpoch = s.slotEpoch := rfl
@[simp] theorem slotWrite_operand (i : Nat) (p : List Byte) (s : State) : (slotWrite i p s).operand = s.operand := rfl
@[simp] theorem slotWrite_pending (i : Nat) (p : List Byte) (s : State) : (slotWrite i p s).pending = s.pending := rfl
@[simp] theorem slotWrite_arrivals (i : Nat) (p : List Byte) (s : State) : (slotWrite i p s).arrivals = s.arrivals := rfl
@[simp] theorem slotWrite_out (i : Nat) (p : List Byte) (s : State) : (slotWrite i p s).out = s.out := rfl

/-! ### memWrite2 -/

@[simp] theorem memWrite2_params (i : Nat) (v : Half) (s : State) (h : i + 1 < 27) : (memWrite2 i v s h).params = s.params := rfl
@[simp] theorem memWrite2_cfg (i : Nat) (v : Half) (s : State) (h : i + 1 < 27) : (memWrite2 i v s h).cfg = (s.cfg.set i (v.extractLsb' 0 8)).set (i + 1) (v.extractLsb' 8 8) := rfl
@[simp] theorem memWrite2_produceAt (i : Nat) (v : Half) (s : State) (h : i + 1 < 27) : (memWrite2 i v s h).produceAt = s.produceAt := rfl
@[simp] theorem memWrite2_sendFrom (i : Nat) (v : Half) (s : State) (h : i + 1 < 27) : (memWrite2 i v s h).sendFrom = s.sendFrom := rfl
@[simp] theorem memWrite2_seq (i : Nat) (v : Half) (s : State) (h : i + 1 < 27) : (memWrite2 i v s h).seq = s.seq := rfl
@[simp] theorem memWrite2_restartPending (i : Nat) (v : Half) (s : State) (h : i + 1 < 27) : (memWrite2 i v s h).restartPending = s.restartPending := rfl
@[simp] theorem memWrite2_txBusy (i : Nat) (v : Half) (s : State) (h : i + 1 < 27) : (memWrite2 i v s h).txBusy = s.txBusy := rfl
@[simp] theorem memWrite2_txStale (i : Nat) (v : Half) (s : State) (h : i + 1 < 27) : (memWrite2 i v s h).txStale = s.txStale := rfl
@[simp] theorem memWrite2_totalIn (i : Nat) (v : Half) (s : State) (h : i + 1 < 27) : (memWrite2 i v s h).totalIn = s.totalIn := rfl
@[simp] theorem memWrite2_totalOut (i : Nat) (v : Half) (s : State) (h : i + 1 < 27) : (memWrite2 i v s h).totalOut = s.totalOut := rfl
@[simp] theorem memWrite2_armed (i : Nat) (v : Half) (s : State) (h : i + 1 < 27) : (memWrite2 i v s h).armed = s.armed := rfl
@[simp] theorem memWrite2_fired (i : Nat) (v : Half) (s : State) (h : i + 1 < 27) : (memWrite2 i v s h).fired = s.fired := rfl
@[simp] theorem memWrite2_openBit (i : Nat) (v : Half) (s : State) (h : i + 1 < 27) : (memWrite2 i v s h).openBit = s.openBit := rfl
@[simp] theorem memWrite2_strobe (i : Nat) (v : Half) (s : State) (h : i + 1 < 27) : (memWrite2 i v s h).strobe = s.strobe := rfl
@[simp] theorem memWrite2_held (i : Nat) (v : Half) (s : State) (h : i + 1 < 27) : (memWrite2 i v s h).held = s.held := rfl
@[simp] theorem memWrite2_prevValid (i : Nat) (v : Half) (s : State) (h : i + 1 < 27) : (memWrite2 i v s h).prevValid = s.prevValid := rfl
@[simp] theorem memWrite2_prevAbove (i : Nat) (v : Half) (s : State) (h : i + 1 < 27) : (memWrite2 i v s h).prevAbove = s.prevAbove := rfl
@[simp] theorem memWrite2_engaged (i : Nat) (v : Half) (s : State) (h : i + 1 < 27) : (memWrite2 i v s h).engaged = s.engaged := rfl
@[simp] theorem memWrite2_rxAnchor (i : Nat) (v : Half) (s : State) (h : i + 1 < 27) : (memWrite2 i v s h).rxAnchor = s.rxAnchor := rfl
@[simp] theorem memWrite2_txAnchor (i : Nat) (v : Half) (s : State) (h : i + 1 < 27) : (memWrite2 i v s h).txAnchor = s.txAnchor := rfl
@[simp] theorem memWrite2_d (i : Nat) (v : Half) (s : State) (h : i + 1 < 27) : (memWrite2 i v s h).d = s.d := rfl
@[simp] theorem memWrite2_spp (i : Nat) (v : Half) (s : State) (h : i + 1 < 27) : (memWrite2 i v s h).spp = s.spp := rfl
@[simp] theorem memWrite2_chans (i : Nat) (v : Half) (s : State) (h : i + 1 < 27) : (memWrite2 i v s h).chans = s.chans := rfl
@[simp] theorem memWrite2_swap (i : Nat) (v : Half) (s : State) (h : i + 1 < 27) : (memWrite2 i v s h).swap = s.swap := rfl
@[simp] theorem memWrite2_hdrMask (i : Nat) (v : Half) (s : State) (h : i + 1 < 27) : (memWrite2 i v s h).hdrMask = s.hdrMask := rfl
@[simp] theorem memWrite2_hdrMode (i : Nat) (v : Half) (s : State) (h : i + 1 < 27) : (memWrite2 i v s h).hdrMode = s.hdrMode := rfl
@[simp] theorem memWrite2_slots (i : Nat) (v : Half) (s : State) (h : i + 1 < 27) : (memWrite2 i v s h).slots = s.slots := rfl
@[simp] theorem memWrite2_slotEpoch (i : Nat) (v : Half) (s : State) (h : i + 1 < 27) : (memWrite2 i v s h).slotEpoch = s.slotEpoch := rfl
@[simp] theorem memWrite2_operand (i : Nat) (v : Half) (s : State) (h : i + 1 < 27) : (memWrite2 i v s h).operand = s.operand := rfl
@[simp] theorem memWrite2_pending (i : Nat) (v : Half) (s : State) (h : i + 1 < 27) : (memWrite2 i v s h).pending = s.pending := rfl
@[simp] theorem memWrite2_arrivals (i : Nat) (v : Half) (s : State) (h : i + 1 < 27) : (memWrite2 i v s h).arrivals = s.arrivals := rfl
@[simp] theorem memWrite2_out (i : Nat) (v : Half) (s : State) (h : i + 1 < 27) : (memWrite2 i v s h).out = s.out := rfl

/-! ### disarm -/

@[simp] theorem disarm_params (s : State) : (disarm s).params = s.params := rfl
@[simp] theorem disarm_cfg (s : State) : (disarm s).cfg = s.cfg := rfl
@[simp] theorem disarm_produceAt (s : State) : (disarm s).produceAt = s.produceAt := rfl
@[simp] theorem disarm_sendFrom (s : State) : (disarm s).sendFrom = s.sendFrom := rfl
@[simp] theorem disarm_seq (s : State) : (disarm s).seq = s.seq := rfl
@[simp] theorem disarm_restartPending (s : State) : (disarm s).restartPending = false := rfl
@[simp] theorem disarm_txBusy (s : State) : (disarm s).txBusy = s.txBusy := rfl
@[simp] theorem disarm_txStale (s : State) : (disarm s).txStale = s.txStale := rfl
@[simp] theorem disarm_totalIn (s : State) : (disarm s).totalIn = s.totalIn := rfl
@[simp] theorem disarm_totalOut (s : State) : (disarm s).totalOut = s.totalOut := rfl
@[simp] theorem disarm_armed (s : State) : (disarm s).armed = false := rfl
@[simp] theorem disarm_fired (s : State) : (disarm s).fired = false := rfl
@[simp] theorem disarm_openBit (s : State) : (disarm s).openBit = false := rfl
@[simp] theorem disarm_strobe (s : State) : (disarm s).strobe = .idle := rfl
@[simp] theorem disarm_held (s : State) : (disarm s).held = 0 := rfl
@[simp] theorem disarm_prevValid (s : State) : (disarm s).prevValid = false := rfl
@[simp] theorem disarm_prevAbove (s : State) : (disarm s).prevAbove = false := rfl
@[simp] theorem disarm_engaged (s : State) : (disarm s).engaged = s.engaged := rfl
@[simp] theorem disarm_rxAnchor (s : State) : (disarm s).rxAnchor = s.rxAnchor := rfl
@[simp] theorem disarm_txAnchor (s : State) : (disarm s).txAnchor = s.txAnchor := rfl
@[simp] theorem disarm_d (s : State) : (disarm s).d = s.d := rfl
@[simp] theorem disarm_spp (s : State) : (disarm s).spp = s.spp := rfl
@[simp] theorem disarm_chans (s : State) : (disarm s).chans = s.chans := rfl
@[simp] theorem disarm_swap (s : State) : (disarm s).swap = s.swap := rfl
@[simp] theorem disarm_hdrMask (s : State) : (disarm s).hdrMask = s.hdrMask := rfl
@[simp] theorem disarm_hdrMode (s : State) : (disarm s).hdrMode = s.hdrMode := rfl
@[simp] theorem disarm_slots (s : State) : (disarm s).slots = s.slots := rfl
@[simp] theorem disarm_slotEpoch (s : State) : (disarm s).slotEpoch = s.slotEpoch := rfl
@[simp] theorem disarm_operand (s : State) : (disarm s).operand = s.operand := rfl
@[simp] theorem disarm_pending (s : State) : (disarm s).pending = s.pending := rfl
@[simp] theorem disarm_arrivals (s : State) : (disarm s).arrivals = s.arrivals := rfl
@[simp] theorem disarm_out (s : State) : (disarm s).out = s.out := rfl

/-! ### arm -/

@[simp] theorem arm_params (fresh : Bool) (s : State) : (arm fresh s).params = s.params := rfl
@[simp] theorem arm_cfg (fresh : Bool) (s : State) : (arm fresh s).cfg = s.cfg := rfl
@[simp] theorem arm_produceAt (fresh : Bool) (s : State) : (arm fresh s).produceAt = s.produceAt := rfl
@[simp] theorem arm_sendFrom (fresh : Bool) (s : State) : (arm fresh s).sendFrom = s.sendFrom := rfl
@[simp] theorem arm_seq (fresh : Bool) (s : State) : (arm fresh s).seq = s.seq := rfl
@[simp] theorem arm_restartPending (fresh : Bool) (s : State) : (arm fresh s).restartPending = false := rfl
@[simp] theorem arm_txBusy (fresh : Bool) (s : State) : (arm fresh s).txBusy = s.txBusy := rfl
@[simp] theorem arm_txStale (fresh : Bool) (s : State) : (arm fresh s).txStale = s.txStale := rfl
@[simp] theorem arm_totalIn (fresh : Bool) (s : State) : (arm fresh s).totalIn = s.totalIn := rfl
@[simp] theorem arm_totalOut (fresh : Bool) (s : State) : (arm fresh s).totalOut = s.totalOut := rfl
@[simp] theorem arm_armed (fresh : Bool) (s : State) : (arm fresh s).armed = (cfgCmd s == 2#8 || (cfgCmd s == 1#8 && fresh)) := rfl
@[simp] theorem arm_fired (fresh : Bool) (s : State) : (arm fresh s).fired = false := rfl
@[simp] theorem arm_openBit (fresh : Bool) (s : State) : (arm fresh s).openBit = false := rfl
@[simp] theorem arm_strobe (fresh : Bool) (s : State) : (arm fresh s).strobe = .idle := rfl
@[simp] theorem arm_held (fresh : Bool) (s : State) : (arm fresh s).held = 0 := rfl
@[simp] theorem arm_prevValid (fresh : Bool) (s : State) : (arm fresh s).prevValid = false := rfl
@[simp] theorem arm_prevAbove (fresh : Bool) (s : State) : (arm fresh s).prevAbove = false := rfl
@[simp] theorem arm_engaged (fresh : Bool) (s : State) : (arm fresh s).engaged = s.engaged := rfl
@[simp] theorem arm_rxAnchor (fresh : Bool) (s : State) : (arm fresh s).rxAnchor = s.totalIn := rfl
@[simp] theorem arm_txAnchor (fresh : Bool) (s : State) : (arm fresh s).txAnchor = s.totalOut := rfl
@[simp] theorem arm_d (fresh : Bool) (s : State) : (arm fresh s).d = s.d := rfl
@[simp] theorem arm_spp (fresh : Bool) (s : State) : (arm fresh s).spp = s.spp := rfl
@[simp] theorem arm_chans (fresh : Bool) (s : State) : (arm fresh s).chans = s.chans := rfl
@[simp] theorem arm_swap (fresh : Bool) (s : State) : (arm fresh s).swap = s.swap := rfl
@[simp] theorem arm_hdrMask (fresh : Bool) (s : State) : (arm fresh s).hdrMask = s.hdrMask := rfl
@[simp] theorem arm_hdrMode (fresh : Bool) (s : State) : (arm fresh s).hdrMode = s.hdrMode := rfl
@[simp] theorem arm_slots (fresh : Bool) (s : State) : (arm fresh s).slots = s.slots := rfl
@[simp] theorem arm_slotEpoch (fresh : Bool) (s : State) : (arm fresh s).slotEpoch = s.slotEpoch := rfl
@[simp] theorem arm_operand (fresh : Bool) (s : State) : (arm fresh s).operand = s.operand := rfl
@[simp] theorem arm_pending (fresh : Bool) (s : State) : (arm fresh s).pending = s.pending := rfl
@[simp] theorem arm_arrivals (fresh : Bool) (s : State) : (arm fresh s).arrivals = s.arrivals := rfl
@[simp] theorem arm_out (fresh : Bool) (s : State) : (arm fresh s).out = s.out := rfl

/-! ### fire -/

@[simp] theorem fire_params (s : State) : (fire s).params = s.params := rfl
@[simp] theorem fire_cfg (s : State) : (fire s).cfg = s.cfg := rfl
@[simp] theorem fire_produceAt (s : State) : (fire s).produceAt = s.produceAt := rfl
@[simp] theorem fire_sendFrom (s : State) : (fire s).sendFrom = ringBack s.params.ringSlots s.produceAt (rewindCount s) := rfl
@[simp] theorem fire_seq (s : State) : (fire s).seq = s.seq := rfl
@[simp] theorem fire_restartPending (s : State) : (fire s).restartPending = true := rfl
@[simp] theorem fire_txBusy (s : State) : (fire s).txBusy = s.txBusy := rfl
@[simp] theorem fire_txStale (s : State) : (fire s).txStale = s.txStale := rfl
@[simp] theorem fire_totalIn (s : State) : (fire s).totalIn = s.totalIn := rfl
@[simp] theorem fire_totalOut (s : State) : (fire s).totalOut = s.totalOut := rfl
@[simp] theorem fire_armed (s : State) : (fire s).armed = false := rfl
@[simp] theorem fire_fired (s : State) : (fire s).fired = true := rfl
@[simp] theorem fire_openBit (s : State) : (fire s).openBit = s.openBit := rfl
@[simp] theorem fire_strobe (s : State) : (fire s).strobe = s.strobe := rfl
@[simp] theorem fire_held (s : State) : (fire s).held = s.held := rfl
@[simp] theorem fire_prevValid (s : State) : (fire s).prevValid = s.prevValid := rfl
@[simp] theorem fire_prevAbove (s : State) : (fire s).prevAbove = s.prevAbove := rfl
@[simp] theorem fire_engaged (s : State) : (fire s).engaged = s.engaged := rfl
@[simp] theorem fire_rxAnchor (s : State) : (fire s).rxAnchor = s.totalIn := rfl
@[simp] theorem fire_txAnchor (s : State) : (fire s).txAnchor = s.totalOut := rfl
@[simp] theorem fire_d (s : State) : (fire s).d = s.d := rfl
@[simp] theorem fire_spp (s : State) : (fire s).spp = s.spp := rfl
@[simp] theorem fire_chans (s : State) : (fire s).chans = s.chans := rfl
@[simp] theorem fire_swap (s : State) : (fire s).swap = s.swap := rfl
@[simp] theorem fire_hdrMask (s : State) : (fire s).hdrMask = s.hdrMask := rfl
@[simp] theorem fire_hdrMode (s : State) : (fire s).hdrMode = s.hdrMode := rfl
@[simp] theorem fire_slots (s : State) : (fire s).slots = s.slots := rfl
@[simp] theorem fire_slotEpoch (s : State) : (fire s).slotEpoch = s.slotEpoch := rfl
@[simp] theorem fire_operand (s : State) : (fire s).operand = s.operand := rfl
@[simp] theorem fire_pending (s : State) : (fire s).pending = s.pending := rfl
@[simp] theorem fire_arrivals (s : State) : (fire s).arrivals = s.arrivals := rfl
@[simp] theorem fire_out (s : State) : (fire s).out = s.out := rfl

/-! ### producePacket -/

@[simp] theorem producePacket_params (b : List Half) (s : State) : (producePacket b s).params = s.params := rfl
@[simp] theorem producePacket_cfg (b : List Half) (s : State) : (producePacket b s).cfg = s.cfg := rfl
@[simp] theorem producePacket_produceAt (b : List Half) (s : State) : (producePacket b s).produceAt = s.produceAt := rfl
@[simp] theorem producePacket_sendFrom (b : List Half) (s : State) : (producePacket b s).sendFrom = s.sendFrom := rfl
@[simp] theorem producePacket_seq (b : List Half) (s : State) : (producePacket b s).seq = s.seq + 1 := rfl
@[simp] theorem producePacket_restartPending (b : List Half) (s : State) : (producePacket b s).restartPending = (s.restartPending && !takesFlag s) := rfl
@[simp] theorem producePacket_txBusy (b : List Half) (s : State) : (producePacket b s).txBusy = s.txBusy := rfl
@[simp] theorem producePacket_txStale (b : List Half) (s : State) : (producePacket b s).txStale = s.txStale := rfl
@[simp] theorem producePacket_totalIn (b : List Half) (s : State) : (producePacket b s).totalIn = s.totalIn + s.spp.setWidth 32 := rfl
@[simp] theorem producePacket_totalOut (b : List Half) (s : State) : (producePacket b s).totalOut = s.totalOut := rfl
@[simp] theorem producePacket_armed (b : List Half) (s : State) : (producePacket b s).armed = s.armed := rfl
@[simp] theorem producePacket_fired (b : List Half) (s : State) : (producePacket b s).fired = s.fired := rfl
@[simp] theorem producePacket_openBit (b : List Half) (s : State) : (producePacket b s).openBit = s.openBit := rfl
@[simp] theorem producePacket_strobe (b : List Half) (s : State) : (producePacket b s).strobe = s.strobe := rfl
@[simp] theorem producePacket_held (b : List Half) (s : State) : (producePacket b s).held = s.held := rfl
@[simp] theorem producePacket_prevValid (b : List Half) (s : State) : (producePacket b s).prevValid = s.prevValid := rfl
@[simp] theorem producePacket_prevAbove (b : List Half) (s : State) : (producePacket b s).prevAbove = s.prevAbove := rfl
@[simp] theorem producePacket_engaged (b : List Half) (s : State) : (producePacket b s).engaged = s.engaged := rfl
@[simp] theorem producePacket_rxAnchor (b : List Half) (s : State) : (producePacket b s).rxAnchor = s.rxAnchor := rfl
@[simp] theorem producePacket_txAnchor (b : List Half) (s : State) : (producePacket b s).txAnchor = s.txAnchor := rfl
@[simp] theorem producePacket_d (b : List Half) (s : State) : (producePacket b s).d = s.d := rfl
@[simp] theorem producePacket_spp (b : List Half) (s : State) : (producePacket b s).spp = s.spp := rfl
@[simp] theorem producePacket_chans (b : List Half) (s : State) : (producePacket b s).chans = s.chans := rfl
@[simp] theorem producePacket_swap (b : List Half) (s : State) : (producePacket b s).swap = s.swap := rfl
@[simp] theorem producePacket_hdrMask (b : List Half) (s : State) : (producePacket b s).hdrMask = s.hdrMask := rfl
@[simp] theorem producePacket_hdrMode (b : List Half) (s : State) : (producePacket b s).hdrMode = s.hdrMode := rfl
@[simp] theorem producePacket_slots (b : List Half) (s : State) : (producePacket b s).slots = Memory.writeAll s.slots (slotBase s.produceAt) (header (takesFlag s) s ++ encodeBlock s b) := rfl
@[simp] theorem producePacket_slotEpoch (b : List Half) (s : State) : (producePacket b s).slotEpoch = s.slotEpoch := rfl
@[simp] theorem producePacket_operand (b : List Half) (s : State) : (producePacket b s).operand = s.operand := rfl
@[simp] theorem producePacket_pending (b : List Half) (s : State) : (producePacket b s).pending = s.pending := rfl
@[simp] theorem producePacket_arrivals (b : List Half) (s : State) : (producePacket b s).arrivals = s.arrivals := rfl
@[simp] theorem producePacket_out (b : List Half) (s : State) : (producePacket b s).out = s.out := rfl

/-! ### accept -/

@[simp] theorem accept_params (r : Request) (rest : List Request) (s : State) : (accept r rest s).params = s.params := rfl
@[simp] theorem accept_cfg (r : Request) (rest : List Request) (s : State) : (accept r rest s).cfg = s.cfg := rfl
@[simp] theorem accept_produceAt (r : Request) (rest : List Request) (s : State) : (accept r rest s).produceAt = s.produceAt := rfl
@[simp] theorem accept_sendFrom (r : Request) (rest : List Request) (s : State) : (accept r rest s).sendFrom = s.sendFrom := rfl
@[simp] theorem accept_seq (r : Request) (rest : List Request) (s : State) : (accept r rest s).seq = s.seq := rfl
@[simp] theorem accept_restartPending (r : Request) (rest : List Request) (s : State) : (accept r rest s).restartPending = s.restartPending := rfl
@[simp] theorem accept_txBusy (r : Request) (rest : List Request) (s : State) : (accept r rest s).txBusy = s.txBusy := rfl
@[simp] theorem accept_txStale (r : Request) (rest : List Request) (s : State) : (accept r rest s).txStale = s.txStale := rfl
@[simp] theorem accept_totalIn (r : Request) (rest : List Request) (s : State) : (accept r rest s).totalIn = s.totalIn := rfl
@[simp] theorem accept_totalOut (r : Request) (rest : List Request) (s : State) : (accept r rest s).totalOut = s.totalOut := rfl
@[simp] theorem accept_armed (r : Request) (rest : List Request) (s : State) : (accept r rest s).armed = s.armed := rfl
@[simp] theorem accept_fired (r : Request) (rest : List Request) (s : State) : (accept r rest s).fired = s.fired := rfl
@[simp] theorem accept_openBit (r : Request) (rest : List Request) (s : State) : (accept r rest s).openBit = s.openBit := rfl
@[simp] theorem accept_strobe (r : Request) (rest : List Request) (s : State) : (accept r rest s).strobe = s.strobe := rfl
@[simp] theorem accept_held (r : Request) (rest : List Request) (s : State) : (accept r rest s).held = s.held := rfl
@[simp] theorem accept_prevValid (r : Request) (rest : List Request) (s : State) : (accept r rest s).prevValid = s.prevValid := rfl
@[simp] theorem accept_prevAbove (r : Request) (rest : List Request) (s : State) : (accept r rest s).prevAbove = s.prevAbove := rfl
@[simp] theorem accept_engaged (r : Request) (rest : List Request) (s : State) : (accept r rest s).engaged = s.engaged := rfl
@[simp] theorem accept_rxAnchor (r : Request) (rest : List Request) (s : State) : (accept r rest s).rxAnchor = s.rxAnchor := rfl
@[simp] theorem accept_txAnchor (r : Request) (rest : List Request) (s : State) : (accept r rest s).txAnchor = s.txAnchor := rfl
@[simp] theorem accept_d (r : Request) (rest : List Request) (s : State) : (accept r rest s).d = s.d := rfl
@[simp] theorem accept_spp (r : Request) (rest : List Request) (s : State) : (accept r rest s).spp = s.spp := rfl
@[simp] theorem accept_chans (r : Request) (rest : List Request) (s : State) : (accept r rest s).chans = s.chans := rfl
@[simp] theorem accept_swap (r : Request) (rest : List Request) (s : State) : (accept r rest s).swap = s.swap := rfl
@[simp] theorem accept_hdrMask (r : Request) (rest : List Request) (s : State) : (accept r rest s).hdrMask = s.hdrMask := rfl
@[simp] theorem accept_hdrMode (r : Request) (rest : List Request) (s : State) : (accept r rest s).hdrMode = s.hdrMode := rfl
@[simp] theorem accept_slots (r : Request) (rest : List Request) (s : State) : (accept r rest s).slots = s.slots := rfl
@[simp] theorem accept_slotEpoch (r : Request) (rest : List Request) (s : State) : (accept r rest s).slotEpoch = s.slotEpoch := rfl
@[simp] theorem accept_operand (r : Request) (rest : List Request) (s : State) : (accept r rest s).operand = r.operand := rfl
@[simp] theorem accept_pending (r : Request) (rest : List Request) (s : State) : (accept r rest s).pending = rest := rfl
@[simp] theorem accept_arrivals (r : Request) (rest : List Request) (s : State) : (accept r rest s).arrivals = s.arrivals := rfl
@[simp] theorem accept_out (r : Request) (rest : List Request) (s : State) : (accept r rest s).out = s.out := rfl

end Sys2Proof.Machine
end

