-- ==== Sys2Proof/Laws/Frames.lean ====
section
/-! SUPPORT. The frame of every conditional operation: one equation that says which fields it may change, and the simp
lemmas read off it. -/

namespace Sys2Proof.Machine


/-! ### markStale -/

/-- All that markStale can change. -/
theorem markStale_frame (s : State) :
    markStale s = { s with txStale := (markStale s).txStale } := by
  unfold markStale; split <;> rfl

@[simp] theorem markStale_params (s : State) : (markStale s).params = s.params := by rw [markStale_frame]
@[simp] theorem markStale_cfg (s : State) : (markStale s).cfg = s.cfg := by rw [markStale_frame]
@[simp] theorem markStale_produceAt (s : State) : (markStale s).produceAt = s.produceAt := by rw [markStale_frame]
@[simp] theorem markStale_sendFrom (s : State) : (markStale s).sendFrom = s.sendFrom := by rw [markStale_frame]
@[simp] theorem markStale_seq (s : State) : (markStale s).seq = s.seq := by rw [markStale_frame]
@[simp] theorem markStale_restartPending (s : State) : (markStale s).restartPending = s.restartPending := by rw [markStale_frame]
@[simp] theorem markStale_txBusy (s : State) : (markStale s).txBusy = s.txBusy := by rw [markStale_frame]
@[simp] theorem markStale_totalIn (s : State) : (markStale s).totalIn = s.totalIn := by rw [markStale_frame]
@[simp] theorem markStale_totalOut (s : State) : (markStale s).totalOut = s.totalOut := by rw [markStale_frame]
@[simp] theorem markStale_armed (s : State) : (markStale s).armed = s.armed := by rw [markStale_frame]
@[simp] theorem markStale_fired (s : State) : (markStale s).fired = s.fired := by rw [markStale_frame]
@[simp] theorem markStale_openBit (s : State) : (markStale s).openBit = s.openBit := by rw [markStale_frame]
@[simp] theorem markStale_strobe (s : State) : (markStale s).strobe = s.strobe := by rw [markStale_frame]
@[simp] theorem markStale_held (s : State) : (markStale s).held = s.held := by rw [markStale_frame]
@[simp] theorem markStale_prevValid (s : State) : (markStale s).prevValid = s.prevValid := by rw [markStale_frame]
@[simp] theorem markStale_prevAbove (s : State) : (markStale s).prevAbove = s.prevAbove := by rw [markStale_frame]
@[simp] theorem markStale_engaged (s : State) : (markStale s).engaged = s.engaged := by rw [markStale_frame]
@[simp] theorem markStale_rxAnchor (s : State) : (markStale s).rxAnchor = s.rxAnchor := by rw [markStale_frame]
@[simp] theorem markStale_txAnchor (s : State) : (markStale s).txAnchor = s.txAnchor := by rw [markStale_frame]
@[simp] theorem markStale_d (s : State) : (markStale s).d = s.d := by rw [markStale_frame]
@[simp] theorem markStale_spp (s : State) : (markStale s).spp = s.spp := by rw [markStale_frame]
@[simp] theorem markStale_chans (s : State) : (markStale s).chans = s.chans := by rw [markStale_frame]
@[simp] theorem markStale_swap (s : State) : (markStale s).swap = s.swap := by rw [markStale_frame]
@[simp] theorem markStale_hdrMask (s : State) : (markStale s).hdrMask = s.hdrMask := by rw [markStale_frame]
@[simp] theorem markStale_hdrMode (s : State) : (markStale s).hdrMode = s.hdrMode := by rw [markStale_frame]
@[simp] theorem markStale_slots (s : State) : (markStale s).slots = s.slots := by rw [markStale_frame]
@[simp] theorem markStale_slotEpoch (s : State) : (markStale s).slotEpoch = s.slotEpoch := by rw [markStale_frame]
@[simp] theorem markStale_operand (s : State) : (markStale s).operand = s.operand := by rw [markStale_frame]
@[simp] theorem markStale_pending (s : State) : (markStale s).pending = s.pending := by rw [markStale_frame]
@[simp] theorem markStale_arrivals (s : State) : (markStale s).arrivals = s.arrivals := by rw [markStale_frame]
@[simp] theorem markStale_out (s : State) : (markStale s).out = s.out := by rw [markStale_frame]

/-! ### openWindow -/

/-- All that openWindow can change. -/
theorem openWindow_frame (s : State) :
    openWindow s = { s with openBit := (openWindow s).openBit } := by
  unfold openWindow; split <;> rfl

@[simp] theorem openWindow_params (s : State) : (openWindow s).params = s.params := by rw [openWindow_frame]
@[simp] theorem openWindow_cfg (s : State) : (openWindow s).cfg = s.cfg := by rw [openWindow_frame]
@[simp] theorem openWindow_produceAt (s : State) : (openWindow s).produceAt = s.produceAt := by rw [openWindow_frame]
@[simp] theorem openWindow_sendFrom (s : State) : (openWindow s).sendFrom = s.sendFrom := by rw [openWindow_frame]
@[simp] theorem openWindow_seq (s : State) : (openWindow s).seq = s.seq := by rw [openWindow_frame]
@[simp] theorem openWindow_restartPending (s : State) : (openWindow s).restartPending = s.restartPending := by rw [openWindow_frame]
@[simp] theorem openWindow_txBusy (s : State) : (openWindow s).txBusy = s.txBusy := by rw [openWindow_frame]
@[simp] theorem openWindow_txStale (s : State) : (openWindow s).txStale = s.txStale := by rw [openWindow_frame]
@[simp] theorem openWindow_totalIn (s : State) : (openWindow s).totalIn = s.totalIn := by rw [openWindow_frame]
@[simp] theorem openWindow_totalOut (s : State) : (openWindow s).totalOut = s.totalOut := by rw [openWindow_frame]
@[simp] theorem openWindow_armed (s : State) : (openWindow s).armed = s.armed := by rw [openWindow_frame]
@[simp] theorem openWindow_fired (s : State) : (openWindow s).fired = s.fired := by rw [openWindow_frame]
@[simp] theorem openWindow_strobe (s : State) : (openWindow s).strobe = s.strobe := by rw [openWindow_frame]
@[simp] theorem openWindow_held (s : State) : (openWindow s).held = s.held := by rw [openWindow_frame]
@[simp] theorem openWindow_prevValid (s : State) : (openWindow s).prevValid = s.prevValid := by rw [openWindow_frame]
@[simp] theorem openWindow_prevAbove (s : State) : (openWindow s).prevAbove = s.prevAbove := by rw [openWindow_frame]
@[simp] theorem openWindow_engaged (s : State) : (openWindow s).engaged = s.engaged := by rw [openWindow_frame]
@[simp] theorem openWindow_rxAnchor (s : State) : (openWindow s).rxAnchor = s.rxAnchor := by rw [openWindow_frame]
@[simp] theorem openWindow_txAnchor (s : State) : (openWindow s).txAnchor = s.txAnchor := by rw [openWindow_frame]
@[simp] theorem openWindow_d (s : State) : (openWindow s).d = s.d := by rw [openWindow_frame]
@[simp] theorem openWindow_spp (s : State) : (openWindow s).spp = s.spp := by rw [openWindow_frame]
@[simp] theorem openWindow_chans (s : State) : (openWindow s).chans = s.chans := by rw [openWindow_frame]
@[simp] theorem openWindow_swap (s : State) : (openWindow s).swap = s.swap := by rw [openWindow_frame]
@[simp] theorem openWindow_hdrMask (s : State) : (openWindow s).hdrMask = s.hdrMask := by rw [openWindow_frame]
@[simp] theorem openWindow_hdrMode (s : State) : (openWindow s).hdrMode = s.hdrMode := by rw [openWindow_frame]
@[simp] theorem openWindow_slots (s : State) : (openWindow s).slots = s.slots := by rw [openWindow_frame]
@[simp] theorem openWindow_slotEpoch (s : State) : (openWindow s).slotEpoch = s.slotEpoch := by rw [openWindow_frame]
@[simp] theorem openWindow_operand (s : State) : (openWindow s).operand = s.operand := by rw [openWindow_frame]
@[simp] theorem openWindow_pending (s : State) : (openWindow s).pending = s.pending := by rw [openWindow_frame]
@[simp] theorem openWindow_arrivals (s : State) : (openWindow s).arrivals = s.arrivals := by rw [openWindow_frame]
@[simp] theorem openWindow_out (s : State) : (openWindow s).out = s.out := by rw [openWindow_frame]

/-! ### advance -/

/-- All that advance can change. -/
theorem advance_frame (s : State) :
    advance s = { s with produceAt := (advance s).produceAt } := by
  unfold advance; split <;> rfl

@[simp] theorem advance_params (s : State) : (advance s).params = s.params := by rw [advance_frame]
@[simp] theorem advance_cfg (s : State) : (advance s).cfg = s.cfg := by rw [advance_frame]
@[simp] theorem advance_sendFrom (s : State) : (advance s).sendFrom = s.sendFrom := by rw [advance_frame]
@[simp] theorem advance_seq (s : State) : (advance s).seq = s.seq := by rw [advance_frame]
@[simp] theorem advance_restartPending (s : State) : (advance s).restartPending = s.restartPending := by rw [advance_frame]
@[simp] theorem advance_txBusy (s : State) : (advance s).txBusy = s.txBusy := by rw [advance_frame]
@[simp] theorem advance_txStale (s : State) : (advance s).txStale = s.txStale := by rw [advance_frame]
@[simp] theorem advance_totalIn (s : State) : (advance s).totalIn = s.totalIn := by rw [advance_frame]
@[simp] theorem advance_totalOut (s : State) : (advance s).totalOut = s.totalOut := by rw [advance_frame]
@[simp] theorem advance_armed (s : State) : (advance s).armed = s.armed := by rw [advance_frame]
@[simp] theorem advance_fired (s : State) : (advance s).fired = s.fired := by rw [advance_frame]
@[simp] theorem advance_openBit (s : State) : (advance s).openBit = s.openBit := by rw [advance_frame]
@[simp] theorem advance_strobe (s : State) : (advance s).strobe = s.strobe := by rw [advance_frame]
@[simp] theorem advance_held (s : State) : (advance s).held = s.held := by rw [advance_frame]
@[simp] theorem advance_prevValid (s : State) : (advance s).prevValid = s.prevValid := by rw [advance_frame]
@[simp] theorem advance_prevAbove (s : State) : (advance s).prevAbove = s.prevAbove := by rw [advance_frame]
@[simp] theorem advance_engaged (s : State) : (advance s).engaged = s.engaged := by rw [advance_frame]
@[simp] theorem advance_rxAnchor (s : State) : (advance s).rxAnchor = s.rxAnchor := by rw [advance_frame]
@[simp] theorem advance_txAnchor (s : State) : (advance s).txAnchor = s.txAnchor := by rw [advance_frame]
@[simp] theorem advance_d (s : State) : (advance s).d = s.d := by rw [advance_frame]
@[simp] theorem advance_spp (s : State) : (advance s).spp = s.spp := by rw [advance_frame]
@[simp] theorem advance_chans (s : State) : (advance s).chans = s.chans := by rw [advance_frame]
@[simp] theorem advance_swap (s : State) : (advance s).swap = s.swap := by rw [advance_frame]
@[simp] theorem advance_hdrMask (s : State) : (advance s).hdrMask = s.hdrMask := by rw [advance_frame]
@[simp] theorem advance_hdrMode (s : State) : (advance s).hdrMode = s.hdrMode := by rw [advance_frame]
@[simp] theorem advance_slots (s : State) : (advance s).slots = s.slots := by rw [advance_frame]
@[simp] theorem advance_slotEpoch (s : State) : (advance s).slotEpoch = s.slotEpoch := by rw [advance_frame]
@[simp] theorem advance_operand (s : State) : (advance s).operand = s.operand := by rw [advance_frame]
@[simp] theorem advance_pending (s : State) : (advance s).pending = s.pending := by rw [advance_frame]
@[simp] theorem advance_arrivals (s : State) : (advance s).arrivals = s.arrivals := by rw [advance_frame]
@[simp] theorem advance_out (s : State) : (advance s).out = s.out := by rw [advance_frame]

/-! ### kick -/

/-- All that kick can change. -/
theorem kick_frame (s : State) :
    kick s = { s with txBusy := (kick s).txBusy, out := (kick s).out } := by
  unfold kick; split <;> rfl

@[simp] theorem kick_params (s : State) : (kick s).params = s.params := by rw [kick_frame]
@[simp] theorem kick_cfg (s : State) : (kick s).cfg = s.cfg := by rw [kick_frame]
@[simp] theorem kick_produceAt (s : State) : (kick s).produceAt = s.produceAt := by rw [kick_frame]
@[simp] theorem kick_sendFrom (s : State) : (kick s).sendFrom = s.sendFrom := by rw [kick_frame]
@[simp] theorem kick_seq (s : State) : (kick s).seq = s.seq := by rw [kick_frame]
@[simp] theorem kick_restartPending (s : State) : (kick s).restartPending = s.restartPending := by rw [kick_frame]
@[simp] theorem kick_txStale (s : State) : (kick s).txStale = s.txStale := by rw [kick_frame]
@[simp] theorem kick_totalIn (s : State) : (kick s).totalIn = s.totalIn := by rw [kick_frame]
@[simp] theorem kick_totalOut (s : State) : (kick s).totalOut = s.totalOut := by rw [kick_frame]
@[simp] theorem kick_armed (s : State) : (kick s).armed = s.armed := by rw [kick_frame]
@[simp] theorem kick_fired (s : State) : (kick s).fired = s.fired := by rw [kick_frame]
@[simp] theorem kick_openBit (s : State) : (kick s).openBit = s.openBit := by rw [kick_frame]
@[simp] theorem kick_strobe (s : State) : (kick s).strobe = s.strobe := by rw [kick_frame]
@[simp] theorem kick_held (s : State) : (kick s).held = s.held := by rw [kick_frame]
@[simp] theorem kick_prevValid (s : State) : (kick s).prevValid = s.prevValid := by rw [kick_frame]
@[simp] theorem kick_prevAbove (s : State) : (kick s).prevAbove = s.prevAbove := by rw [kick_frame]
@[simp] theorem kick_engaged (s : State) : (kick s).engaged = s.engaged := by rw [kick_frame]
@[simp] theorem kick_rxAnchor (s : State) : (kick s).rxAnchor = s.rxAnchor := by rw [kick_frame]
@[simp] theorem kick_txAnchor (s : State) : (kick s).txAnchor = s.txAnchor := by rw [kick_frame]
@[simp] theorem kick_d (s : State) : (kick s).d = s.d := by rw [kick_frame]
@[simp] theorem kick_spp (s : State) : (kick s).spp = s.spp := by rw [kick_frame]
@[simp] theorem kick_chans (s : State) : (kick s).chans = s.chans := by rw [kick_frame]
@[simp] theorem kick_swap (s : State) : (kick s).swap = s.swap := by rw [kick_frame]
@[simp] theorem kick_hdrMask (s : State) : (kick s).hdrMask = s.hdrMask := by rw [kick_frame]
@[simp] theorem kick_hdrMode (s : State) : (kick s).hdrMode = s.hdrMode := by rw [kick_frame]
@[simp] theorem kick_slots (s : State) : (kick s).slots = s.slots := by rw [kick_frame]
@[simp] theorem kick_slotEpoch (s : State) : (kick s).slotEpoch = s.slotEpoch := by rw [kick_frame]
@[simp] theorem kick_operand (s : State) : (kick s).operand = s.operand := by rw [kick_frame]
@[simp] theorem kick_pending (s : State) : (kick s).pending = s.pending := by rw [kick_frame]
@[simp] theorem kick_arrivals (s : State) : (kick s).arrivals = s.arrivals := by rw [kick_frame]

/-! ### endBurst -/

/-- All that endBurst can change. -/
theorem endBurst_frame (s : State) :
    endBurst s = { s with armed := (endBurst s).armed, fired := (endBurst s).fired, openBit := (endBurst s).openBit, strobe := (endBurst s).strobe, held := (endBurst s).held, prevValid := (endBurst s).prevValid, prevAbove := (endBurst s).prevAbove, restartPending := (endBurst s).restartPending, rxAnchor := (endBurst s).rxAnchor, txAnchor := (endBurst s).txAnchor } := by
  unfold endBurst; split <;> rfl

@[simp] theorem endBurst_params (s : State) : (endBurst s).params = s.params := by rw [endBurst_frame]
@[simp] theorem endBurst_cfg (s : State) : (endBurst s).cfg = s.cfg := by rw [endBurst_frame]
@[simp] theorem endBurst_produceAt (s : State) : (endBurst s).produceAt = s.produceAt := by rw [endBurst_frame]
@[simp] theorem endBurst_sendFrom (s : State) : (endBurst s).sendFrom = s.sendFrom := by rw [endBurst_frame]
@[simp] theorem endBurst_seq (s : State) : (endBurst s).seq = s.seq := by rw [endBurst_frame]
@[simp] theorem endBurst_txBusy (s : State) : (endBurst s).txBusy = s.txBusy := by rw [endBurst_frame]
@[simp] theorem endBurst_txStale (s : State) : (endBurst s).txStale = s.txStale := by rw [endBurst_frame]
@[simp] theorem endBurst_totalIn (s : State) : (endBurst s).totalIn = s.totalIn := by rw [endBurst_frame]
@[simp] theorem endBurst_totalOut (s : State) : (endBurst s).totalOut = s.totalOut := by rw [endBurst_frame]
@[simp] theorem endBurst_engaged (s : State) : (endBurst s).engaged = s.engaged := by rw [endBurst_frame]
@[simp] theorem endBurst_d (s : State) : (endBurst s).d = s.d := by rw [endBurst_frame]
@[simp] theorem endBurst_spp (s : State) : (endBurst s).spp = s.spp := by rw [endBurst_frame]
@[simp] theorem endBurst_chans (s : State) : (endBurst s).chans = s.chans := by rw [endBurst_frame]
@[simp] theorem endBurst_swap (s : State) : (endBurst s).swap = s.swap := by rw [endBurst_frame]
@[simp] theorem endBurst_hdrMask (s : State) : (endBurst s).hdrMask = s.hdrMask := by rw [endBurst_frame]
@[simp] theorem endBurst_hdrMode (s : State) : (endBurst s).hdrMode = s.hdrMode := by rw [endBurst_frame]
@[simp] theorem endBurst_slots (s : State) : (endBurst s).slots = s.slots := by rw [endBurst_frame]
@[simp] theorem endBurst_slotEpoch (s : State) : (endBurst s).slotEpoch = s.slotEpoch := by rw [endBurst_frame]
@[simp] theorem endBurst_operand (s : State) : (endBurst s).operand = s.operand := by rw [endBurst_frame]
@[simp] theorem endBurst_pending (s : State) : (endBurst s).pending = s.pending := by rw [endBurst_frame]
@[simp] theorem endBurst_arrivals (s : State) : (endBurst s).arrivals = s.arrivals := by rw [endBurst_frame]
@[simp] theorem endBurst_out (s : State) : (endBurst s).out = s.out := by rw [endBurst_frame]

/-! ### arrive -/

/-- All that arrive can change. -/
theorem arrive_frame (s : State) :
    arrive s = { s with pending := (arrive s).pending, arrivals := (arrive s).arrivals } := by
  unfold arrive; split <;> rfl

@[simp] theorem arrive_params (s : State) : (arrive s).params = s.params := by rw [arrive_frame]
@[simp] theorem arrive_cfg (s : State) : (arrive s).cfg = s.cfg := by rw [arrive_frame]
@[simp] theorem arrive_produceAt (s : State) : (arrive s).produceAt = s.produceAt := by rw [arrive_frame]
@[simp] theorem arrive_sendFrom (s : State) : (arrive s).sendFrom = s.sendFrom := by rw [arrive_frame]
@[simp] theorem arrive_seq (s : State) : (arrive s).seq = s.seq := by rw [arrive_frame]
@[simp] theorem arrive_restartPending (s : State) : (arrive s).restartPending = s.restartPending := by rw [arrive_frame]
@[simp] theorem arrive_txBusy (s : State) : (arrive s).txBusy = s.txBusy := by rw [arrive_frame]
@[simp] theorem arrive_txStale (s : State) : (arrive s).txStale = s.txStale := by rw [arrive_frame]
@[simp] theorem arrive_totalIn (s : State) : (arrive s).totalIn = s.totalIn := by rw [arrive_frame]
@[simp] theorem arrive_totalOut (s : State) : (arrive s).totalOut = s.totalOut := by rw [arrive_frame]
@[simp] theorem arrive_armed (s : State) : (arrive s).armed = s.armed := by rw [arrive_frame]
@[simp] theorem arrive_fired (s : State) : (arrive s).fired = s.fired := by rw [arrive_frame]
@[simp] theorem arrive_openBit (s : State) : (arrive s).openBit = s.openBit := by rw [arrive_frame]
@[simp] theorem arrive_strobe (s : State) : (arrive s).strobe = s.strobe := by rw [arrive_frame]
@[simp] theorem arrive_held (s : State) : (arrive s).held = s.held := by rw [arrive_frame]
@[simp] theorem arrive_prevValid (s : State) : (arrive s).prevValid = s.prevValid := by rw [arrive_frame]
@[simp] theorem arrive_prevAbove (s : State) : (arrive s).prevAbove = s.prevAbove := by rw [arrive_frame]
@[simp] theorem arrive_engaged (s : State) : (arrive s).engaged = s.engaged := by rw [arrive_frame]
@[simp] theorem arrive_rxAnchor (s : State) : (arrive s).rxAnchor = s.rxAnchor := by rw [arrive_frame]
@[simp] theorem arrive_txAnchor (s : State) : (arrive s).txAnchor = s.txAnchor := by rw [arrive_frame]
@[simp] theorem arrive_d (s : State) : (arrive s).d = s.d := by rw [arrive_frame]
@[simp] theorem arrive_spp (s : State) : (arrive s).spp = s.spp := by rw [arrive_frame]
@[simp] theorem arrive_chans (s : State) : (arrive s).chans = s.chans := by rw [arrive_frame]
@[simp] theorem arrive_swap (s : State) : (arrive s).swap = s.swap := by rw [arrive_frame]
@[simp] theorem arrive_hdrMask (s : State) : (arrive s).hdrMask = s.hdrMask := by rw [arrive_frame]
@[simp] theorem arrive_hdrMode (s : State) : (arrive s).hdrMode = s.hdrMode := by rw [arrive_frame]
@[simp] theorem arrive_slots (s : State) : (arrive s).slots = s.slots := by rw [arrive_frame]
@[simp] theorem arrive_slotEpoch (s : State) : (arrive s).slotEpoch = s.slotEpoch := by rw [arrive_frame]
@[simp] theorem arrive_operand (s : State) : (arrive s).operand = s.operand := by rw [arrive_frame]
@[simp] theorem arrive_out (s : State) : (arrive s).out = s.out := by rw [arrive_frame]

/-! ### examine and scanSamples -/

/-- StrobeStep writes only the strobe sub-state (R33). -/
theorem strobeStep_frame (a b : Bool) (s : State) :
    (strobeStep a b s).2 = { s with strobe := (strobeStep a b s).2.strobe, held := (strobeStep a b s).2.held } := by
  unfold strobeStep; repeat' split
  all_goals rfl

theorem cond_frame (m : Byte) (s : State) (ab : Bool) :
    (cond m s ab).2 = { s with strobe := (cond m s ab).2.strobe, held := (cond m s ab).2.held } := by
  unfold cond condStrobeLo condStrobeHi; split
  all_goals first | rfl | exact strobeStep_frame ..

theorem examine_frame (w : Half) (s : State) :
    (examine w s).2 = { s with strobe := (examine w s).2.strobe, held := (examine w s).2.held, prevValid := true, prevAbove := above s w } := by
  have h := cond_frame (cfgTrigMode s) s (above s w)
  unfold examine
  simp only
  rw [h]

/-! ### scanSamples -/

/-- All that scanSamples can change. -/
theorem scanSamples_frame (ws : List Half) (s : State) :
    scanSamples ws s = { s with armed := (scanSamples ws s).armed, fired := (scanSamples ws s).fired, rxAnchor := (scanSamples ws s).rxAnchor, txAnchor := (scanSamples ws s).txAnchor, restartPending := (scanSamples ws s).restartPending, sendFrom := (scanSamples ws s).sendFrom, strobe := (scanSamples ws s).strobe, held := (scanSamples ws s).held, prevValid := (scanSamples ws s).prevValid, prevAbove := (scanSamples ws s).prevAbove } := by
  induction ws generalizing s with
  | nil => rfl
  | cons w ws ih =>
    simp only [scanSamples]
    have h := examine_frame w s
    split
    · rw [h]; rfl
    · have h2 := ih (examine w s).2
      rw [h2, h]

@[simp] theorem scanSamples_params (ws : List Half) (s : State) : (scanSamples ws s).params = s.params := by rw [scanSamples_frame]
@[simp] theorem scanSamples_cfg (ws : List Half) (s : State) : (scanSamples ws s).cfg = s.cfg := by rw [scanSamples_frame]
@[simp] theorem scanSamples_produceAt (ws : List Half) (s : State) : (scanSamples ws s).produceAt = s.produceAt := by rw [scanSamples_frame]
@[simp] theorem scanSamples_seq (ws : List Half) (s : State) : (scanSamples ws s).seq = s.seq := by rw [scanSamples_frame]
@[simp] theorem scanSamples_txBusy (ws : List Half) (s : State) : (scanSamples ws s).txBusy = s.txBusy := by rw [scanSamples_frame]
@[simp] theorem scanSamples_txStale (ws : List Half) (s : State) : (scanSamples ws s).txStale = s.txStale := by rw [scanSamples_frame]
@[simp] theorem scanSamples_totalIn (ws : List Half) (s : State) : (scanSamples ws s).totalIn = s.totalIn := by rw [scanSamples_frame]
@[simp] theorem scanSamples_totalOut (ws : List Half) (s : State) : (scanSamples ws s).totalOut = s.totalOut := by rw [scanSamples_frame]
@[simp] theorem scanSamples_openBit (ws : List Half) (s : State) : (scanSamples ws s).openBit = s.openBit := by rw [scanSamples_frame]
@[simp] theorem scanSamples_engaged (ws : List Half) (s : State) : (scanSamples ws s).engaged = s.engaged := by rw [scanSamples_frame]
@[simp] theorem scanSamples_d (ws : List Half) (s : State) : (scanSamples ws s).d = s.d := by rw [scanSamples_frame]
@[simp] theorem scanSamples_spp (ws : List Half) (s : State) : (scanSamples ws s).spp = s.spp := by rw [scanSamples_frame]
@[simp] theorem scanSamples_chans (ws : List Half) (s : State) : (scanSamples ws s).chans = s.chans := by rw [scanSamples_frame]
@[simp] theorem scanSamples_swap (ws : List Half) (s : State) : (scanSamples ws s).swap = s.swap := by rw [scanSamples_frame]
@[simp] theorem scanSamples_hdrMask (ws : List Half) (s : State) : (scanSamples ws s).hdrMask = s.hdrMask := by rw [scanSamples_frame]
@[simp] theorem scanSamples_hdrMode (ws : List Half) (s : State) : (scanSamples ws s).hdrMode = s.hdrMode := by rw [scanSamples_frame]
@[simp] theorem scanSamples_slots (ws : List Half) (s : State) : (scanSamples ws s).slots = s.slots := by rw [scanSamples_frame]
@[simp] theorem scanSamples_slotEpoch (ws : List Half) (s : State) : (scanSamples ws s).slotEpoch = s.slotEpoch := by rw [scanSamples_frame]
@[simp] theorem scanSamples_operand (ws : List Half) (s : State) : (scanSamples ws s).operand = s.operand := by rw [scanSamples_frame]
@[simp] theorem scanSamples_pending (ws : List Half) (s : State) : (scanSamples ws s).pending = s.pending := by rw [scanSamples_frame]
@[simp] theorem scanSamples_arrivals (ws : List Half) (s : State) : (scanSamples ws s).arrivals = s.arrivals := by rw [scanSamples_frame]
@[simp] theorem scanSamples_out (ws : List Half) (s : State) : (scanSamples ws s).out = s.out := by rw [scanSamples_frame]

/-! ### evalArmed -/

/-- All that evalArmed can change. -/
theorem evalArmed_frame (b : List Half) (s : State) :
    evalArmed b s = { s with armed := (evalArmed b s).armed, fired := (evalArmed b s).fired, rxAnchor := (evalArmed b s).rxAnchor, txAnchor := (evalArmed b s).txAnchor, restartPending := (evalArmed b s).restartPending, sendFrom := (evalArmed b s).sendFrom, strobe := (evalArmed b s).strobe, held := (evalArmed b s).held, prevValid := (evalArmed b s).prevValid, prevAbove := (evalArmed b s).prevAbove } := by
  unfold evalArmed; split
  · rfl
  · split
    · exact scanSamples_frame ..
    · rfl

@[simp] theorem evalArmed_params (b : List Half) (s : State) : (evalArmed b s).params = s.params := by rw [evalArmed_frame]
@[simp] theorem evalArmed_cfg (b : List Half) (s : State) : (evalArmed b s).cfg = s.cfg := by rw [evalArmed_frame]
@[simp] theorem evalArmed_produceAt (b : List Half) (s : State) : (evalArmed b s).produceAt = s.produceAt := by rw [evalArmed_frame]
@[simp] theorem evalArmed_seq (b : List Half) (s : State) : (evalArmed b s).seq = s.seq := by rw [evalArmed_frame]
@[simp] theorem evalArmed_txBusy (b : List Half) (s : State) : (evalArmed b s).txBusy = s.txBusy := by rw [evalArmed_frame]
@[simp] theorem evalArmed_txStale (b : List Half) (s : State) : (evalArmed b s).txStale = s.txStale := by rw [evalArmed_frame]
@[simp] theorem evalArmed_totalIn (b : List Half) (s : State) : (evalArmed b s).totalIn = s.totalIn := by rw [evalArmed_frame]
@[simp] theorem evalArmed_totalOut (b : List Half) (s : State) : (evalArmed b s).totalOut = s.totalOut := by rw [evalArmed_frame]
@[simp] theorem evalArmed_openBit (b : List Half) (s : State) : (evalArmed b s).openBit = s.openBit := by rw [evalArmed_frame]
@[simp] theorem evalArmed_engaged (b : List Half) (s : State) : (evalArmed b s).engaged = s.engaged := by rw [evalArmed_frame]
@[simp] theorem evalArmed_d (b : List Half) (s : State) : (evalArmed b s).d = s.d := by rw [evalArmed_frame]
@[simp] theorem evalArmed_spp (b : List Half) (s : State) : (evalArmed b s).spp = s.spp := by rw [evalArmed_frame]
@[simp] theorem evalArmed_chans (b : List Half) (s : State) : (evalArmed b s).chans = s.chans := by rw [evalArmed_frame]
@[simp] theorem evalArmed_swap (b : List Half) (s : State) : (evalArmed b s).swap = s.swap := by rw [evalArmed_frame]
@[simp] theorem evalArmed_hdrMask (b : List Half) (s : State) : (evalArmed b s).hdrMask = s.hdrMask := by rw [evalArmed_frame]
@[simp] theorem evalArmed_hdrMode (b : List Half) (s : State) : (evalArmed b s).hdrMode = s.hdrMode := by rw [evalArmed_frame]
@[simp] theorem evalArmed_slots (b : List Half) (s : State) : (evalArmed b s).slots = s.slots := by rw [evalArmed_frame]
@[simp] theorem evalArmed_slotEpoch (b : List Half) (s : State) : (evalArmed b s).slotEpoch = s.slotEpoch := by rw [evalArmed_frame]
@[simp] theorem evalArmed_operand (b : List Half) (s : State) : (evalArmed b s).operand = s.operand := by rw [evalArmed_frame]
@[simp] theorem evalArmed_pending (b : List Half) (s : State) : (evalArmed b s).pending = s.pending := by rw [evalArmed_frame]
@[simp] theorem evalArmed_arrivals (b : List Half) (s : State) : (evalArmed b s).arrivals = s.arrivals := by rw [evalArmed_frame]
@[simp] theorem evalArmed_out (b : List Half) (s : State) : (evalArmed b s).out = s.out := by rw [evalArmed_frame]

/-! ### trigEval -/

/-- All that trigEval can change. -/
theorem trigEval_frame (b : List Half) (s : State) :
    trigEval b s = { s with armed := (trigEval b s).armed, fired := (trigEval b s).fired, rxAnchor := (trigEval b s).rxAnchor, txAnchor := (trigEval b s).txAnchor, restartPending := (trigEval b s).restartPending, sendFrom := (trigEval b s).sendFrom, strobe := (trigEval b s).strobe, held := (trigEval b s).held, prevValid := (trigEval b s).prevValid, prevAbove := (trigEval b s).prevAbove, openBit := (trigEval b s).openBit } := by
  unfold trigEval
  rw [openWindow_frame]
  split
  · rw [evalArmed_frame]
  · rfl

@[simp] theorem trigEval_params (b : List Half) (s : State) : (trigEval b s).params = s.params := by rw [trigEval_frame]
@[simp] theorem trigEval_cfg (b : List Half) (s : State) : (trigEval b s).cfg = s.cfg := by rw [trigEval_frame]
@[simp] theorem trigEval_produceAt (b : List Half) (s : State) : (trigEval b s).produceAt = s.produceAt := by rw [trigEval_frame]
@[simp] theorem trigEval_seq (b : List Half) (s : State) : (trigEval b s).seq = s.seq := by rw [trigEval_frame]
@[simp] theorem trigEval_txBusy (b : List Half) (s : State) : (trigEval b s).txBusy = s.txBusy := by rw [trigEval_frame]
@[simp] theorem trigEval_txStale (b : List Half) (s : State) : (trigEval b s).txStale = s.txStale := by rw [trigEval_frame]
@[simp] theorem trigEval_totalIn (b : List Half) (s : State) : (trigEval b s).totalIn = s.totalIn := by rw [trigEval_frame]
@[simp] theorem trigEval_totalOut (b : List Half) (s : State) : (trigEval b s).totalOut = s.totalOut := by rw [trigEval_frame]
@[simp] theorem trigEval_engaged (b : List Half) (s : State) : (trigEval b s).engaged = s.engaged := by rw [trigEval_frame]
@[simp] theorem trigEval_d (b : List Half) (s : State) : (trigEval b s).d = s.d := by rw [trigEval_frame]
@[simp] theorem trigEval_spp (b : List Half) (s : State) : (trigEval b s).spp = s.spp := by rw [trigEval_frame]
@[simp] theorem trigEval_chans (b : List Half) (s : State) : (trigEval b s).chans = s.chans := by rw [trigEval_frame]
@[simp] theorem trigEval_swap (b : List Half) (s : State) : (trigEval b s).swap = s.swap := by rw [trigEval_frame]
@[simp] theorem trigEval_hdrMask (b : List Half) (s : State) : (trigEval b s).hdrMask = s.hdrMask := by rw [trigEval_frame]
@[simp] theorem trigEval_hdrMode (b : List Half) (s : State) : (trigEval b s).hdrMode = s.hdrMode := by rw [trigEval_frame]
@[simp] theorem trigEval_slots (b : List Half) (s : State) : (trigEval b s).slots = s.slots := by rw [trigEval_frame]
@[simp] theorem trigEval_slotEpoch (b : List Half) (s : State) : (trigEval b s).slotEpoch = s.slotEpoch := by rw [trigEval_frame]
@[simp] theorem trigEval_operand (b : List Half) (s : State) : (trigEval b s).operand = s.operand := by rw [trigEval_frame]
@[simp] theorem trigEval_pending (b : List Half) (s : State) : (trigEval b s).pending = s.pending := by rw [trigEval_frame]
@[simp] theorem trigEval_arrivals (b : List Half) (s : State) : (trigEval b s).arrivals = s.arrivals := by rw [trigEval_frame]
@[simp] theorem trigEval_out (b : List Half) (s : State) : (trigEval b s).out = s.out := by rw [trigEval_frame]

end Sys2Proof.Machine
end

