-- ==== Sys2Proof/Laws/Memory.lean ====
section
/-! SUPPORT. The slot memory: read after write, the untouched addresses, and that every operation keeps the canonical
form. -/

namespace Sys2Proof.Machine

/-! ### One byte -/

theorem Memory.read_write (m : Memory) (a c : Nat) (b : Byte) :
    Memory.read (Memory.write m a b) c = if c = a then some b else Memory.read m c := by
  induction m with
  | nil =>
    simp only [Memory.write, Memory.read, eq_comm]
  | cons kv m ih =>
    obtain ⟨k, v⟩ := kv
    simp only [Memory.write]
    split
    · simp only [Memory.read, eq_comm]
    · split
      · subst a
        by_cases h : c = k
        · simp [Memory.read, h]
        · simp [Memory.read, h, Ne.symm h]
      · simp only [Memory.read]
        split
        · rw [if_neg (by omega)]
        · exact ih

theorem Memory.mem_write {m : Memory} {a : Nat} {b : Byte} {x : Host.Cell} (h : x ∈ Memory.write m a b) :
    x.1 = a ∨ x ∈ m := by
  induction m with
  | nil => simp [Memory.write] at h; exact .inl (by rw [h])
  | cons kv m ih =>
    obtain ⟨k, v⟩ := kv
    simp only [Memory.write] at h
    split at h
    · rcases List.mem_cons.1 h with h | h
      · exact .inl (by rw [h])
      · exact .inr h
    · split at h
      · rcases List.mem_cons.1 h with h | h
        · exact .inl (by rw [h])
        · exact .inr (List.mem_cons_of_mem _ h)
      · rcases List.mem_cons.1 h with h | h
        · exact .inr (by rw [h]; exact List.mem_cons_self)
        · exact (ih h).imp id (List.mem_cons_of_mem _)

theorem Memory.write_wf {m : Memory} (hm : Memory.wf m) (a : Nat) (b : Byte) : Memory.wf (Memory.write m a b) := by
  induction m with
  | nil => simp [Memory.write, Memory.wf]
  | cons kv m ih =>
    obtain ⟨k, v⟩ := kv
    obtain ⟨h1, h2⟩ := List.pairwise_cons.1 hm
    simp only [Memory.write]
    split
    · refine List.pairwise_cons.2 ⟨fun x hx => ?_, hm⟩
      rcases List.mem_cons.1 hx with rfl | hx
      · assumption
      · exact lt_trans ‹a < k› (h1 x hx)
    · split
      · subst a; exact List.pairwise_cons.2 ⟨h1, h2⟩
      · refine List.pairwise_cons.2 ⟨fun x hx => ?_, ih h2⟩
        rcases Memory.mem_write hx with h | h
        · show k < x.1
          omega
        · exact h1 x h

/-! ### A run of bytes -/

theorem Memory.read_writeAll (bs : List Byte) (m : Memory) (a c : Nat) :
    Memory.read (Memory.writeAll m a bs) c =
      if a ≤ c ∧ c < a + bs.length then bs[c - a]? else Memory.read m c := by
  induction bs generalizing m a with
  | nil => rw [if_neg (by simp)]; rfl
  | cons b bs ih =>
    simp only [Memory.writeAll, ih, Memory.read_write, List.length_cons]
    by_cases hc : c = a
    · subst hc; simp
    · by_cases h : a + 1 ≤ c ∧ c < a + 1 + bs.length
      · rw [if_pos h, if_pos (by omega)]
        obtain ⟨k, rfl⟩ : ∃ k, c = a + 1 + k := ⟨c - (a + 1), by omega⟩
        rw [show a + 1 + k - (a + 1) = k by omega, show a + 1 + k - a = k + 1 by omega]
        rfl
      · rw [if_neg h, if_neg hc, if_neg (by omega)]

theorem Memory.writeAll_wf (bs : List Byte) {m : Memory} (hm : Memory.wf m) (a : Nat) :
    Memory.wf (Memory.writeAll m a bs) := by
  induction bs generalizing m a with
  | nil => exact hm
  | cons b bs ih => exact ih (Memory.write_wf hm a b) (a + 1)

/-! ### Slots -/

/-- The byte read after a whole slot is written. -/
theorem slotByte_slotWrite (i : Nat) (p : List Byte) (s : State) (a : Nat) :
    slotByte (slotWrite i p s) a =
      if slotBase i ≤ a ∧ a < slotBase i + p.length then p[a - slotBase i]?.getD (Config.freeSlotByte s.slotEpoch a)
      else slotByte s a := by
  simp only [slotByte, slotWrite_slots, slotWrite_slotEpoch, Memory.read_writeAll]
  split <;> rfl

/-- The slot read depends only on the slot memory and its epoch. -/
theorem slotByte_congr {s t : State} (h1 : t.slots = s.slots) (h2 : t.slotEpoch = s.slotEpoch) (a : Nat) :
    slotByte t a = slotByte s a := by
  simp only [slotByte, h1, h2]

theorem slotRead_length (i : Nat) (s : State) : (slotRead i s).length = 64 := by simp [slotRead]

theorem slotWrite_wf (i : Nat) (p : List Byte) {s : State} (h : Memory.wf s.slots) : Memory.wf (slotWrite i p s).slots :=
  Memory.writeAll_wf p h _

end Sys2Proof.Machine
end

