-- ==== Sys2Proof/Laws/Ring.lean ====
section
/-! SUPPORT. The ring arithmetic, and one lemma for each operation of the ring that says once everything it can do. -/

namespace Sys2Proof.Machine

/-! ### Indices -/

theorem ringNext_lt {n i : Nat} (h : 2 ≤ n) : ringNext n i < n := Nat.mod_lt _ (by omega)

/-- One slot on, without the remainder. -/
theorem ringNext_eq {n i : Nat} (h : i < n) : ringNext n i = if i + 1 = n then 0 else i + 1 := by
  unfold ringNext
  split
  · rw [‹i + 1 = n›, Nat.mod_self]
  · exact Nat.mod_eq_of_lt (by omega)

theorem ringNext_ne {n i : Nat} (hn : 2 ≤ n) (h : i < n) : ringNext n i ≠ i := by
  rw [ringNext_eq h]; split <;> omega

theorem ringBack_lt {n i k : Nat} (h : 2 ≤ n) : ringBack n i k < n := by
  have h1 : (0 : Int) ≤ ((i : Int) - k) % n := Int.emod_nonneg _ (by omega)
  have h2 : ((i : Int) - k) % n < n := Int.emod_lt_of_pos _ (by omega)
  unfold ringBack; omega

/-- A few slots back, without the remainder. -/
theorem ringBack_eq {n i k : Nat} (h : i < n) (hk : k < n) :
    ringBack n i k = if k ≤ i then i - k else i + n - k := by
  unfold ringBack
  split
  · rw [Int.emod_eq_of_lt (by omega) (by omega)]; omega
  · rw [← Int.add_emod_right, Int.emod_eq_of_lt (by omega) (by omega)]; omega

theorem rewindCount_le (s : State) : rewindCount s ≤ s.params.ringSlots - 2 := by
  unfold rewindCount; split
  · exact min_le_right _ _
  · exact Nat.zero_le _

/-- After a rewind of at most N - 2 the slot after the firing block is not the oldest unsent one: the ring does not
look empty or full (R186). -/
theorem ringNext_ne_rewound {n i k : Nat} (hn : 2 ≤ n) (h : i < n) (hk : k ≤ n - 2) :
    ringNext n i ≠ ringBack n i k := by
  rw [ringNext_eq h, ringBack_eq h (by omega)]; split <;> split <;> omega

theorem indicesOk_iff (s : State) : indicesOk s = true ↔ IndicesInRing s := by
  simp [indicesOk]

/-! ### KICK -/

/-- Everything KICK can do (R257). -/
theorem kick_cases (s : State) :
    (winOpen s = true ∧ s.txBusy = false ∧ s.sendFrom ≠ s.produceAt ∧
      kick s = { s with txBusy := true, out := s.out ++ [.txstart s.sendFrom (slotRead s.sendFrom s)] }) ∨
    ((winOpen s = false ∨ s.txBusy = true ∨ s.sendFrom = s.produceAt) ∧ kick s = s) := by
  by_cases h : winOpen s = true ∧ s.txBusy = false ∧ s.sendFrom ≠ s.produceAt
  · refine .inl ⟨h.1, h.2.1, h.2.2, ?_⟩
    unfold kick
    rw [if_pos (by simp [h.1, h.2.1, isEmpty, h.2.2])]
    rfl
  · refine .inr ⟨?_, ?_⟩
    · by_contra hc
      simp only [not_or, Bool.not_eq_false, Bool.not_eq_true] at hc
      exact h hc
    · unfold kick
      rw [if_neg]
      simp only [Bool.and_eq_true, Bool.not_eq_true', isEmpty, beq_eq_false_iff_ne]
      tauto

theorem kick_winOpen (s : State) : winOpen (kick s) = winOpen s := by simp [winOpen]

/-! ### advance -/

/-- Everything the advance of INGEST can do (R255). -/
theorem advance_cases (s : State) :
    (advEn s = true ∧ ¬(nextSlot s = s.sendFrom ∧ s.txBusy = true) ∧ advance s = { s with produceAt := nextSlot s }) ∨
    ((advEn s = false ∨ (nextSlot s = s.sendFrom ∧ s.txBusy = true)) ∧ advance s = s) := by
  unfold advance
  split
  · rename_i h
    simp only [Bool.and_eq_true, stalled, isFull, Bool.not_eq_true', Bool.and_eq_false_iff, beq_eq_false_iff_ne] at h
    exact .inl ⟨h.1, by rintro ⟨h1, h2⟩; rcases h.2 with h | h <;> simp_all, rfl⟩
  · rename_i h
    simp only [Bool.and_eq_true, stalled, isFull, Bool.not_eq_true', Bool.and_eq_false_iff, beq_eq_false_iff_ne] at h
    refine .inr ⟨?_, rfl⟩
    by_cases ha : advEn s = true
    · refine .inr ⟨?_, ?_⟩
      · by_contra hc; exact h ⟨ha, .inl hc⟩
      · by_contra hc; exact h ⟨ha, .inr (by simpa using hc)⟩
    · exact .inl (by simpa using ha)

/-! ### The burst end -/

/-- Everything the burst test of TXDONE can do (R190). -/
theorem endBurst_cases (s : State) :
    (s.fired = true ∧ burstReached s = true ∧ endBurst s = arm false s) ∨
    ((s.fired = false ∨ burstReached s = false) ∧ endBurst s = s) := by
  unfold endBurst
  split
  · rename_i h; simp only [Bool.and_eq_true] at h; exact .inl ⟨h.1, h.2, rfl⟩
  · rename_i h
    simp only [Bool.and_eq_true] at h
    refine .inr ⟨?_, rfl⟩
    by_cases hf : s.fired = true
    · exact .inr (by by_contra hc; exact h ⟨hf, by simpa using hc⟩)
    · exact .inl (by simpa using hf)

end Sys2Proof.Machine
end

