-- ==== Sys2Proof/Laws/Mode.lean ====
section
/-! SUPPORT. The Mode Engine: what the configuration reads see after the derived mask is stored, the closed form of
MODE, and the channel counts it can reach. -/

namespace Sys2Proof.Machine

/-! ### Named fields -/

/-- Two states with the same configuration bytes read the same fields. -/
theorem cfg_congr {s t : State} (h : t.cfg = s.cfg) :
    cfgCmd t = cfgCmd s ∧ cfgChannels t = cfgChannels s ∧ cfgDepth t = cfgDepth s ∧ cfgFreq t = cfgFreq s ∧
      cfgOffset t = cfgOffset s ∧ cfgGain t = cfgGain s ∧ cfgSamples t = cfgSamples s ∧
      cfgTrigMode t = cfgTrigMode s ∧ cfgTrigChannel t = cfgTrigChannel s ∧ cfgTrigLevel t = cfgTrigLevel s ∧
      cfgTrigOffset t = cfgTrigOffset s ∧ cfgTrigTMin t = cfgTrigTMin s ∧ cfgTrigTMax t = cfgTrigTMax s ∧
      cfgUsedChannels t = cfgUsedChannels s := by
  simp only [cfgCmd, cfgChannels, cfgDepth, cfgFreq, cfgOffset, cfgGain, cfgSamples, cfgTrigMode, cfgTrigChannel,
    cfgTrigLevel, cfgTrigOffset, cfgTrigTMin, cfgTrigTMax, cfgUsedChannels, memRead1, memRead2, memRead4, h, and_self]

theorem usedMask_congr {s t : State} (h : t.cfg = s.cfg) : usedMask t = usedMask s := by
  simp only [usedMask, (cfg_congr h).2.1, (cfg_congr h).2.2.1]

theorem disengages_congr {s t : State} (h : t.cfg = s.cfg) (l : List Nat) : disengages l t = disengages l s := by
  simp only [disengages, (cfg_congr h).1, (cfg_congr h).2.2.1, (cfg_congr h).2.2.2.1]

/-- Storing the derived mask changes no field MODE reads. -/
theorem memWrite2_mask_reads (v : Half) (s : State) (h : 25 + 1 < 27) :
    cfgCmd (memWrite2 25 v s h) = cfgCmd s ∧ cfgChannels (memWrite2 25 v s h) = cfgChannels s ∧
      cfgDepth (memWrite2 25 v s h) = cfgDepth s ∧ cfgFreq (memWrite2 25 v s h) = cfgFreq s := by
  simp [cfgCmd, cfgChannels, cfgDepth, cfgFreq, memRead1, memRead2]

theorem memWrite2_mask_stored (v : Half) (s : State) (h : 25 + 1 < 27) :
    cfgUsedChannels (memWrite2 25 v s h) = v := by
  apply BitVec.eq_of_getLsbD_eq
  intro i hi
  simp only [cfgUsedChannels, memRead2, memWrite2_cfg, Vector.getElem_set, BitVec.getLsbD_append]
  by_cases hi8 : i < 8
  · simp [hi8]
  · simp [hi8, show 8 + (i - 8) = i by omega, show i - 8 < 8 by omega]

/-! ### MODE in closed form -/

theorem markStale_eq (s : State) : markStale s = { s with txStale := s.txStale || s.txBusy } := by
  cases h : s.txBusy <;> simp [markStale, h]
  rw [← h]

theorem memWrite2_25_eq (v : Half) (s : State) (h : 25 + 1 < 27) :
    memWrite2 25 v s h = { s with cfg := (s.cfg.set 25 (v.extractLsb' 0 8)).set 26 (v.extractLsb' 8 8) } := rfl

/-- The full path, with the three configuration bytes it reads taken out as arguments. -/
def modeOnWith (cmd freq depth : Byte) (used : BitVec 10) (list : List Nat) (t : State) : State :=
  let fast := list.length == 1 && freq == 1#8
  { t with
    engaged := true
    d := depth.extractLsb' 0 4
    spp := BitVec.ofNat 8 (480 / depth.toNat)
    chans := BitVec.ofNat 4 list.length
    swap := fast
    hdrMask := used.setWidth 16
    hdrMode := freq.extractLsb' 0 4 ++ depth.extractLsb' 0 4
    seq := 0, produceAt := 0, sendFrom := 0, totalIn := 0, totalOut := 0, rxAnchor := 0, txAnchor := 0
    armed := cmd == 2#8 || (cmd == 1#8 && true), fired := false, openBit := false, strobe := .idle, held := 0
    prevValid := false, prevAbove := false, restartPending := false
    out := (t.out ++ [.idle false]) ++ [.acqOn list (depth.extractLsb' 0 4) fast (sampleInterval freq list.length fast)] }

theorem modeOn_eq (used : BitVec 10) (list : List Nat) (t : State) :
    modeOn used list t = modeOnWith (cfgCmd t) (cfgFreq t) (cfgDepth t) used list t := rfl

/-- Not disengaging means a command of 1 or 2, a frequency other than off, one of the four depths and a channel
(R139). -/
theorem not_disengages {l : List Nat} {s : State} (h : disengages l s = false) :
    l ≠ [] ∧ (cfgCmd s = 1#8 ∨ cfgCmd s = 2#8) ∧ cfgFreq s ≠ 0#8 ∧ depthCode (cfgDepth s) = true := by
  simp only [disengages, Bool.or_eq_false_iff, Bool.not_eq_false', Bool.or_eq_true, beq_iff_eq, beq_eq_false_iff_ne,
    List.isEmpty_eq_false_iff] at h
  exact ⟨h.1.1.1, h.1.1.2, h.1.2, h.2⟩

/-- MODE on any configuration bytes is one of its two closed forms. -/
theorem modeEngine_eq (s : State) : modeEngine s = afterMode s s.cfg := by
  have hr := memWrite2_mask_reads ((usedMask s).setWidth 16) s (by decide)
  have hc := cfg_congr (markStale_cfg (memWrite2 25 ((usedMask s).setWidth 16) s))
  have hd : disengages (channelList (usedMask s)) (markStale (memWrite2 25 ((usedMask s).setWidth 16) s)) =
      bytesDisengage s s.cfg := by
    rw [disengages_congr (markStale_cfg _)]
    simp only [disengages, hr, bytesDisengage]
  unfold modeEngine afterMode
  simp only [hd]
  split
  · simp only [modeOff, markStale_eq, memWrite2_25_eq, emit, disarm, afterDisengage, withMask, List.append_assoc,
      List.cons_append, List.nil_append]
  · rename_i h
    have hcmd := (not_disengages (Bool.not_eq_true _ ▸ h : bytesDisengage s s.cfg = false)).2.1
    rw [modeOn_eq, hc.1, hc.2.2.1, hc.2.2.2.1, hr.1, hr.2.2.1, hr.2.2.2, markStale_eq, memWrite2_25_eq]
    have harm : (cfgCmd s == 2#8 || (cfgCmd s == 1#8 && true)) = true := by
      rcases hcmd with h | h <;> simp_all
    simp only [modeOnWith, afterFullMode, withMask, harm, List.append_assoc, List.cons_append, List.nil_append]

/-! ### The configuration after MODE -/

/-- Storing the mask leaves the bytes 0..24 (R138). -/
theorem withMask_getElem (b : Vector Byte 27) (m : BitVec 10) (i : Nat) (h : i < 25) :
    (withMask b m)[i]'(by omega) = b[i]'(by omega) := by
  simp only [withMask, Vector.getElem_set]
  rw [if_neg (by omega), if_neg (by omega)]

/-- The mask overwrites whatever the bytes 25 and 26 held (R138). -/
theorem withMask_congr {b b' : Vector Byte 27} (m : BitVec 10)
    (h : ∀ i (h : i < 25), b[i]'(by omega) = b'[i]'(by omega)) : withMask b m = withMask b' m := by
  apply Vector.ext
  intro i hi
  simp only [withMask, Vector.getElem_set]
  split
  · rfl
  · split
    · rfl
    · exact h i (by omega)

/-- What MODE derives depends on the bytes 0..4 alone. -/
theorem mode_reads_low {s t : State} (h : ∀ i (h : i < 5), t.cfg[i]'(by omega) = s.cfg[i]'(by omega)) :
    usedMask t = usedMask s ∧ cfgCmd t = cfgCmd s ∧ cfgDepth t = cfgDepth s ∧ cfgFreq t = cfgFreq s ∧
      ∀ l, disengages l t = disengages l s := by
  have h0 : cfgCmd t = cfgCmd s := h 0 (by decide)
  have h3 : cfgDepth t = cfgDepth s := h 3 (by decide)
  have h4 : cfgFreq t = cfgFreq s := h 4 (by decide)
  have h1 : cfgChannels t = cfgChannels s := by
    show t.cfg[2] ++ t.cfg[1] = s.cfg[2] ++ s.cfg[1]
    rw [h 1 (by decide), h 2 (by decide)]
  refine ⟨by simp only [usedMask, h1, h3], h0, h3, h4, fun l => by simp only [disengages, h0, h3, h4]⟩

theorem afterMode_cfg (s : State) (b : Vector Byte 27) :
    (afterMode s b).cfg = withMask b (usedMask { s with cfg := b }) := by
  unfold afterMode; split <;> rfl

/-- What MODE leaves alone on both paths, and the stale mark (R143). -/
theorem afterMode_frame (s : State) (b : Vector Byte 27) :
    (afterMode s b).txBusy = s.txBusy ∧ (afterMode s b).txStale = (s.txStale || s.txBusy) ∧
      (afterMode s b).slots = s.slots ∧ (afterMode s b).params = s.params ∧
      (afterMode s b).slotEpoch = s.slotEpoch ∧ (afterMode s b).operand = s.operand ∧
      (afterMode s b).pending = s.pending ∧ (afterMode s b).arrivals = s.arrivals := by
  unfold afterMode; split <;> exact ⟨rfl, rfl, rfl, rfl, rfl, rfl, rfl, rfl⟩

theorem afterMode_engaged (s : State) (b : Vector Byte 27) : (afterMode s b).engaged = !bytesDisengage s b := by
  unfold afterMode; split
  · rename_i h; rw [h]; rfl
  · rename_i h; rw [Bool.not_eq_true] at h; rw [h]; rfl

/-- Engaged after MODE means it took the full path (R134). -/
theorem afterMode_full {s : State} {b : Vector Byte 27} (h : (afterMode s b).engaged = true) :
    afterMode s b = afterFullMode s b ∧ bytesDisengage s b = false := by
  rw [afterMode_engaged, Bool.not_eq_true'] at h
  exact ⟨by rw [afterMode, if_neg (by rw [h]; simp)], h⟩

/-- The full path with everything MODE reads taken out as arguments: rewrite those, then compare the records. -/
theorem afterFullMode_eq (s : State) (b : Vector Byte 27) :
    afterFullMode s b = modeOnWith 2#8 (cfgFreq { s with cfg := b }) (cfgDepth { s with cfg := b })
      (usedMask { s with cfg := b }) (channelList (usedMask { s with cfg := b }))
      { s with cfg := withMask b (usedMask { s with cfg := b }), txStale := s.txStale || s.txBusy } := by
  simp only [afterFullMode, modeOnWith, List.append_assoc, List.cons_append, List.nil_append]; rfl

theorem stale_twice (a b : Bool) : ((a || b) || b) = (a || b) := by cases a <;> cases b <;> rfl

/-- The named trigger states are the legal flag combinations (R30, R59 (b)). -/
theorem namedState_of_legal {s : State} (h : TriggerFlagsLegal s) : NamedState s := by
  obtain ⟨h1, h2⟩ := h
  unfold NamedState Disarmed ArmedWaiting Delay Open
  generalize s.armed = a at *
  generalize s.fired = b at *
  generalize s.openBit = c at *
  revert a b c
  decide

end Sys2Proof.Machine
end

