-- ==== Sys2Proof/Laws/Channels.lean ====
section
/-! SUPPORT. Channel derivation (R135 to R137): the spare channel, the counts each step can leave, and that no requested
channel is lost. The facts about all 1024 masks are evaluated by the kernel. -/

namespace Sys2Proof.Machine

/-- The number of channels of a mask. -/
abbrev channelCount (m : BitVec 10) : Nat := (channelList m).length

/-- Channel `i` is in the list exactly where its bit is set. -/
theorem mem_channelList (m : BitVec 10) (i : Nat) : i ∈ channelList m ↔ m.getLsbD i = true := by
  simp only [channelList, List.mem_filter, List.mem_range]
  exact ⟨fun h => h.2, fun h => ⟨BitVec.lt_of_getLsbD h, h⟩⟩

/-- The spare is the largest unselected channel (R135). -/
theorem spareChannel_spec {m : BitVec 10} {i : Nat} (h : spareChannel m = some i) :
    i < 10 ∧ m.getLsbD i = false ∧ ∀ j, i < j → j < 10 → m.getLsbD j = true := by
  obtain ⟨hi, l₁, l₂, hl, hbefore⟩ := List.find?_eq_some_iff_append.1 h
  have hmem : i ∈ (List.range 10).reverse := List.mem_of_find?_eq_some h
  refine ⟨by simpa using hmem, by simpa using hi, fun j hij hj => ?_⟩
  have hj' : j ∈ l₁ ∨ j ∈ i :: l₂ := by
    have : j ∈ (List.range 10).reverse := by simpa using hj
    rw [hl] at this; exact List.mem_append.1 this
  rcases hj' with hj' | hj'
  · simpa using hbefore j hj'
  · have hs : ((List.range 10).reverse).Pairwise (· > ·) := by decide
    rw [hl] at hs
    have := (List.pairwise_append.1 hs).2.1
    rcases List.mem_cons.1 hj' with rfl | hj'
    · omega
    · have := (List.pairwise_cons.1 this).1 j hj'
      omega

/-- Adding the spare sets its bit and keeps every other (R136). -/
theorem addSpare_spec {m : BitVec 10} {i : Nat} (h : spareChannel m = some i) (j : Nat) :
    (addSpare m).getLsbD j = (m.getLsbD j || decide (j = i)) := by
  have hall : ∀ m : BitVec 10, ∀ i ∈ spareChannel m, addSpare m = m ||| (1#10 <<< i) := by decide +kernel
  have hi := (spareChannel_spec h).1
  rw [hall m i h, BitVec.getLsbD_or, BitVec.getLsbD_shiftLeft]
  by_cases hj : j = i
  · subst hj; simp [hi]
  · by_cases hlt : j < i
    · simp [hj, hlt]
    · simp [hj, hlt, show j - i ≠ 0 by omega]

theorem addSpare_keeps {m : BitVec 10} {j : Nat} (h : m.getLsbD j = true) : (addSpare m).getLsbD j = true := by
  cases hs : spareChannel m with
  | none => simpa [addSpare, hs] using h
  | some i => rw [addSpare_spec hs, h]; rfl

/-- The counts pairing leaves (R136). -/
theorem pairChannels_count (m : BitVec 10) : channelCount (pairChannels m) ∈ [0, 1, 2, 4, 6, 8, 10] := by
  have hall : ∀ m : BitVec 10, channelCount (pairChannels m) ∈ [0, 1, 2, 4, 6, 8, 10] := by decide +kernel
  exact hall m

/-- Moving off a bad combination adds two channels (R137). -/
theorem moveOff_count {m : BitVec 10} (h : channelCount m = 6 ∨ channelCount m = 8) :
    channelCount (pairChannels (addSpare m)) = channelCount m + 2 := by
  have hall : ∀ m : BitVec 10, channelCount m = 6 ∨ channelCount m = 8 →
      channelCount (pairChannels (addSpare m)) = channelCount m + 2 := by decide +kernel
  exact hall m h

theorem pairChannels_keeps {m : BitVec 10} {j : Nat} (h : m.getLsbD j = true) :
    (pairChannels m).getLsbD j = true := by
  unfold pairChannels; split
  · exact addSpare_keeps h
  · exact h

/-- The count of the derived mask: unchanged by step 4 unless the pair is bad, two more then. -/
theorem avoidBadCombo_count (depth : Byte) (m : BitVec 10) :
    ((depth.toNat, channelCount m) ∈ Config.badCombos ∧
      channelCount (avoidBadCombo depth m) = channelCount m + 2) ∨
    ((depth.toNat, channelCount m) ∉ Config.badCombos ∧ avoidBadCombo depth m = m) := by
  unfold avoidBadCombo
  split
  · rename_i h
    refine .inl ⟨h, moveOff_count ?_⟩
    simp only [Config.badCombos, List.mem_cons, Prod.mk.injEq, List.not_mem_nil, or_false] at h
    rcases h with h | h
    · exact .inr h.2
    · exact .inl h.2
  · exact .inr ⟨‹_›, rfl⟩

/-- For each of the four depths the derived count divides `spp` (R140). -/
theorem usedMask_divides {s : State} (hd : depthCode (cfgDepth s) = true) (hl : channelList (usedMask s) ≠ []) :
    480 / (cfgDepth s).toNat % channelCount (usedMask s) = 0 ∧ 1 ≤ channelCount (usedMask s) ∧
      channelCount (usedMask s) ≤ 10 := by
  have hd' : (cfgDepth s).toNat = 2 ∨ (cfgDepth s).toNat = 4 ∨ (cfgDepth s).toNat = 8 ∨ (cfgDepth s).toNat = 12 := by
    simpa [depthCode] using hd
  have hpos : 1 ≤ channelCount (usedMask s) := List.length_pos_iff.2 hl
  have hp := pairChannels_count ((cfgChannels s).extractLsb' 0 10)
  simp only [List.mem_cons, List.not_mem_nil, or_false] at hp
  unfold usedMask at hpos ⊢
  rcases avoidBadCombo_count (cfgDepth s) (pairChannels ((cfgChannels s).extractLsb' 0 10)) with ⟨hb, hc⟩ | ⟨hb, hc⟩
  · rw [hc]
    simp only [Config.badCombos, List.mem_cons, Prod.mk.injEq, List.not_mem_nil, or_false] at hb
    rcases hb with ⟨h1, h2⟩ | ⟨h1, h2⟩ <;> rw [h1, h2] <;> decide
  · rw [hc] at hpos ⊢
    simp only [Config.badCombos, List.mem_cons, Prod.mk.injEq, List.not_mem_nil, or_false, not_or, not_and] at hb
    rcases hd' with h | h | h | h <;> rw [h] at hb ⊢ <;>
      rcases hp with hp | hp | hp | hp | hp | hp | hp <;> rw [hp] at hb hpos ⊢ <;> simp at hb hpos ⊢

/-- A mask with a free channel has a spare (R135). -/
theorem spareChannel_some {m : BitVec 10} (h : channelCount m < 10) : ∃ i, spareChannel m = some i := by
  have hall : ∀ m : BitVec 10, channelCount m < 10 → (spareChannel m).isSome = true := by decide +kernel
  exact Option.isSome_iff_exists.1 (hall m h)

theorem channelCount_le (m : BitVec 10) : channelCount m ≤ 10 := by
  have hall : ∀ m : BitVec 10, channelCount m ≤ 10 := by decide +kernel
  exact hall m

/-- From a bad combination, pairing adds the second channel (R137). -/
theorem moveOff_step {m : BitVec 10} (h : channelCount m = 6 ∨ channelCount m = 8) :
    pairChannels (addSpare m) = addSpare (addSpare m) ∧ channelCount (addSpare m) < 10 := by
  have hall : ∀ m : BitVec 10, channelCount m = 6 ∨ channelCount m = 8 →
      pairChannels (addSpare m) = addSpare (addSpare m) ∧ channelCount (addSpare m) < 10 := by decide +kernel
  exact hall m h

theorem addsHighest_addSpare {m : BitVec 10} {i : Nat} (h : spareChannel m = some i) : AddsHighest m (addSpare m) := by
  obtain ⟨h1, h2, h3⟩ := spareChannel_spec h
  exact ⟨i, h1, h2, h3, addSpare_spec h⟩

end Sys2Proof.Machine
end

