-- ==== Sys2Proof/Laws/Trigger.lean ====
section
/-! SUPPORT. The Trigger Engine: everything an evaluation of a block can do, the samples it examines, and what the window
rule and FIRE see. -/

namespace Sys2Proof.Machine

/-! ### The window rule -/

/-- Everything the window rule can do (R187). -/
theorem openWindow_cases (s : State) :
    (s.fired = true ∧ s.openBit = false ∧ delayPassed s = true ∧ openWindow s = { s with openBit := true }) ∨
    ((s.fired = false ∨ s.openBit = true ∨ delayPassed s = false) ∧ openWindow s = s) := by
  unfold openWindow
  split
  · rename_i h
    simp only [Bool.and_eq_true, Bool.not_eq_true'] at h
    exact .inl ⟨h.1.1, h.1.2, h.2, rfl⟩
  · rename_i h
    simp only [Bool.and_eq_true, Bool.not_eq_true', not_and, Bool.not_eq_true] at h
    refine .inr ⟨?_, rfl⟩
    cases h1 : s.fired with
    | false => exact .inl rfl
    | true =>
      cases h2 : s.openBit with
      | true => exact .inr (.inl rfl)
      | false => exact .inr (.inr (h ⟨h1, h2⟩))

/-- The window test right after FIRE: it passes exactly for an offset of 0 or less (R187). -/
theorem delayPassed_fire (s : State) : delayPassed (fire s) = decide (cfgTrigOffset s ≤ 0) := by
  have h : cfgTrigOffset (fire s) = cfgTrigOffset s := rfl
  simp only [delayPassed, h, fire_totalIn, fire_rxAnchor, BitVec.sub_self, BitVec.toNat_zero]
  rw [decide_eq_decide]
  constructor
  · intro h; have := le_max_left (cfgTrigOffset s) 0; omega
  · intro h; rw [max_eq_right h]; omega

/-- Right after FIRE from a closed window (R183, R187). -/
theorem openWindow_fire {s : State} (h : s.openBit = false) :
    openWindow (fire s) = { fire s with openBit := decide (cfgTrigOffset s ≤ 0) } := by
  have hp := delayPassed_fire s
  rcases openWindow_cases (fire s) with ⟨_, _, h3, h4⟩ | ⟨h1, h2⟩
  · rw [h4, ← hp, h3]
  · have h3 : delayPassed (fire s) = false := by
      rcases h1 with h1 | h1 | h1
      · simp at h1
      · simp [h] at h1
      · exact h1
    rw [h2, ← hp, h3, ← h]
    rfl

/-! ### The scan -/

/-- `u` is `s` with other contents in the registers that examining a sample writes (R33, R34). -/
def Examined (s u : State) : Prop :=
  ∃ st h pv pa, u = { s with strobe := st, held := h, prevValid := pv, prevAbove := pa }

theorem Examined.refl (s : State) : Examined s s := ⟨s.strobe, s.held, s.prevValid, s.prevAbove, rfl⟩

theorem Examined.trans {s u v : State} (h1 : Examined s u) (h2 : Examined u v) : Examined s v := by
  obtain ⟨a, b, c, d, rfl⟩ := h1
  obtain ⟨a', b', c', d', rfl⟩ := h2
  exact ⟨a', b', c', d', rfl⟩

theorem examine_examined (w : Half) (s : State) : Examined s (examine w s).2 :=
  ⟨_, _, _, _, examine_frame w s⟩

/-- Everything a scan can do (R170, R182): it examines samples, and fires at most once, at its end. -/
theorem scanSamples_cases (ws : List Half) (s : State) :
    ∃ u, Examined s u ∧ (scanSamples ws s = u ∨ scanSamples ws s = fire u) := by
  induction ws generalizing s with
  | nil => exact ⟨s, .refl s, .inl rfl⟩
  | cons w ws ih =>
    simp only [scanSamples]
    split
    · exact ⟨_, examine_examined w s, .inr rfl⟩
    · obtain ⟨u, hu, hs⟩ := ih (examine w s).2
      exact ⟨u, (examine_examined w s).trans hu, hs⟩

/-- Everything TRIG_EVAL can do (R170, R192): with `armed = 0` only the window rule; armed, the window rule after
examining samples, perhaps with FIRE at the end. -/
theorem trigEval_cases (b : List Half) (s : State) :
    (s.armed = false ∧ trigEval b s = openWindow s) ∨
    (s.armed = true ∧ ∃ u, Examined s u ∧ (trigEval b s = openWindow u ∨ trigEval b s = openWindow (fire u))) := by
  unfold trigEval
  cases ha : s.armed with
  | false => exact .inl ⟨rfl, by simp⟩
  | true =>
    refine .inr ⟨rfl, ?_⟩
    simp only [if_true, evalArmed]
    split
    · exact ⟨s, .refl s, .inr rfl⟩
    · split
      · obtain ⟨u, hu, h | h⟩ := scanSamples_cases (examinedWords s b) s
        · exact ⟨u, hu, .inl (by rw [h])⟩
        · exact ⟨u, hu, .inr (by rw [h])⟩
      · exact ⟨s, .refl s, .inl rfl⟩

/-! ### The samples -/

theorem swapPairs_length (w : List Half) : (swapPairs w).length = w.length := by
  fun_induction swapPairs w <;> simp_all

/-- A block in time order has as many words (R221). -/
theorem timeOrder_length (s : State) (w : List Half) : (timeOrder s w).length = w.length := by
  unfold timeOrder; split
  · exact swapPairs_length w
  · rfl

/-- The examined words are `B[t], B[t+C], ...`, one for each whole scan (R171). -/
theorem channelWords_eq {block : List Half} {n c t : Nat} (hn : block.length = n) (ht : t < c) :
    channelWords block n c t = (List.range (n / c)).map (fun j => block.getD (j * c + t) 0) := by
  unfold channelWords
  rw [← List.filterMap_eq_map]
  apply List.filterMap_congr
  intro j hj
  have hj' : j < n / c := List.mem_range.1 hj
  have : j * c + t < block.length := by
    have h1 : (j + 1) * c ≤ n := le_trans (Nat.mul_le_mul_right c hj') (Nat.div_mul_le_self n c)
    have h2 : (j + 1) * c = j * c + c := Nat.succ_mul j c
    omega
  simp [List.getD, this]

theorem channelWords_length {block : List Half} {n c t : Nat} (hn : block.length = n) (ht : t < c) :
    (channelWords block n c t).length = n / c := by
  rw [channelWords_eq hn ht]; simp

/-! ### The block as a whole -/

/-- With `armed = 0` only the window rule runs (R192). -/
theorem trigEval_unarmed {s : State} (h : s.armed = false) (b : List Half) : trigEval b s = openWindow s := by
  unfold trigEval; rw [if_neg (by simp [h])]

/-- A fire in this block is what sets the restart flag pending (R183). -/
theorem trigEval_restart (b : List Half) (s : State) :
    (trigEval b s).restartPending = (s.restartPending || (s.armed && !(trigEval b s).armed)) := by
  rcases trigEval_cases b s with ⟨ha, h⟩ | ⟨ha, u, hu, h | h⟩
  · rw [h]; simp [ha]
  · obtain ⟨_, _, _, _, rfl⟩ := hu; rw [h]; simp [ha]
  · obtain ⟨_, _, _, _, rfl⟩ := hu; rw [h]; simp [ha]

/-- In the modes 1 to 5 a block fires where its scan does (R170). -/
theorem trigEval_fired {s : State} (h1 : ArmedWaiting s) (hc : (cfgTrigChannel s).toNat < s.chans.toNat)
    (hm : (cfgTrigMode s).toNat ∈ [1, 2, 3, 4, 5]) (b : List Half) :
    (trigEval b s).fired = (scanSamples (examinedWords s b) s).fired := by
  unfold trigEval evalArmed
  have h0 : cfgTrigMode s ≠ 0#8 := by intro h; rw [h] at hm; simp at hm
  rw [if_pos h1.1, if_neg h0, if_pos ⟨by simp at hm; omega, hc⟩, openWindow_fired]

/-- The rewind on integers (R185, R186). -/
theorem rewindCount_cast (s : State) (hn : 2 ≤ s.params.ringSlots) :
    ((rewindCount s : Nat) : Int) = if cfgTrigOffset s < 0 then
      min (-cfgTrigOffset s / (s.spp.toNat : Int)) ((s.params.ringSlots : Int) - 2) else 0 := by
  unfold rewindCount
  split
  · rename_i h
    have : ((-cfgTrigOffset s).toNat : Int) = -cfgTrigOffset s := Int.toNat_of_nonneg (by omega)
    rw [Nat.cast_min, Int.natCast_div, this]
    congr 1
    omega
  · rfl

/-- The comparator reads only the configuration (R172). -/
theorem above_congr {s t : State} (h : t.cfg = s.cfg) (w : Half) : above t w = above s w := by
  simp only [above, (cfg_congr h).2.2.2.2.2.2.2.2.2.1]

/-- A scan whose condition is a relation between the preceding comparison and this one fires where two neighbours stand
in the relation (R174, R175, R176, R180). -/
theorem scanSamples_edge (r : Bool → Bool → Bool) (ws : List Half) (s : State)
    (hr : ∀ (t : State) (w : Half), t.cfg = s.cfg →
      (examine w t).1 = (t.prevValid && r t.prevAbove (above s w))) (h2 : s.fired = false) :
    (scanSamples ws s).fired = true ↔
      ∃ j a b, ((if s.prevValid then [s.prevAbove] else []) ++ ws.map (above s))[j]? = some a ∧
        ((if s.prevValid then [s.prevAbove] else []) ++ ws.map (above s))[j + 1]? = some b ∧ r a b = true := by
  induction ws generalizing s with
  | nil =>
    simp only [scanSamples, h2]
    cases s.prevValid <;> simp
  | cons w ws ih =>
    simp only [scanSamples]
    have hx := hr s w rfl
    have hfr := examine_frame w s
    set t := (examine w s).2 with htt
    have hcfg : t.cfg = s.cfg := by rw [hfr]
    have ht : t.fired = false := by rw [hfr]; exact h2
    have hpv : t.prevValid = true := by rw [hfr]
    have hpa : t.prevAbove = above s w := by rw [hfr]
    have hab : above t = above s := funext fun w => above_congr hcfg w
    have ih' := ih t (fun t' w' h => by rw [hr t' w' (h.trans hcfg), hab]) ht
    rw [hpv, hpa, hab] at ih'
    simp only [if_true, List.singleton_append] at ih'
    split
    · rename_i hh
      rw [hx] at hh
      simp only [Bool.and_eq_true] at hh
      simp only [fire_fired, true_iff]
      exact ⟨0, s.prevAbove, above s w, by simp [hh.1], by simp [hh.1], hh.2⟩
    · rename_i hh
      rw [ih', hx] at *
      cases hv : s.prevValid with
      | false => simp
      | true =>
        simp only [hv, Bool.true_and] at hh
        simp only [if_true, List.map_cons, List.singleton_append]
        constructor
        · rintro ⟨j, a, b, h1, h2, h3⟩
          exact ⟨j + 1, a, b, by simpa using h1, by simpa using h2, h3⟩
        · rintro ⟨j, a, b, h1, h2, h3⟩
          cases j with
          | zero => simp at h1 h2; subst h1 h2; exact absurd h3 hh
          | succ j => exact ⟨j, a, b, by simpa using h1, by simpa using h2, h3⟩

/-! ### The strobe modes -/

/-- The interval test of StrobeStep as a function of the counter (R179, R53). -/
def heldIn (tMin tMax : BitVec 32) (h : Counter) : Bool :=
  decide (tMin.toNat ≤ h.toNat) && (tMax == 0#32 || decide (h.toNat ≤ tMax.toNat))

/-- Everything StrobeStep can do (R179). -/
theorem strobeStep_cases (a b : Bool) (s : State) :
    (a = false ∧ strobeStep a b s = (false, { s with strobe := .idle, held := 0 })) ∨
    (a = true ∧ s.strobe = .hold ∧ strobeStep a b s =
      (heldIn (cfgTrigTMin s) (cfgTrigTMax s) (heldSucc s.held), { s with held := heldSucc s.held })) ∨
    (a = true ∧ s.strobe = .idle ∧ (s.prevValid && !b) = true ∧ strobeStep a b s =
      (heldIn (cfgTrigTMin s) (cfgTrigTMax s) 0, { s with strobe := .hold, held := 0 })) ∨
    (a = true ∧ s.strobe = .idle ∧ (s.prevValid && !b) = false ∧ strobeStep a b s = (false, s)) := by
  cases a with
  | false => exact .inl ⟨rfl, rfl⟩
  | true =>
    right
    have hcase : s.strobe = .hold ∨ s.strobe = .idle := by cases s.strobe <;> simp
    rcases hcase with hs | hs
    · left; refine ⟨rfl, hs, ?_⟩
      unfold strobeStep; rw [if_neg (by simp), if_pos hs]; rfl
    · right
      cases hp : (s.prevValid && !b) with
      | true =>
        left; refine ⟨rfl, hs, rfl, ?_⟩
        unfold strobeStep; rw [if_neg (by simp), if_neg (by rw [hs]; simp), if_pos hp]; rfl
      | false =>
        right; refine ⟨rfl, hs, rfl, ?_⟩
        unfold strobeStep; rw [if_neg (by simp), if_neg (by rw [hs]; simp), if_neg (by rw [hp]; simp)]

end Sys2Proof.Machine
end

