-- ==== Sys2Proof/Laws/Encoder.lean ====
section
/-! SUPPORT. The Sample Encoder: the length of a body (R227) and of a packet. -/

namespace Sys2Proof.Machine

theorem packTwo_length (a : List Sample) : (packTwo a).length = a.length / 4 := by
  fun_induction packTwo a with
  | case1 a b c d rest ih => simp only [List.length_cons, ih]; omega
  | case2 l h =>
    match l with
    | [] => simp
    | [_] => simp
    | [_, _] => simp
    | [_, _, _] => simp
    | a :: b :: c :: d :: r => exact absurd rfl (h a b c d r)

theorem packFour_length (a : List Sample) : (packFour a).length = a.length / 2 := by
  fun_induction packFour a with
  | case1 a b rest ih => simp only [List.length_cons, ih]; omega
  | case2 l h =>
    match l with
    | [] => simp
    | [_] => simp
    | a :: b :: r => exact absurd rfl (h a b r)

theorem packEight_length (a : List Sample) : (packEight a).length = a.length := by
  fun_induction packEight a <;> simp_all

theorem packTwelve_length (a : List Sample) : (packTwelve a).length = 3 * (a.length / 2) := by
  fun_induction packTwelve a with
  | case1 a b rest ih => simp only [List.length_cons, ih]; omega
  | case2 l h =>
    match l with
    | [] => simp
    | [_] => simp
    | a :: b :: r => exact absurd rfl (h a b r)

/-- The depths and `spp` a full MODE leaves, as numbers (R37, R140). -/
theorem latchesOk_depth {s : State} (h : latchesOk s = true) :
    (s.d.toNat = 2 ∧ s.spp.toNat = 240) ∨ (s.d.toNat = 4 ∧ s.spp.toNat = 120) ∨
      (s.d.toNat = 8 ∧ s.spp.toNat = 60) ∨ (s.d.toNat = 12 ∧ s.spp.toNat = 40) := by
  simp only [latchesOk, Bool.and_eq_true, decide_eq_true_eq, List.mem_cons, List.not_mem_nil, or_false] at h
  obtain ⟨⟨⟨hd, hspp⟩, -⟩, -⟩ := h
  rcases hd with hd | hd | hd | hd <;> rw [hd] at hspp <;> simp [hd, hspp, Config.bodyBits]

/-- "Every packer produces exactly 60 bytes" (R227). -/
theorem encodeBlock_length {s : State} {b : List Half} (h : latchesOk s = true) (hb : b.length = s.spp.toNat) :
    (encodeBlock s b).length = 60 := by
  unfold encodeBlock packBody
  rcases latchesOk_depth h with ⟨hd, hs⟩ | ⟨hd, hs⟩ | ⟨hd, hs⟩ | ⟨hd, hs⟩ <;> rw [hs] at hb <;>
    simp [hd, packTwo_length, packFour_length, packEight_length, packTwelve_length, hb]

/-- A packet is 64 bytes (R96). -/
theorem packet_length {s : State} {b : List Half} (flag : Bool) (h : latchesOk s = true)
    (hb : b.length = s.spp.toNat) : (header flag s ++ encodeBlock s b).length = 64 := by
  rw [List.length_append, encodeBlock_length h hb]; rfl

/-- `latchesOk` reads only the latches. -/
theorem latchesOk_congr {s t : State} (h1 : t.d = s.d) (h2 : t.spp = s.spp) (h3 : t.chans = s.chans) :
    latchesOk t = latchesOk s := by
  simp only [latchesOk, h1, h2, h3]

/-- ENCODE reads only `cfg.offset`, `cfg.gain` and `d` (R220). -/
theorem encodeBlock_congr {s t : State} (h1 : t.cfg = s.cfg) (h2 : t.d = s.d) (b : List Half) :
    encodeBlock t b = encodeBlock s b := by
  have hc := cfg_congr h1
  simp only [encodeBlock, h2, hc.2.2.2.2.1, hc.2.2.2.2.2.1]

/-! ### The fields of a sample, by number (R222 to R226) -/

theorem append_toNat {n m : Nat} (x : BitVec n) (y : BitVec m) : (x ++ y).toNat = x.toNat * 2 ^ m + y.toNat := by
  rw [BitVec.toNat_append, ← Nat.shiftLeft_add_eq_or_of_lt y.isLt, Nat.shiftLeft_eq]

theorem top2_toNat (x : Sample) : (top2 x).toNat = x.toNat / 1024 := by
  have := x.isLt; rw [top2, BitVec.extractLsb'_toNat, Nat.shiftRight_eq_div_pow]; omega

theorem top4_toNat (x : Sample) : (top4 x).toNat = x.toNat / 256 := by
  have := x.isLt; rw [top4, BitVec.extractLsb'_toNat, Nat.shiftRight_eq_div_pow]; omega

theorem top8_toNat (x : Sample) : (top8 x).toNat = x.toNat / 16 := by
  have := x.isLt; rw [top8, BitVec.extractLsb'_toNat, Nat.shiftRight_eq_div_pow]; omega

theorem low4_toNat (x : Sample) : (low4 x).toNat = x.toNat % 16 := by
  rw [low4, BitVec.extractLsb'_toNat, Nat.shiftRight_zero]

theorem rawSample_toNat (w : Half) : (rawSample w).toNat = w.toNat % 4096 := by
  rw [rawSample, BitVec.extractLsb'_toNat, Nat.shiftRight_zero]

end Sys2Proof.Machine
end

