-- ==== Sys2Proof/Laws/Invariants.lean ====
section
/-! SUPPORT. What each shared operation does to the invariants of Safety.lean: one lemma per operation and invariant. -/

namespace Sys2Proof.Machine

/-! ### The ring (R59) -/

/-- The ring invariant without R59 (d), which the end of every event restores. -/
structure RingCore (s : State) : Prop where
  ringSize : 2 ≤ s.params.ringSlots
  indices : IndicesInRing s
  flags : TriggerFlagsLegal s
  inFlight : InFlightProtected s
  staleBusy : StaleIsBusy s
  armedFree : ArmedHasNoCountedFlight s

theorem RingInvariant.core {s : State} (h : RingInvariant s) : RingCore s :=
  ⟨h.ringSize, h.indices, h.flags, h.inFlight, h.staleBusy, h.armedFree⟩

/-- An invariant that reads only these fields holds of any state that agrees on them. -/
theorem RingCore.congr {s t : State} (h : RingCore s) (h1 : t.params = s.params) (h2 : t.produceAt = s.produceAt)
    (h3 : t.sendFrom = s.sendFrom) (h4 : t.txBusy = s.txBusy) (h5 : t.txStale = s.txStale) (h6 : t.armed = s.armed)
    (h7 : t.fired = s.fired) (h8 : t.openBit = s.openBit) : RingCore t := by
  obtain ⟨a, b, c, d, e, f⟩ := h
  refine ⟨?_, ?_, ?_, ?_, ?_, ?_⟩ <;>
    simp only [IndicesInRing, TriggerFlagsLegal, InFlightProtected, StaleIsBusy, ArmedHasNoCountedFlight, winOpen, h1, h2,
      h3, h4, h5, h6, h7, h8] at * <;> assumption

/-- KICK keeps everything but R59 (d), and restores R59 (d) (R257). -/
theorem kick_ring {s : State} (h : RingCore s) : RingInvariant (kick s) := by
  obtain ⟨hn, hi, hf, hfl, hst, har⟩ := h
  rcases kick_cases s with ⟨h1, h2, h3, h4⟩ | ⟨h1, h2⟩
  · rw [h4]
    refine ⟨hn, hi, hf, fun _ _ => ⟨h1, h3⟩, fun _ hb => by simp at hb, fun hs => by rfl, fun ha => ?_⟩
    have := hf.1
    simp only [winOpen, Bool.and_eq_true] at h1
    exact absurd ⟨ha, h1.1⟩ this
  · rw [h2]
    refine ⟨hn, hi, hf, hfl, fun hw hb => ?_, hst, har⟩
    rcases h1 with h1 | h1 | h1
    · simp [hw] at h1
    · simp [hb] at h1
    · exact h1

/-- The advance keeps R59 except (d) (R255). -/
theorem advance_ring {s : State} (h : RingCore s) : RingCore (advance s) := by
  rcases advance_cases s with ⟨h1, h2, h3⟩ | ⟨_, h3⟩
  · obtain ⟨hn, hi, hf, hfl, hst, har⟩ := h
    rw [h3]
    refine ⟨hn, ⟨ringNext_lt hn, hi.2⟩, hf, fun hb hs => ⟨(hfl hb hs).1, ?_⟩, hst, har⟩
    exact fun heq => h2 ⟨heq.symm, hb⟩
  · rw [h3]; exact h

theorem openWindow_ring {s : State} (h : RingCore s) : RingCore (openWindow s) := by
  rcases openWindow_cases s with ⟨h1, h2, _, h4⟩ | ⟨_, h4⟩
  · obtain ⟨hn, hi, hf, hfl, hst, har⟩ := h
    rw [h4]
    exact ⟨hn, hi, ⟨hf.1, fun _ => h1⟩, fun hb hs => ⟨by simp [winOpen, h1], (hfl hb hs).2⟩, hst, har⟩
  · rw [h4]; exact h

theorem Examined.ring {s u : State} (h : Examined s u) (hs : RingCore s) : RingCore u := by
  obtain ⟨_, _, _, _, rfl⟩ := h
  exact hs.congr rfl rfl rfl rfl rfl rfl rfl rfl

/-- FIRE runs only while armed, where no counted transmission is out (R331 (c)). -/
theorem fire_ring {s : State} (h : RingCore s) (ha : s.armed = true) : RingCore (fire s) := by
  obtain ⟨hn, hi, hf, hfl, hst, har⟩ := h
  refine ⟨hn, ⟨hi.1, ringBack_lt hn⟩, ⟨fun h => by simp at h, fun _ => rfl⟩, fun hb hs => ?_, hst,
    fun h => by simp at h⟩
  rcases har ha with h | h
  · exact absurd hb (by rw [fire_txBusy, h]; simp)
  · exact absurd hs (by rw [fire_txStale, h]; simp)

theorem trigEval_ring (b : List Half) {s : State} (h : RingCore s) : RingCore (trigEval b s) := by
  rcases trigEval_cases b s with ⟨_, h2⟩ | ⟨ha, u, hu, h2 | h2⟩
  · rw [h2]; exact openWindow_ring h
  · rw [h2]; exact openWindow_ring (hu.ring h)
  · rw [h2]
    refine openWindow_ring (fire_ring (hu.ring h) ?_)
    obtain ⟨_, _, _, _, rfl⟩ := hu
    exact ha

theorem producePacket_ring (b : List Half) {s : State} (h : RingCore s) : RingCore (producePacket b s) :=
  h.congr rfl rfl rfl rfl rfl rfl rfl rfl

/-- INGEST keeps R59. -/
theorem ingestBlock_ring (w : List Half) {s : State} (h : RingCore s) : RingInvariant (ingestBlock w s) :=
  kick_ring (advance_ring (producePacket_ring _ (trigEval_ring _ h)))

/-- A stale completion keeps R59. -/
theorem completeStale_ring {s : State} (h : RingInvariant s) : RingInvariant (completeStale s) := by
  obtain ⟨hn, hi, hf, _, _, _, _⟩ := h
  exact kick_ring ⟨hn, hi, hf, fun hb => by simp at hb, fun hb => by simp at hb, fun _ => .inl rfl⟩

/-- A counted completion keeps R59. -/
theorem completeCounted_ring {s : State} (h : RingInvariant s) (hs : s.txStale = false) :
    RingInvariant (completeCounted s) := by
  obtain ⟨hn, hi, hf, _, _, _, _⟩ := h
  refine kick_ring ?_
  rcases endBurst_cases { s with
    txBusy := false, sendFrom := ringNext s.params.ringSlots s.sendFrom
    totalOut := s.totalOut + s.spp.setWidth 32 } with ⟨_, _, h3⟩ | ⟨_, h3⟩ <;> rw [h3]
  · exact ⟨hn, ⟨hi.1, ringNext_lt hn⟩, ⟨fun h => by simp at h, fun h => by simp at h⟩, fun hb => by simp at hb,
      fun hb => by simp [hs] at hb, fun _ => .inl rfl⟩
  · exact ⟨hn, ⟨hi.1, ringNext_lt hn⟩, hf, fun hb => by simp at hb, fun hb => by simp [hs] at hb, fun _ => .inl rfl⟩

/-- MODE keeps R59, whichever path it takes. -/
theorem modeEngine_ring {s : State} (h : RingInvariant s) : RingInvariant (modeEngine s) := by
  obtain ⟨hn, hi, _, _, _, hst, _⟩ := h
  rw [modeEngine_eq]
  unfold afterMode
  split
  · refine ⟨hn, hi, ⟨by simp [afterDisengage], by simp [afterDisengage]⟩, ?_, by simp [afterDisengage, winOpen], ?_,
      by simp [afterDisengage]⟩
    · intro hb hs; simp only [afterDisengage] at hb hs; simp [hb] at hs
    · intro hs; simp only [afterDisengage, Bool.or_eq_true] at hs ⊢; exact hs.elim hst id
  · have h0 : 0 < s.params.ringSlots := by omega
    refine ⟨hn, ⟨h0, h0⟩, ⟨by simp [afterFullMode], by simp [afterFullMode]⟩, ?_, by simp [afterFullMode, winOpen], ?_, ?_⟩
    · intro hb hs; simp only [afterFullMode] at hb hs; simp [hb] at hs
    · intro hs; simp only [afterFullMode, Bool.or_eq_true] at hs ⊢; exact hs.elim hst id
    · intro _; simp only [afterFullMode]; cases s.txBusy <;> simp

/-- A write keeps R59 whether it succeeds or not. -/
theorem writeConfig_ring (i v : Byte) {s : State} (h : RingInvariant s) : RingInvariant (writeConfig i v s) := by
  unfold writeConfig cfgWrite
  split
  · rename_i t ht
    split at ht
    · cases ht
      exact modeEngine_ring ⟨h.ringSize, h.indices, h.flags, h.inFlight, h.nothingWaits, h.staleBusy, h.armedFree⟩
    · cases ht
  · exact h

theorem emit_ring (o : Output) {s : State} (h : RingInvariant s) : RingInvariant (emit o s) :=
  ⟨h.ringSize, h.indices, h.flags, h.inFlight, h.nothingWaits, h.staleBusy, h.armedFree⟩

/-! ### The latches (R75) -/

/-- The latch invariant holds of any state that agrees on the configuration, the latches and `engaged`, if its trigger
is not on where the other's was off. -/
theorem LatchInvariant.congr {s t : State} (h : LatchInvariant s) (hc : t.cfg = s.cfg) (he : t.engaged = s.engaged)
    (h1 : t.d = s.d) (h2 : t.spp = s.spp) (h3 : t.chans = s.chans) (h4 : t.swap = s.swap) (h5 : t.hdrMask = s.hdrMask)
    (h6 : t.hdrMode = s.hdrMode) (ht : t.armed = true ∨ t.fired = true → s.engaged = true) : LatchInvariant t := by
  have hcc := cfg_congr hc
  have hu := usedMask_congr hc
  refine ⟨?_, ?_, ?_, ?_⟩
  · rw [hcc.2.2.2.2.2.2.2.2.2.2.2.2.2, hu]; exact h.maskStored
  · rw [he, hu, disengages_congr hc]; exact h.engagedIff
  · rw [he, hu, hcc.2.2.1, hcc.2.2.2.1, hcc.2.2.2.2.2.2.2.2.2.2.2.2.2, h1, h2, h3, h4, h5, h6]; exact h.latches
  · rw [he]; exact ht

/-- MODE establishes the latch invariant from any state (R75, R134). -/
theorem modeEngine_latch (s : State) : LatchInvariant (modeEngine s) := by
  have key : ∀ t : State, t.cfg = withMask s.cfg (usedMask s) → cfgUsedChannels t = (usedMask s).setWidth 16 ∧
      usedMask t = usedMask s ∧ cfgDepth t = cfgDepth s ∧ cfgFreq t = cfgFreq s ∧
      ∀ l, disengages l t = disengages l s := by
    intro t ht
    have hm : t.cfg = (memWrite2 25 ((usedMask s).setWidth 16) s).cfg := ht
    have hr := memWrite2_mask_reads ((usedMask s).setWidth 16) s (by decide)
    have hc := cfg_congr hm
    refine ⟨?_, ?_, ?_, ?_, fun l => ?_⟩
    · rw [hc.2.2.2.2.2.2.2.2.2.2.2.2.2]; exact memWrite2_mask_stored _ _ _
    · rw [usedMask_congr hm]
      show avoidBadCombo (cfgDepth (memWrite2 25 _ s _))
        (pairChannels ((cfgChannels (memWrite2 25 _ s _)).extractLsb' 0 10)) = _
      rw [hr.2.1, hr.2.2.1]; rfl
    · rw [hc.2.2.1, hr.2.2.1]
    · rw [hc.2.2.2.1, hr.2.2.2]
    · rw [disengages_congr hm]; simp only [disengages, hr]
  rw [modeEngine_eq]
  unfold afterMode
  split
  · rename_i hd
    obtain ⟨k1, k2, k3, k4, k5⟩ := key (afterDisengage s s.cfg) rfl
    refine ⟨by rw [k1, k2], ?_, fun h => by simp [afterDisengage] at h, fun h => by simp [afterDisengage] at h⟩
    rw [k2, k5]
    simp only [bytesDisengage] at hd
    rw [show disengages (channelList (usedMask s)) s = true from hd]; rfl
  · rename_i hd
    obtain ⟨k1, k2, k3, k4, k5⟩ := key (afterFullMode s s.cfg) rfl
    have hd' : disengages (channelList (usedMask s)) s = false := by simpa [bytesDisengage] using hd
    obtain ⟨hl, _, _, hdep⟩ := not_disengages hd'
    obtain ⟨hdiv, h1, h10⟩ := usedMask_divides hdep hl
    refine ⟨by rw [k1, k2], ?_, fun _ => ?_, fun _ => rfl⟩
    · rw [k2, k5, hd']; rfl
    · rw [k1, k2, k3, k4]
      refine ⟨rfl, ?_, ?_, rfl, rfl, rfl⟩
      · have : 480 / (cfgDepth s).toNat < 256 := by
          have hdep' : (cfgDepth s).toNat = 2 ∨ (cfgDepth s).toNat = 4 ∨ (cfgDepth s).toNat = 8 ∨
            (cfgDepth s).toNat = 12 := by simpa [depthCode] using hdep
          rcases hdep' with h | h | h | h <;> rw [h] <;> decide
        exact Nat.mod_eq_of_lt this
      · exact Nat.mod_eq_of_lt (by show channelCount (usedMask s) < 16; omega)

theorem trigEval_latch (b : List Half) {s : State} (h : LatchInvariant s) : LatchInvariant (trigEval b s) := by
  refine h.congr (by simp) (by simp) (by simp) (by simp) (by simp) (by simp) (by simp) (by simp) fun ht => ?_
  rcases trigEval_cases b s with ⟨ha, h2⟩ | ⟨ha, _⟩
  · rw [h2] at ht
    simp only [openWindow_armed, openWindow_fired] at ht
    exact h.triggerEngaged ht
  · exact h.triggerEngaged (.inl ha)

/-- INGEST keeps the latch invariant. -/
theorem ingestBlock_latch (w : List Half) {s : State} (h : LatchInvariant s) : LatchInvariant (ingestBlock w s) := by
  have hu := trigEval_latch (timeOrder s w) h
  refine hu.congr ?_ ?_ ?_ ?_ ?_ ?_ ?_ ?_ fun ht => hu.triggerEngaged ?_
  all_goals simp only [ingestBlock, kick_cfg, kick_engaged, kick_d, kick_spp, kick_chans, kick_swap, kick_hdrMask,
    kick_hdrMode, kick_armed, kick_fired, advance_cfg, advance_engaged, advance_d, advance_spp, advance_chans,
    advance_swap, advance_hdrMask, advance_hdrMode, advance_armed, advance_fired, producePacket_cfg,
    producePacket_engaged, producePacket_d, producePacket_spp, producePacket_chans, producePacket_swap,
    producePacket_hdrMask, producePacket_hdrMode, producePacket_armed, producePacket_fired] at *
  exact ht

/-- The burst test keeps the latch invariant: a burst ends only while fired, hence engaged. -/
theorem endBurst_latch {s : State} (h : LatchInvariant s) : LatchInvariant (endBurst s) := by
  refine h.congr (by simp) (by simp) (by simp) (by simp) (by simp) (by simp) (by simp) (by simp) fun ht => ?_
  rcases endBurst_cases s with ⟨hf, _, _⟩ | ⟨_, h2⟩
  · exact h.triggerEngaged (.inr hf)
  · rw [h2] at ht; exact h.triggerEngaged ht

theorem kick_latch {s : State} (h : LatchInvariant s) : LatchInvariant (kick s) :=
  h.congr (by simp) (by simp) (by simp) (by simp) (by simp) (by simp) (by simp) (by simp)
    (by simpa using h.triggerEngaged)

theorem completeStale_latch {s : State} (h : LatchInvariant s) : LatchInvariant (completeStale s) :=
  kick_latch (h.congr rfl rfl rfl rfl rfl rfl rfl rfl h.triggerEngaged)

theorem completeCounted_latch {s : State} (h : LatchInvariant s) : LatchInvariant (completeCounted s) :=
  kick_latch (endBurst_latch (h.congr rfl rfl rfl rfl rfl rfl rfl rfl h.triggerEngaged))

theorem writeConfig_latch (i v : Byte) {s : State} (h : LatchInvariant s) : LatchInvariant (writeConfig i v s) := by
  unfold writeConfig
  split
  · exact modeEngine_latch _
  · exact h

theorem emit_latch (o : Output) {s : State} (h : LatchInvariant s) : LatchInvariant (emit o s) :=
  h.congr rfl rfl rfl rfl rfl rfl rfl rfl h.triggerEngaged

/-- While engaged the latches are what ENCODE and TRIG_EVAL need (R220, R140). -/
theorem LatchInvariant.latchesOk {s : State} (h : LatchInvariant s) (he : s.engaged = true) : latchesOk s = true := by
  obtain ⟨h1, h2, h3, -, -, -⟩ := h.latches he
  have hd : disengages (channelList (usedMask s)) s = false := by
    have := h.engagedIff; rw [he] at this; simpa using this.symm
  obtain ⟨hl, _, _, hdep⟩ := not_disengages hd
  obtain ⟨hdiv, hc1, hc10⟩ := usedMask_divides hdep hl
  have hdep' : (cfgDepth s).toNat = 2 ∨ (cfgDepth s).toNat = 4 ∨ (cfgDepth s).toNat = 8 ∨
    (cfgDepth s).toNat = 12 := by simpa [depthCode] using hdep
  have hdd : s.d.toNat = (cfgDepth s).toNat := by
    rw [h1, BitVec.extractLsb'_toNat]
    rcases hdep' with h | h | h | h <;> rw [h] <;> decide
  have hc : s.chans.toNat = channelCount (usedMask s) := h3
  simp only [Machine.latchesOk, Bool.and_eq_true, decide_eq_true_eq, hdd, h2, hc]
  refine ⟨⟨⟨?_, trivial⟩, hc1, hc10⟩, hdiv⟩
  simpa using hdep'

/-! ### The slot memory's canonical form -/

theorem ingestBlock_wf (w : List Half) {s : State} (h : Memory.wf s.slots) : Memory.wf (ingestBlock w s).slots := by
  simp only [ingestBlock, kick_slots, advance_slots, producePacket_slots, trigEval_slots]
  exact Memory.writeAll_wf _ h _

theorem completeStale_slots (s : State) : (completeStale s).slots = s.slots := by simp [completeStale]

theorem completeCounted_slots (s : State) : (completeCounted s).slots = s.slots := by simp [completeCounted]

theorem modeEngine_slots (s : State) : (modeEngine s).slots = s.slots := by
  rw [modeEngine_eq]; unfold afterMode; split <;> rfl

theorem writeConfig_slots (i v : Byte) (s : State) : (writeConfig i v s).slots = s.slots := by
  unfold writeConfig cfgWrite
  split
  · rename_i t ht
    split at ht <;> cases ht
    rw [modeEngine_slots]
  · rfl

end Sys2Proof.Machine
end

