-- ==== Sys2Proof/Laws/Exec.lean ====
section
/-! SUPPORT. What exec answers in terms of the shared operations, for a core and an input within the contract (R299). -/

namespace Sys2Proof.Machine

theorem inContract_of {s : State} (h : 2 ≤ s.params.ringSlots) (r : Host.Outcome State Fault Refusal) :
    inContract s r = r := if_neg (by omega)

/-- One half of a REGWR in closed form (R130, R132, R133). -/
theorem writeConfig_eq (i v : Byte) (s : State) : writeConfig i v s = afterWrite i v s := by
  unfold writeConfig cfgWrite afterWrite
  by_cases h : i.toNat < 27
  · simp only [h, dif_pos, modeEngine_eq]; rfl
  · simp only [h, dif_neg, not_false_eq_true]

theorem afterWrite_in {i v : Byte} (s : State) (h : i.toNat < 27) :
    afterWrite i v s = afterMode s (s.cfg.set i.toNat v) := dif_pos h

theorem afterWrite_out {i v : Byte} (s : State) (h : 27 ≤ i.toNat) : afterWrite i v s = s := dif_neg (by omega)

@[simp] theorem lowByte_pair (a b : Byte) : lowByte (a ++ b) = b := by
  apply BitVec.eq_of_getLsbD_eq
  intro i hi
  rw [lowByte, BitVec.getLsbD_extractLsb', BitVec.getLsbD_append]
  simp [hi]

@[simp] theorem highByte_pair (a b : Byte) : highByte (a ++ b) = a := by
  apply BitVec.eq_of_getLsbD_eq
  intro i hi
  rw [highByte, BitVec.getLsbD_extractLsb', BitVec.getLsbD_append]
  simp [hi]

theorem lowByte_toNat (h : Half) : (lowByte h).toNat = h.toNat % 256 := by simp [lowByte]

theorem highByte_toNat (h : Half) : (highByte h).toNat = h.toNat / 256 := by
  have := h.isLt
  simp only [highByte, BitVec.extractLsb'_toNat, Nat.shiftRight_eq_div_pow]
  omega

/-- A code row in closed form (R110, R133, log 8). -/
theorem selectCode_eq {s : State} (h : 2 ≤ s.params.ringSlots) (r v : Byte) :
    selectCode r v s = .next (emit .ack (afterWrite r v s)) := by
  rw [selectCode, inContract_of h, writeConfig_eq]

/-- INGEST within the contract (R250). -/
theorem exec_ingest {s : State} (h : CanIngest s) (idx val : Half) :
    exec (.ingest idx val) s = .next (ingestBlock s.operand s) := by
  obtain ⟨h1, h2, h3, h4, h5⟩ := h
  show execIngest idx val s = _
  rw [execIngest, inContract_of h1, if_neg (by simp [h2]), if_neg (by simp [h3]),
    if_neg (by simp [(indicesOk_iff s).2 h4]), if_neg (by simp [h5])]

/-- TXDONE with a transmission outstanding (R259, R260). -/
theorem exec_txdone {s : State} (h : 2 ≤ s.params.ringSlots) (hi : IndicesInRing s) (hb : s.txBusy = true)
    (idx val : Half) :
    exec (.txdone idx val) s = .next (if s.txStale then completeStale s else completeCounted s) := by
  show execTxdone idx val s = _
  rw [execTxdone, inContract_of h, if_neg (by simp [hb]), if_neg (by simp [(indicesOk_iff s).2 hi])]
  split <;> rfl

/-- The parameters, the inputs and the slot memory survive a write, whichever path MODE takes. -/
theorem afterWrite_frame (i v : Byte) (s : State) :
    (afterWrite i v s).params = s.params ∧ (afterWrite i v s).slots = s.slots ∧
      (afterWrite i v s).slotEpoch = s.slotEpoch ∧ (afterWrite i v s).operand = s.operand ∧
      (afterWrite i v s).pending = s.pending ∧ (afterWrite i v s).arrivals = s.arrivals ∧
      (afterWrite i v s).txBusy = s.txBusy := by
  unfold afterWrite
  split
  · unfold afterMode; split <;> simp [afterDisengage, afterFullMode]
  · simp

theorem ofNat_fin (r : Fin 27) : (BitVec.ofNat 8 r).toNat = r := by
  have := r.isLt
  rw [BitVec.toNat_ofNat, Nat.mod_eq_of_lt (by omega)]

theorem set_getElem (s : State) (r : Fin 27) (c : Byte) (i : Nat) (h : i < 27) :
    (s.cfg.set r c)[i] = if (r : Nat) = i then c else s.cfg[i] := by
  rw [Vector.getElem_set]

/-- A code row's next state (R101 to R104, R133, log 8). -/
theorem exec_code {i : Instr} {r : Fin 27} {c : Byte} (s : State) (h : codeOf i = some (r, c))
    (hn : 2 ≤ s.params.ringSlots) : exec i s = .next (emit .ack (afterMode s (s.cfg.set r c))) := by
  cases i <;> simp only [codeOf, Option.some.injEq, Prod.mk.injEq, reduceCtorEq] at h <;> obtain ⟨rfl, rfl⟩ := h <;>
    exact selectCode_eq hn _ _

/-- After MODE has engaged, the core takes a block of `spp` words. -/
theorem canIngest_afterMode {s : State} {b : Vector Byte 27} (hn : 2 ≤ s.params.ringSlots)
    (h : (afterMode s b).engaged = true) {w : List Half} (hw : w.length = (afterMode s b).spp.toNat) :
    CanIngest { emit .ack (afterMode s b) with operand := w } := by
  have hl := modeEngine_latch { s with cfg := b }
  rw [modeEngine_eq] at hl
  have hok : latchesOk (afterMode s b) = true := LatchInvariant.latchesOk hl h
  obtain ⟨he, _⟩ := afterMode_full h
  refine ⟨?_, h, hw, ?_, hok⟩
  · rw [he]; exact hn
  · rw [he]
    have : 0 < s.params.ringSlots := by omega
    exact ⟨this, this⟩

/-! ### Once and for all -/

/-- Everything exec can do when it answers a next state. -/
theorem exec_cases {i : Instr} {s t : State} (h : exec i s = .next t) :
    2 ≤ s.params.ringSlots ∧
    ((∃ a b, i = .reset a b ∧ t = modeEngine (clearAll s)) ∨
      (∃ r c, codeOf i = some (r, c) ∧ t = emit .ack (afterMode s (s.cfg.set r c))) ∨
      (∃ idx val, i = .regwr idx val ∧
        t = emit .ack (afterWrite (highByte idx) (highByte val) (afterWrite (lowByte idx) (lowByte val) s))) ∨
      (∃ idx val, i = .ingest idx val ∧ CanIngest s ∧ t = ingestBlock s.operand s) ∨
      (∃ idx val, i = .txdone idx val ∧ IndicesInRing s ∧ s.txBusy = true ∧ s.txStale = true ∧
        t = completeStale s) ∨
      (∃ idx val, i = .txdone idx val ∧ IndicesInRing s ∧ s.txBusy = true ∧ s.txStale = false ∧
        t = completeCounted s) ∨
      ((codeOf i = none ∧ ∀ a b, i ≠ .reset a b) ∧ (∀ idx val, i = .ingest idx val → s.engaged = false) ∧
        (∀ idx val, i ≠ .regwr idx val) ∧ ∃ o, t = emit o s)) := by
  have hn : 2 ≤ s.params.ringSlots := by
    by_contra hc
    have : exec i s = .refused .ringTooSmall := by
      cases i <;> exact if_pos (by omega)
    rw [this] at h; cases h
  refine ⟨hn, ?_⟩
  by_cases hc : (codeOf i).isSome = true
  · obtain ⟨⟨r, c⟩, hrc⟩ := Option.isSome_iff_exists.1 hc
    rw [exec_code s hrc hn] at h; cases h
    exact .inr (.inl ⟨r, c, hrc, rfl⟩)
  · cases i
    case reset a b =>
      refine .inl ⟨a, b, rfl, ?_⟩
      have : exec (.reset a b) s = .next (modeEngine (clearAll s)) := inContract_of hn _
      rw [this] at h; cases h; rfl
    case regwr a b =>
      have h : execRegwr a b s = .next t := h
      rw [execRegwr, inContract_of hn, writeConfig_eq, writeConfig_eq] at h; cases h
      exact .inr (.inr (.inl ⟨a, b, rfl, rfl⟩))
    case ingest a b =>
      have h : execIngest a b s = .next t := h
      rw [execIngest, inContract_of hn] at h
      split at h
      · cases h; exact .inr (.inr (.inr (.inr (.inr (.inr ⟨⟨rfl, by simp⟩, fun _ _ _ => ‹_›, by simp, _, rfl⟩)))))
      · split at h
        · cases h
        · split at h
          · cases h
          · split at h
            · cases h
            · cases h
              refine .inr (.inr (.inr (.inl ⟨a, b, rfl, ?_, rfl⟩)))
              refine ⟨hn, ?_, ?_, ?_, ?_⟩
              · cases he : s.engaged <;> simp_all
              · exact not_not.1 ‹_›
              · rw [← indicesOk_iff]; cases he : indicesOk s <;> simp_all
              · cases he : latchesOk s <;> simp_all
    case txdone a b =>
      have h : execTxdone a b s = .next t := h
      rw [execTxdone, inContract_of hn] at h
      split at h
      · cases h; exact .inr (.inr (.inr (.inr (.inr (.inr ⟨⟨rfl, by simp⟩, by simp, by simp, _, rfl⟩)))))
      · split at h
        · cases h
        · have hi : IndicesInRing s := by rw [← indicesOk_iff]; cases he : indicesOk s <;> simp_all
          have hb : s.txBusy = true := by cases he : s.txBusy <;> simp_all
          split at h
          · cases h; exact .inr (.inr (.inr (.inr (.inl ⟨a, b, rfl, hi, hb, ‹_›, rfl⟩))))
          · cases h; exact .inr (.inr (.inr (.inr (.inr (.inl ⟨a, b, rfl, hi, hb, by cases he : s.txStale <;> simp_all, rfl⟩)))))
    case regrd a b =>
      have : exec (.regrd a b) s = .next (emit (.reply _) s) := inContract_of hn _
      rw [this] at h; cases h
      exact .inr (.inr (.inr (.inr (.inr (.inr ⟨⟨rfl, by simp⟩, by simp, by simp, _, rfl⟩)))))
    all_goals first | (exfalso; exact hc rfl) | skip
    all_goals
      have h' : inContract s (raiseOutcome .unsupported s) = .next t := h
      rw [inContract_of hn] at h'; cases h'
      exact .inr (.inr (.inr (.inr (.inr (.inr ⟨⟨rfl, by simp⟩, by simp, by simp, _, rfl⟩)))))

/-- Everything step can do when it answers a next state: nothing, the operation of the event taken, or the write of a
reserved code (R71, R106). -/
theorem step_cases {s t : State} (h : step s = .next t) :
    (t = arrive s ∧ 2 ≤ s.params.ringSlots) ∨
    (∃ r rest i, takeNext (arrive s).pending = some (r, rest) ∧ decode r.word = .ok i ∧
      exec i { arrive s with pending := rest, operand := r.operand } = .next t) ∨
    (∃ p q op reg c, 2 ≤ s.params.ringSlots ∧
      t = emit .ack (afterWrite reg c { s with pending := p, arrivals := q, operand := op })) := by
  unfold step at h
  simp only at h
  split at h
  · left
    unfold idleStep inContract at h
    split at h
    · cases h
    · cases h; refine ⟨rfl, ?_⟩; simp only [arrive_params] at *; omega
  · rename_i r rest hr
    right
    unfold runRequest at h
    split at h
    · rename_i i hi; exact .inl ⟨r, rest, i, hr, hi, h⟩
    · rename_i e he
      right
      have hacc : accept r rest (arrive s) = { s with pending := rest, arrivals := (arrive s).arrivals, operand := r.operand } := by
        rw [accept, arrive_frame]
      rw [hacc] at h
      unfold selectReserved at h
      have hn : 2 ≤ s.params.ringSlots := by
        by_contra hc
        split at h
        all_goals (try unfold selectCode at h); all_goals (unfold inContract at h; rw [if_pos (by show s.params.ringSlots < 2; omega)] at h; cases h)
      split at h
      · rw [selectCode_eq (by exact hn)] at h; cases h; exact ⟨_, _, _, _, _, hn, rfl⟩
      · rw [selectCode_eq (by exact hn)] at h; cases h; exact ⟨_, _, _, _, _, hn, rfl⟩
      · rw [selectCode_eq (by exact hn)] at h; cases h; exact ⟨_, _, _, _, _, hn, rfl⟩
      · rw [selectCode_eq (by exact hn)] at h; cases h; exact ⟨_, _, _, _, _, hn, rfl⟩
      · rename_i w hw; rw [hw] at he; cases he

end Sys2Proof.Machine
end

