-- ==== Sys2Proof/Laws/Ingest.lean ====
section
/-! SUPPORT. One INGEST as a whole: which fields are the Trigger Engine's, and the bytes of the slot memory after it. -/

namespace Sys2Proof.Machine

/-- The fields of the next state that TRIG_EVAL alone decides (R250). -/
theorem ingestBlock_trigger (w : List Half) (s : State) :
    let t := ingestBlock w s
    let u := trigEval (timeOrder s w) s
    t.armed = u.armed ∧ t.fired = u.fired ∧ t.openBit = u.openBit ∧ t.strobe = u.strobe ∧ t.held = u.held ∧
      t.prevValid = u.prevValid ∧ t.prevAbove = u.prevAbove ∧ t.rxAnchor = u.rxAnchor ∧ t.txAnchor = u.txAnchor ∧
      t.sendFrom = u.sendFrom := by
  simp [ingestBlock]

theorem kick_slotByte (s : State) (a : Nat) : slotByte (kick s) a = slotByte s a :=
  slotByte_congr (by simp) (by simp) a

theorem advance_slotByte (s : State) (a : Nat) : slotByte (advance s) a = slotByte s a :=
  slotByte_congr (by simp) (by simp) a

/-- Every byte of the slot memory after INGEST: the packet in slot `produce_at`, every other byte as before (R251). -/
theorem ingestBlock_slotByte {s : State} (h : CanIngest s) (a : Nat) :
    slotByte (ingestBlock s.operand s) a =
      if 64 * s.produceAt ≤ a ∧ a < 64 * s.produceAt + 64 then
        (header (takesFlag (trigEval (timeOrder s s.operand) s)) s ++
          encodeBlock s (timeOrder s s.operand))[a - 64 * s.produceAt]?.getD 0
      else slotByte s a := by
  have hlen : (timeOrder s s.operand).length = s.spp.toNat := (timeOrder_length _ _).trans h.length
  have hl := packet_length (takesFlag (trigEval (timeOrder s s.operand) s)) h.latches hlen
  rw [ingestBlock, kick_slotByte, advance_slotByte]
  have e : encodeBlock (trigEval (timeOrder s s.operand) s) (timeOrder s s.operand) =
      encodeBlock s (timeOrder s s.operand) := encodeBlock_congr (by simp) (by simp) _
  have e2 : ∀ f, header f (trigEval (timeOrder s s.operand) s) = header f s := by intro f; simp [header]
  show slotByte (slotWrite (trigEval (timeOrder s s.operand) s).produceAt _ (trigEval (timeOrder s s.operand) s)) a = _
  rw [slotByte_slotWrite, e, e2, trigEval_produceAt, slotBase, hl]
  split
  · have : a - 64 * s.produceAt < (header (takesFlag (trigEval (timeOrder s s.operand) s)) s ++
        encodeBlock s (timeOrder s s.operand)).length := by omega
    rw [List.getElem?_eq_getElem this]; rfl
  · exact slotByte_congr (by simp) (by simp) a

/-- INGEST writes no slot but `produce_at` (R251). -/
theorem ingestBlock_slotRead {s : State} (h : CanIngest s) {i : Nat} (hi : i ≠ s.produceAt) :
    slotRead i (ingestBlock s.operand s) = slotRead i s := by
  unfold slotRead
  apply List.map_congr_left
  intro j hj
  rw [List.mem_range] at hj
  rw [ingestBlock_slotByte h, if_neg]
  unfold slotBase
  omega

end Sys2Proof.Machine
end

