-- ==== Sys2Proof/Laws/PerInstr.lean ====
section
/-! SUPPORT. The fields of an event word, and the family RoundTrip: for every operation, decoding its encoding gives it
back (R90, R91, R101 to R105). -/

namespace Sys2Proof

/-! ### The fields of an event word (R90) -/

@[simp] theorem evtOp_evtWord (op : Byte) (idx val : Half) : evtOp (evtWord op idx val) = op := by
  apply BitVec.eq_of_getLsbD_eq
  intro i hi
  simp only [evtOp, evtWord, BitVec.getLsbD_extractLsb', BitVec.getLsbD_append]
  simp [hi, show ¬(32 + i < 32) by omega, show 32 + i - 32 = i by omega]

@[simp] theorem evtIdx_evtWord (op : Byte) (idx val : Half) : evtIdx (evtWord op idx val) = idx := by
  apply BitVec.eq_of_getLsbD_eq
  intro i hi
  simp only [evtIdx, evtWord, BitVec.getLsbD_extractLsb', BitVec.getLsbD_append]
  simp [hi, show 16 + i < 32 by omega, show ¬(16 + i < 16) by omega, show 16 + i - 16 = i by omega]

@[simp] theorem evtVal_evtWord (op : Byte) (idx val : Half) : evtVal (evtWord op idx val) = val := by
  apply BitVec.eq_of_getLsbD_eq
  intro i hi
  simp only [evtVal, evtWord, BitVec.getLsbD_extractLsb', BitVec.getLsbD_append]
  simp [hi, show i < 32 by omega]

/-- The three fields are the whole word (R90). -/
theorem evtWord_fields (w : BitVec 40) : evtWord (evtOp w) (evtIdx w) (evtVal w) = w := by
  apply BitVec.eq_of_getLsbD_eq
  intro i hi
  simp only [evtOp, evtIdx, evtVal, evtWord, BitVec.getLsbD_extractLsb', BitVec.getLsbD_append]
  by_cases h1 : i < 16
  · simp [h1, show i < 32 by omega]
  · by_cases h2 : i < 32
    · simp [h1, h2, show i - 16 < 16 by omega, show 16 + (i - 16) = i by omega]
    · simp [h2, show i - 32 < 8 by omega, show 32 + (i - 32) = i by omega]

/-! ### The rows of the unassigned range, by number -/

/-- Each row's match and mask says the same as its range of `op` values (R105). -/
theorem rows_of_op (op : Byte) :
    (op &&& 0xFE#8 = 0x06#8 ↔ 0x06 ≤ op.toNat ∧ op.toNat ≤ 0x07) ∧
      (op &&& 0xF8#8 = 0x08#8 ↔ 0x08 ≤ op.toNat ∧ op.toNat ≤ 0x0F) ∧
      (op &&& 0xF0#8 = 0x10#8 ↔ 0x10 ≤ op.toNat ∧ op.toNat ≤ 0x1F) ∧
      (op &&& 0xE0#8 = 0x20#8 ↔ 0x20 ≤ op.toNat ∧ op.toNat ≤ 0x3F) ∧
      (op &&& 0xC0#8 = 0x40#8 ↔ 0x40 ≤ op.toNat ∧ op.toNat ≤ 0x7F) := by
  have h : ∀ op : Byte, (op &&& 0xFE#8 = 0x06#8 ↔ 0x06 ≤ op.toNat ∧ op.toNat ≤ 0x07) ∧
      (op &&& 0xF8#8 = 0x08#8 ↔ 0x08 ≤ op.toNat ∧ op.toNat ≤ 0x0F) ∧
      (op &&& 0xF0#8 = 0x10#8 ↔ 0x10 ≤ op.toNat ∧ op.toNat ≤ 0x1F) ∧
      (op &&& 0xE0#8 = 0x20#8 ↔ 0x20 ≤ op.toNat ∧ op.toNat ≤ 0x3F) ∧
      (op &&& 0xC0#8 = 0x40#8 ↔ 0x40 ≤ op.toNat ∧ op.toNat ≤ 0x7F) := by decide +kernel
  exact h op

/-- The decoder by numbers: which constructor an `op` value gives. -/
def decodeOp (op : Byte) (idx val : Half) : Instr :=
  if op.toNat = 0 then .reset idx val
  else if op.toNat = 1 then .regwr idx val
  else if op.toNat = 2 then .regrd idx val
  else if op.toNat = 3 then .ingest idx val
  else if op.toNat = 4 then .txdone idx val
  else if op.toNat = 5 then .unsupported05 idx val
  else if op.toNat ≤ 0x07 then .unsupported06 op idx val
  else if op.toNat ≤ 0x0F then .unsupported08 op idx val
  else if op.toNat ≤ 0x1F then .unsupported10 op idx val
  else if op.toNat ≤ 0x3F then .unsupported20 op idx val
  else if op.toNat ≤ 0x7F then .unsupported40 op idx val
  else .unsupported80 op idx val

theorem decodeEvt_eq (w : BitVec 40) : decodeEvt w = decodeOp (evtOp w) (evtIdx w) (evtVal w) := by
  obtain ⟨h6, h8, h10, h20, h40⟩ := rows_of_op (evtOp w)
  have hn : ∀ k : Nat, k < 256 → (evtOp w = BitVec.ofNat 8 k ↔ (evtOp w).toNat = k) := fun k hk => by
    rw [← BitVec.toNat_inj, BitVec.toNat_ofNat, Nat.mod_eq_of_lt hk]
  unfold decodeEvt decodeOp
  simp only [h6, h8, h10, h20, h40, hn 0 (by decide), hn 1 (by decide), hn 2 (by decide), hn 3 (by decide),
    hn 4 (by decide), hn 5 (by decide)]
  generalize evtOp w = op
  have hcase : op.toNat = 0 ∨ op.toNat = 1 ∨ op.toNat = 2 ∨ op.toNat = 3 ∨ op.toNat = 4 ∨ op.toNat = 5 ∨
      (6 ≤ op.toNat ∧ op.toNat ≤ 0x07) ∨ (8 ≤ op.toNat ∧ op.toNat ≤ 0x0F) ∨ (0x10 ≤ op.toNat ∧ op.toNat ≤ 0x1F) ∨
      (0x20 ≤ op.toNat ∧ op.toNat ≤ 0x3F) ∨ (0x40 ≤ op.toNat ∧ op.toNat ≤ 0x7F) ∨ 0x80 ≤ op.toNat := by omega
  rcases hcase with h | h | h | h | h | h | h | h | h | h | h | h <;>
    (repeat first | rw [if_pos (by omega)] | rw [if_neg (by omega)])

namespace Laws.RoundTrip

/-- Decoding the encoding of a well-formed operation gives it back. -/
def Statement (i : Instr) : Prop := i.wellFormed = true → decode (encode i) = .ok i

theorem reset (idx val : Half) : Statement (.reset idx val) := fun _ => by
  simp only [encode, decode, decodeEvt_eq, evtOp_evtWord, evtIdx_evtWord, evtVal_evtWord]; simp [decodeOp]

theorem regwr (idx val : Half) : Statement (.regwr idx val) := fun _ => by
  simp only [encode, decode, decodeEvt_eq, evtOp_evtWord, evtIdx_evtWord, evtVal_evtWord]; simp [decodeOp]

theorem regrd (idx val : Half) : Statement (.regrd idx val) := fun _ => by
  simp only [encode, decode, decodeEvt_eq, evtOp_evtWord, evtIdx_evtWord, evtVal_evtWord]; simp [decodeOp]

theorem ingest (idx val : Half) : Statement (.ingest idx val) := fun _ => by
  simp only [encode, decode, decodeEvt_eq, evtOp_evtWord, evtIdx_evtWord, evtVal_evtWord]; simp [decodeOp]

theorem txdone (idx val : Half) : Statement (.txdone idx val) := fun _ => by
  simp only [encode, decode, decodeEvt_eq, evtOp_evtWord, evtIdx_evtWord, evtVal_evtWord]; simp [decodeOp]

theorem unsupported05 (idx val : Half) : Statement (.unsupported05 idx val) := fun _ => by
  simp only [encode, decode, decodeEvt_eq, evtOp_evtWord, evtIdx_evtWord, evtVal_evtWord]; simp [decodeOp]

theorem unsupported06 (op : Byte) (idx val : Half) : Statement (.unsupported06 op idx val) := fun h => by
  simp only [Instr.wellFormed, opIn, decide_eq_true_eq] at h
  simp only [encode, decode, decodeEvt_eq, evtOp_evtWord, evtIdx_evtWord, evtVal_evtWord, decodeOp]
  (repeat first | rw [if_pos (by omega)] | rw [if_neg (by omega)])

theorem unsupported08 (op : Byte) (idx val : Half) : Statement (.unsupported08 op idx val) := fun h => by
  simp only [Instr.wellFormed, opIn, decide_eq_true_eq] at h
  simp only [encode, decode, decodeEvt_eq, evtOp_evtWord, evtIdx_evtWord, evtVal_evtWord, decodeOp]
  (repeat first | rw [if_pos (by omega)] | rw [if_neg (by omega)])

theorem unsupported10 (op : Byte) (idx val : Half) : Statement (.unsupported10 op idx val) := fun h => by
  simp only [Instr.wellFormed, opIn, decide_eq_true_eq] at h
  simp only [encode, decode, decodeEvt_eq, evtOp_evtWord, evtIdx_evtWord, evtVal_evtWord, decodeOp]
  (repeat first | rw [if_pos (by omega)] | rw [if_neg (by omega)])

theorem unsupported20 (op : Byte) (idx val : Half) : Statement (.unsupported20 op idx val) := fun h => by
  simp only [Instr.wellFormed, opIn, decide_eq_true_eq] at h
  simp only [encode, decode, decodeEvt_eq, evtOp_evtWord, evtIdx_evtWord, evtVal_evtWord, decodeOp]
  (repeat first | rw [if_pos (by omega)] | rw [if_neg (by omega)])

theorem unsupported40 (op : Byte) (idx val : Half) : Statement (.unsupported40 op idx val) := fun h => by
  simp only [Instr.wellFormed, opIn, decide_eq_true_eq] at h
  simp only [encode, decode, decodeEvt_eq, evtOp_evtWord, evtIdx_evtWord, evtVal_evtWord, decodeOp]
  (repeat first | rw [if_pos (by omega)] | rw [if_neg (by omega)])

theorem unsupported80 (op : Byte) (idx val : Half) : Statement (.unsupported80 op idx val) := fun h => by
  simp only [Instr.wellFormed, opIn, decide_eq_true_eq] at h
  simp only [encode, decode, decodeEvt_eq, evtOp_evtWord, evtIdx_evtWord, evtVal_evtWord, decodeOp]
  (repeat first | rw [if_pos (by omega)] | rw [if_neg (by omega)])

theorem cmdStop : Statement (.cmdStop) := fun _ => rfl

theorem cmdOnce : Statement (.cmdOnce) := fun _ => rfl

theorem cmdCont : Statement (.cmdCont) := fun _ => rfl

theorem pack2 : Statement (.pack2) := fun _ => rfl

theorem pack4 : Statement (.pack4) := fun _ => rfl

theorem pack8 : Statement (.pack8) := fun _ => rfl

theorem pack12 : Statement (.pack12) := fun _ => rfl

theorem freqOff : Statement (.freqOff) := fun _ => rfl

theorem freqMax : Statement (.freqMax) := fun _ => rfl

theorem freq2 : Statement (.freq2) := fun _ => rfl

theorem freq3 : Statement (.freq3) := fun _ => rfl

theorem freq4 : Statement (.freq4) := fun _ => rfl

theorem freq5 : Statement (.freq5) := fun _ => rfl

theorem freq6 : Statement (.freq6) := fun _ => rfl

theorem freq7 : Statement (.freq7) := fun _ => rfl

theorem freq8 : Statement (.freq8) := fun _ => rfl

theorem freq9 : Statement (.freq9) := fun _ => rfl

theorem freq10 : Statement (.freq10) := fun _ => rfl

theorem freq11 : Statement (.freq11) := fun _ => rfl

theorem freq12 : Statement (.freq12) := fun _ => rfl

theorem freq13 : Statement (.freq13) := fun _ => rfl

theorem freq14 : Statement (.freq14) := fun _ => rfl

theorem freq15 : Statement (.freq15) := fun _ => rfl

theorem trgNone : Statement (.trgNone) := fun _ => rfl

theorem trgRise : Statement (.trgRise) := fun _ => rfl

theorem trgFall : Statement (.trgFall) := fun _ => rfl

theorem trgThresh : Statement (.trgThresh) := fun _ => rfl

theorem trgStrobeLo : Statement (.trgStrobeLo) := fun _ => rfl

theorem trgStrobeHi : Statement (.trgStrobeHi) := fun _ => rfl

end Laws.RoundTrip

end Sys2Proof
end

