-- ==== Sys2Proof/Laws/Scan.lean ====
section
/-! SUPPORT. The scan of a block sample by sample: the state it has reached after `n` samples, where it stops, and what
HitAt and HeldAt say of those states (R170, R179, R180, R182). -/

namespace Sys2Proof.Machine

/-- The state after examining samples without firing. -/
def examineAll (ws : List Half) (s : State) : State := ws.foldl (fun t w => (examine w t).2) s

theorem examineAll_examined (ws : List Half) (s : State) : Examined s (examineAll ws s) := by
  induction ws generalizing s with
  | nil => exact .refl s
  | cons w ws ih => exact (examine_examined w s).trans (ih _)

theorem examineAll_cfg (ws : List Half) (s : State) : (examineAll ws s).cfg = s.cfg := by
  obtain ⟨_, _, _, _, h⟩ := examineAll_examined ws s
  rw [h]

theorem examineAll_take_succ {ws : List Half} {n : Nat} (h : n < ws.length) (s : State) :
    examineAll (ws.take (n + 1)) s = (examine ws[n] (examineAll (ws.take n) s)).2 := by
  unfold examineAll
  rw [← List.take_append_getElem h, List.foldl_append]
  rfl

/-- Everything a scan does (R170, R182): it stops with FIRE at the first sample that hits, or runs through. -/
theorem scanSamples_stops (ws : List Half) (s : State) :
    (∃ (n : Nat) (h : n < ws.length), (examine ws[n] (examineAll (ws.take n) s)).1 = true ∧
      (∀ (m : Nat) (hm : m < n), (examine ws[m] (examineAll (ws.take m) s)).1 = false) ∧
      scanSamples ws s = fire (examineAll (ws.take (n + 1)) s)) ∨
    ((∀ (m : Nat) (hm : m < ws.length), (examine ws[m] (examineAll (ws.take m) s)).1 = false) ∧
      scanSamples ws s = examineAll ws s) := by
  induction ws generalizing s with
  | nil => exact .inr ⟨fun m hm => absurd hm (by simp), rfl⟩
  | cons w ws ih =>
    cases hx : (examine w s).1 with
    | true =>
      refine .inl ⟨0, by simp, hx, fun m hm => absurd hm (by omega), ?_⟩
      simp only [scanSamples, hx, if_true]
      rfl
    | false =>
      have hs : scanSamples (w :: ws) s = scanSamples ws (examine w s).2 := by
        simp only [scanSamples, hx, Bool.false_eq_true, if_false]
      have hz : ∀ (k : Nat), (∀ (m : Nat) (hm : m < ws.length), m < k →
          (examine ws[m] (examineAll (ws.take m) (examine w s).2)).1 = false) →
          ∀ (m : Nat) (hm : m < (w :: ws).length), m < k + 1 →
            (examine (w :: ws)[m] (examineAll ((w :: ws).take m) s)).1 = false := by
        intro k hk m hm hmk
        cases m with
        | zero => exact hx
        | succ m => exact hk m (by simpa using hm) (by omega)
      rcases ih (examine w s).2 with ⟨n, h, h1, h2, h3⟩ | ⟨h1, h2⟩
      · exact .inl ⟨n + 1, by simpa using h, h1,
          fun m hm => hz n (fun m _ hmn => h2 m hmn) m (by simp; omega) hm, hs.trans h3⟩
      · exact .inr ⟨fun m hm => hz ws.length (fun m hm _ => h1 m hm) m hm (by simpa using hm), hs.trans h2⟩

/-! ### The block being taken -/

theorem comparisons_eq (s : State) : comparisons s = (examinedWords s (timeOrder s s.operand)).map (above s) := rfl

/-- In the modes 1 to 5 an armed TRIG_EVAL is the scan and the window rule (R170). -/
theorem trigEval_scan {s : State} (ha : ArmedWaiting s) (hc : (cfgTrigChannel s).toNat < s.chans.toNat)
    (hm : (cfgTrigMode s).toNat ∈ [1, 2, 3, 4, 5]) (b : List Half) :
    trigEval b s = openWindow (scanSamples (examinedWords s b) s) := by
  have hm0 : cfgTrigMode s ≠ 0#8 := by intro h; rw [h] at hm; simp at hm
  unfold trigEval evalArmed
  rw [if_pos ha.1, if_neg hm0, if_pos ⟨by simp at hm; omega, hc⟩]

/-- A block that is taken has a sample to examine, and fewer than the strobe counter can hold (R95, R140, R171). -/
theorem examinedWords_count {s : State} (h : CanIngest s) (hc : (cfgTrigChannel s).toNat < s.chans.toNat) :
    examinedWords s (timeOrder s s.operand) ≠ [] ∧ (examinedWords s (timeOrder s s.operand)).length < 2 ^ 32 := by
  have hlen : (examinedWords s (timeOrder s s.operand)).length = s.spp.toNat / s.chans.toNat :=
    channelWords_length ((timeOrder_length _ _).trans h.length) hc
  have hlat := h.latches
  simp only [latchesOk, Bool.and_eq_true, decide_eq_true_eq, Config.bodyBits, Config.channels, List.mem_cons,
    List.not_mem_nil, or_false] at hlat
  obtain ⟨⟨⟨h1, h2⟩, h3⟩, h4⟩ := hlat
  have hpos : 0 < s.spp.toNat := by obtain h1 | h1 | h1 | h1 := h1 <;> rw [h1] at h2 <;> omega
  constructor
  · rw [← List.length_pos_iff, hlen]
    exact Nat.div_pos (Nat.le_of_dvd hpos (Nat.dvd_of_mod_eq_zero h4)) (by omega)
  · have := s.spp.isLt
    have := Nat.div_le_self s.spp.toNat s.chans.toNat
    omega

/-! ### The preceding sample -/

/-- The registers of R34 before sample `n` hold the result before it (R180). -/
theorem examineAll_prev {ws : List Half} {s : State} (hw : comparisons s = ws.map (above s)) {n : Nat}
    (h : n ≤ ws.length) :
    resultBefore s n =
      if (examineAll (ws.take n) s).prevValid then some (examineAll (ws.take n) s).prevAbove else none := by
  cases n with
  | zero => rfl
  | succ n =>
    have hn : n < ws.length := h
    rw [examineAll_take_succ hn, examine_frame]
    simp only [if_true, resultBefore, hw, List.getElem?_map, List.getElem?_eq_getElem hn, Option.map_some]
    rw [above_congr (examineAll_cfg _ _)]

/-! ### The strobe -/

/-- A strobe step hits exactly where it ends in HOLD with a count in the interval (R179). -/
theorem strobeStep_hit (a b : Bool) (s : State) :
    (strobeStep a b s).1 = true ↔ (strobeStep a b s).2.strobe = .hold ∧ InInterval s (strobeStep a b s).2.held.toNat := by
  have hI : ∀ h : Counter, heldIn (cfgTrigTMin s) (cfgTrigTMax s) h = true ↔ InInterval s h.toNat := by
    intro h
    simp only [heldIn, InInterval, Bool.and_eq_true, Bool.or_eq_true, decide_eq_true_eq, beq_iff_eq,
      ← BitVec.toNat_inj]
    rfl
  rcases strobeStep_cases a b s with ⟨_, h⟩ | ⟨_, hs, h⟩ | ⟨_, _, _, h⟩ | ⟨_, hs, _, h⟩ <;> rw [h]
  · simp
  · rw [hI]; simp [hs]
  · rw [hI]; simp
  · simp [hs]

/-- In the strobe modes, one examined sample is one StrobeStep (R177, R178). -/
theorem examine_strobe {s t : State} (hm : (cfgTrigMode s).toNat ∈ [4, 5]) (hc : t.cfg = s.cfg) (w : Half) :
    (examine w t).1 = (strobeStep (inRegion s (above s w)) (inRegion s t.prevAbove) t).1 ∧
      (examine w t).2.strobe = (strobeStep (inRegion s (above s w)) (inRegion s t.prevAbove) t).2.strobe ∧
      (examine w t).2.held = (strobeStep (inRegion s (above s w)) (inRegion s t.prevAbove) t).2.held := by
  have hmt : cfgTrigMode t = cfgTrigMode s := by simp only [cfgTrigMode, memRead1, hc]
  have h45 : cfgTrigMode s = 4#8 ∨ cfgTrigMode s = 5#8 := by
    simp only [List.mem_cons, List.not_mem_nil, or_false] at hm
    simpa [← BitVec.toNat_inj] using hm
  rcases h45 with h | h <;>
    simp [examine, cond, hmt, h, condStrobeLo, condStrobeHi, inRegion, above_congr hc]

theorem heldAt_zero (s : State) (h : Nat) :
    HeldAt s 0 h ↔ InsideAt s 0 ∧
      (((resultBefore s 0).map (inRegion s) = some false ∧ s.strobe = .idle ∧ h = 0) ∨
        (s.strobe = .hold ∧ h = min (s.held.toNat + 1) (2 ^ 32 - 1))) := by
  constructor
  · rintro (⟨x, h1, h2, h3, h4, h5⟩ | ⟨h1, h2, h3⟩)
    · obtain rfl : x = 0 := by omega
      exact ⟨h3 0 (by omega) (by omega), .inl ⟨h2, h4 rfl, h5⟩⟩
    · exact ⟨h2 0 (by omega), .inr ⟨h1, h3⟩⟩
  · rintro ⟨h0, ⟨h1, h2, h3⟩ | ⟨h1, h2⟩⟩
    · exact .inl ⟨0, le_refl _, h1, fun i _ hi => by obtain rfl : i = 0 := by omega
                                                     exact h0, fun _ => h2, h3⟩
    · exact .inr ⟨h1, fun i hi => by obtain rfl : i = 0 := by omega
                                     exact h0, h2⟩

/-- The count from one sample to the next (R179): 0 at a crossing, one more while inside, saturating. -/
theorem heldAt_succ (s : State) {n : Nat} (hn : n + 1 < 2 ^ 32) (h : Nat) :
    HeldAt s (n + 1) h ↔ InsideAt s (n + 1) ∧
      ((OutsideAt s n ∧ h = 0) ∨ ∃ k, HeldAt s n k ∧ h = min (k + 1) (2 ^ 32 - 1)) := by
  constructor
  · rintro (⟨x, h1, h2, h3, h4, h5⟩ | ⟨h1, h2, h3⟩)
    · refine ⟨h3 (n + 1) h1 (le_refl _), ?_⟩
      by_cases hx : x = n + 1
      · subst hx; exact .inl ⟨h2, by omega⟩
      · exact .inr ⟨n - x, .inl ⟨x, by omega, h2, fun i hi hi' => h3 i hi (by omega), h4, rfl⟩, by omega⟩
    · exact ⟨h2 (n + 1) (le_refl _), .inr ⟨_, .inr ⟨h1, fun i hi => h2 i (by omega), rfl⟩, by omega⟩⟩
  · rintro ⟨h0, ⟨h1, h2⟩ | ⟨k, ⟨x, h1, h2, h3, h4, h5⟩ | ⟨h1, h2, h3⟩, h6⟩⟩
    · refine .inl ⟨n + 1, le_refl _, h1, fun i hi hi' => ?_, by simp, by omega⟩
      obtain rfl : i = n + 1 := by omega
      exact h0
    · refine .inl ⟨x, by omega, h2, fun i hi hi' => ?_, h4, by omega⟩
      rcases Nat.lt_or_ge n i with hni | hni
      · obtain rfl : i = n + 1 := by omega
        exact h0
      · exact h3 i hi hni
    · refine .inr ⟨h1, fun i hi => ?_, by omega⟩
      rcases Nat.lt_or_ge n i with hni | hni
      · obtain rfl : i = n + 1 := by omega
        exact h0
      · exact h2 i hni

theorem heldSucc_toNat (h : Counter) : (heldSucc h).toNat = min (h.toNat + 1) (2 ^ 32 - 1) := by
  have := h.isLt
  unfold heldSucc
  split
  · omega
  · rw [BitVec.toNat_add]
    show (h.toNat + 1) % 2 ^ 32 = _
    omega

/-- What the strobe registers `st`, `held` are at sample `n` (R33, R179). -/
def StrobeRegsAt (s : State) (n : Nat) (st : Strobe) (held : Counter) : Prop :=
  (OutsideAt s n → st = .idle ∧ held = 0) ∧
    (∀ h, HeldAt s n h → st = .hold ∧ held.toNat = h) ∧
    (InsideAt s n → (∀ h, ¬HeldAt s n h) → st = .idle ∧ held = s.held)

/-- Each sample lies on one side, and one that is held lies inside. -/
theorem insideAt_or_outsideAt {s : State} {n : Nat} (h : n < (comparisons s).length) :
    (InsideAt s n ∧ ¬OutsideAt s n) ∨ (OutsideAt s n ∧ ¬InsideAt s n) := by
  unfold InsideAt OutsideAt
  rw [List.getElem?_eq_getElem h]
  cases hx : inRegion s (comparisons s)[n] <;> simp [hx]

/-- After `n + 1` samples of a strobe scan the registers are what HeldAt says (R179). -/
theorem examineAll_strobe {ws : List Half} {s : State} (hw : comparisons s = ws.map (above s))
    (hm : (cfgTrigMode s).toNat ∈ [4, 5]) {n : Nat} (h : n < ws.length) (hn : n + 1 < 2 ^ 32) :
    StrobeRegsAt s n (examineAll (ws.take (n + 1)) s).strobe (examineAll (ws.take (n + 1)) s).held := by
  have hin : ∀ k (hk : k < ws.length), (comparisons s)[k]?.map (inRegion s) = some (inRegion s (above s ws[k])) := by
    intro k hk; simp [hw, hk]
  induction n with
  | zero =>
    rw [examineAll_take_succ h]
    obtain ⟨-, e1, e2⟩ := examine_strobe hm (examineAll_cfg (ws.take 0) s) ws[0]
    rw [e1, e2]
    show StrobeRegsAt s 0 (strobeStep _ (inRegion s s.prevAbove) s).2.strobe (strobeStep _ (inRegion s s.prevAbove) s).2.held
    have h0 := hin 0 h
    have hz : ∀ k, HeldAt s 0 k ↔ _ := heldAt_zero s
    have hb : (resultBefore s 0).map (inRegion s) = some false ↔ (s.prevValid && !inRegion s s.prevAbove) = true := by
      unfold resultBefore; cases s.prevValid <;> simp
    unfold StrobeRegsAt OutsideAt
    simp only [hz, hb, InsideAt, h0, Option.some.injEq]
    rcases strobeStep_cases (inRegion s (above s ws[0])) (inRegion s s.prevAbove) s with
      ⟨ha, hs⟩ | ⟨ha, hst, hs⟩ | ⟨ha, hst, hp, hs⟩ | ⟨ha, hst, hp, hs⟩ <;> rw [hs] <;> simp only [ha] <;> try simp only [hst]
    · simp
    · have := heldSucc_toNat s.held
      simpa using this
    · simp only [Bool.and_eq_true, Bool.not_eq_true'] at hp
      simp [hp]
    · simp [hp]
  | succ n ih =>
    have hn' : n < ws.length := by omega
    obtain ⟨i1, i2, i3⟩ := ih hn' (by omega)
    have hprev := examineAll_prev hw (n := n + 1) (by omega)
    rw [examineAll_take_succ h]
    obtain ⟨-, e1, e2⟩ := examine_strobe hm (examineAll_cfg (ws.take (n + 1)) s) ws[n + 1]
    rw [e1, e2]
    have hpv : (examineAll (ws.take (n + 1)) s).prevValid = true := by
      rw [examineAll_take_succ hn', examine_frame]
    set u := examineAll (ws.take (n + 1)) s with hu
    rw [hpv, if_pos rfl] at hprev
    have hb : OutsideAt s n ↔ inRegion s u.prevAbove = false := by
      show (resultBefore s (n + 1)).map (inRegion s) = some false ↔ _
      rw [hprev]; simp
    have h0 := hin (n + 1) h
    have hlen : n < (comparisons s).length := by rw [hw]; simpa using hn'
    have hz : ∀ k, HeldAt s (n + 1) k ↔ _ := heldAt_succ s (by omega)
    have hide := insideAt_or_outsideAt hlen
    unfold StrobeRegsAt
    rw [show OutsideAt s (n + 1) ↔ inRegion s (above s ws[n + 1]) = false by unfold OutsideAt; rw [h0]; simp]
    simp only [hz]
    rw [show InsideAt s (n + 1) ↔ inRegion s (above s ws[n + 1]) = true by unfold InsideAt; rw [h0]; simp]
    rcases strobeStep_cases (inRegion s (above s ws[n + 1])) (inRegion s u.prevAbove) u with
      ⟨ha, hs⟩ | ⟨ha, hst, hs⟩ | ⟨ha, hst, hp, hs⟩ | ⟨ha, hst, hp, hs⟩ <;> rw [hs] <;> simp only [ha] <;> try simp only [hst]
    · simp
    · -- in HOLD before: sample n is held
      have hk : ∃ k, HeldAt s n k := by
        by_contra hc
        rcases hide with ⟨ho, -⟩ | ⟨ho, -⟩
        · have := (i3 ho fun k hk => hc ⟨k, hk⟩).1; rw [hst] at this; cases this
        · have := (i1 ho).1; rw [hst] at this; cases this
      obtain ⟨k, hk⟩ := hk
      have hkh := (i2 k hk).2
      refine ⟨fun hc => by simp at hc, ?_, fun _ hc => absurd ⟨trivial, Or.inr ⟨k, hk, rfl⟩⟩ (hc _)⟩
      rintro x ⟨-, ⟨ho, -⟩ | ⟨k', hk', rfl⟩⟩
      · have := (i1 ho).1; rw [hst] at this; cases this
      · refine ⟨trivial, ?_⟩
        rw [heldSucc_toNat, (i2 k' hk').2]
    · have ho : OutsideAt s n := hb.2 (by simpa [hpv] using hp)
      refine ⟨fun hc => by simp at hc, ?_, fun _ hc => absurd ⟨trivial, Or.inl ⟨ho, rfl⟩⟩ (hc _)⟩
      rintro x ⟨-, ⟨-, rfl⟩ | ⟨k', hk', rfl⟩⟩
      · exact ⟨trivial, rfl⟩
      · have := (i2 k' hk').1; rw [hst] at this; cases this
    · have ho : ¬OutsideAt s n := by rw [hb]; rw [hpv] at hp; simpa using hp
      have hins : InsideAt s n := by tauto
      refine ⟨fun hc => by simp at hc, ?_, fun _ hc => ?_⟩
      · rintro x ⟨-, ⟨ho', -⟩ | ⟨k', hk', rfl⟩⟩
        · exact absurd ho' ho
        · have := (i2 k' hk').1; rw [hst] at this; cases this
      · exact ⟨trivial, (i3 hins fun k hk => hc _ ⟨trivial, Or.inr ⟨k, hk, rfl⟩⟩).2⟩

/-! ### Where a sample hits -/

/-- In the modes 1 to 5 the condition is met at sample `n` exactly where HitAt says (R174 to R179). -/
theorem examine_hit {ws : List Half} {s : State} (hw : comparisons s = ws.map (above s))
    (hm : (cfgTrigMode s).toNat ∈ [1, 2, 3, 4, 5]) {n : Nat} (h : n < ws.length) (hn : n + 1 < 2 ^ 32) :
    (examine ws[n] (examineAll (ws.take n) s)).1 = true ↔ HitAt s n := by
  have hc := examineAll_cfg (ws.take n) s
  have hmt : cfgTrigMode (examineAll (ws.take n) s) = cfgTrigMode s := by simp only [cfgTrigMode, memRead1, hc]
  have hprev := examineAll_prev hw (n := n) (by omega)
  have hcmp : (comparisons s)[n]? = some (above s ws[n]) := by simp [hw, h]
  by_cases h45 : (cfgTrigMode s).toNat ∈ [4, 5]
  · have hcfg : ∀ k, InInterval (examineAll (ws.take n) s) k ↔ InInterval s k := by
      intro k; simp only [InInterval, cfgTrigTMin, cfgTrigTMax, memRead4, hc]
    obtain ⟨e0, e1, e2⟩ := examine_strobe h45 hc ws[n]
    rw [e0, strobeStep_hit, ← e1, ← e2, hcfg, ← examineAll_take_succ h]
    obtain ⟨a1, a2, a3⟩ := examineAll_strobe hw h45 h hn
    have hmode : cfgTrigMode s = 4#8 ∨ cfgTrigMode s = 5#8 := by
      simpa [← BitVec.toNat_inj] using h45
    have hne : cfgTrigMode s ≠ 1#8 ∧ cfgTrigMode s ≠ 2#8 ∧ cfgTrigMode s ≠ 3#8 := by
      rcases hmode with h | h <;> rw [h] <;> decide
    simp only [HitAt, hne.1, hne.2.1, hne.2.2, hmode, false_and, false_or, true_and]
    constructor
    · rintro ⟨b1, b2⟩
      by_cases hk : ∃ k, HeldAt s n k
      · obtain ⟨k, hk⟩ := hk
        exact ⟨k, hk, (a2 k hk).2 ▸ b2⟩
      · rcases insideAt_or_outsideAt (s := s) (n := n) (by rw [hw]; simpa using h) with ⟨ho, -⟩ | ⟨ho, -⟩
        · have := (a3 ho fun k hk' => hk ⟨k, hk'⟩).1; rw [b1] at this; cases this
        · have := (a1 ho).1; rw [b1] at this; cases this
    · rintro ⟨k, hk, hi⟩
      exact ⟨(a2 k hk).1, (a2 k hk).2.symm ▸ hi⟩
  · have h123 : cfgTrigMode s = 1#8 ∨ cfgTrigMode s = 2#8 ∨ cfgTrigMode s = 3#8 := by
      simp only [List.mem_cons, List.not_mem_nil, or_false] at hm h45
      simp only [← BitVec.toNat_inj]
      show _ = 1 ∨ _ = 2 ∨ _ = 3
      tauto
    unfold HitAt
    rw [hprev, hcmp]
    have hab : above (examineAll (ws.take n) s) = above s := funext fun w => above_congr hc w
    generalize examineAll (ws.take n) s = u at hmt hab
    rcases h123 with h1 | h1 | h1 <;> rw [h1] at hmt ⊢ <;>
      simp only [examine, cond, hmt, hab, condRise, condFall, condThresh] <;>
      cases u.prevValid <;> cases u.prevAbove <;> cases above s ws[n] <;> simp

/-- The strobe registers in the modes 1 to 3 (R33). -/
theorem examineAll_keepsStrobe (ws : List Half) (s : State) (h : (cfgTrigMode s).toNat ∈ [1, 2, 3]) :
    (examineAll ws s).strobe = s.strobe ∧ (examineAll ws s).held = s.held := by
  induction ws generalizing s with
  | nil => exact ⟨rfl, rfl⟩
  | cons w ws ih =>
    have hm : cfgTrigMode (examine w s).2 = cfgTrigMode s := by rw [examine_frame w s]; rfl
    have hk : (examine w s).2.strobe = s.strobe ∧ (examine w s).2.held = s.held := by
      simp only [List.mem_cons, List.not_mem_nil, or_false] at h
      obtain h | h | h := h <;> simp [examine, cond, h]
    obtain ⟨h1, h2⟩ := ih _ (by rw [hm]; exact h)
    exact ⟨h1.trans hk.1, h2.trans hk.2⟩

/-- Everything a scan of the modes 1 to 5 does, from the first sample to the last one examined (R170, R182). -/
theorem scanSamples_last {ws : List Half} {s : State} (hw : comparisons s = ws.map (above s)) (hne : ws ≠ [])
    (hm : (cfgTrigMode s).toNat ∈ [1, 2, 3, 4, 5]) (hl : ws.length < 2 ^ 32) :
    ∃ n, n < ws.length ∧ LastExamined s n ∧
      ((HitAt s n ∧ scanSamples ws s = fire (examineAll (ws.take (n + 1)) s)) ∨
        (¬HitAt s n ∧ scanSamples ws s = examineAll (ws.take (n + 1)) s)) := by
  have hlen : (comparisons s).length = ws.length := by rw [hw]; simp
  have hit : ∀ m (h : m < ws.length), (examine ws[m] (examineAll (ws.take m) s)).1 = false → ¬HitAt s m := by
    intro m h h1 h2
    rw [(examine_hit hw hm h (by omega)).2 h2] at h1; cases h1
  rcases scanSamples_stops ws s with ⟨n, h, h1, h2, h3⟩ | ⟨h1, h2⟩
  · have := (examine_hit hw hm h (by omega)).1 h1
    exact ⟨n, h, ⟨by omega, fun m hmn => hit m (by omega) (h2 m hmn), .inl this⟩, .inl ⟨this, h3⟩⟩
  · have hp : 0 < ws.length := List.length_pos_iff.2 hne
    refine ⟨ws.length - 1, by omega,
      ⟨by omega, fun m hmn => hit m (by omega) (h1 m (by omega)), .inr (by omega)⟩,
      .inr ⟨hit _ (by omega) (h1 _ (by omega)), ?_⟩⟩
    rw [h2, Nat.sub_add_cancel hp, List.take_length]

theorem HitAt.lt {s : State} {n : Nat} (h : HitAt s n) : n < (comparisons s).length := by
  by_contra hn
  have h0 : (comparisons s)[n]? = none := List.getElem?_eq_none (by omega)
  rcases h with ⟨_, _, h⟩ | ⟨_, _, h⟩ | ⟨_, _, _, h⟩ | ⟨_, k, ⟨x, hx, _, h, _⟩ | ⟨_, h, _⟩, _⟩
  · rw [h0] at h; cases h
  · rw [h0] at h; cases h
  · rw [h0] at h; cases h
  · have := h n hx (le_refl _); rw [InsideAt, h0] at this; cases this
  · have := h n (le_refl _); rw [InsideAt, h0] at this; cases this

/-- A scan of the modes 1 to 5 fires exactly where some sample hits. -/
theorem scanSamples_fired {ws : List Half} {s : State} (hw : comparisons s = ws.map (above s)) (hne : ws ≠ [])
    (hm : (cfgTrigMode s).toNat ∈ [1, 2, 3, 4, 5]) (hl : ws.length < 2 ^ 32) (hf : s.fired = false) :
    (scanSamples ws s).fired = true ↔ ∃ n, HitAt s n := by
  obtain ⟨n, h, ⟨h1, h2, h3⟩, ⟨h4, h5⟩ | ⟨h4, h5⟩⟩ := scanSamples_last hw hne hm hl
  · rw [h5]
    exact ⟨fun _ => ⟨n, h4⟩, fun _ => rfl⟩
  · obtain ⟨_, _, _, _, he⟩ := examineAll_examined (ws.take (n + 1)) s
    rw [h5, he]
    refine ⟨fun h => absurd (hf.symm.trans h) (by simp), fun ⟨m, hm⟩ => absurd hm ?_⟩
    have := hm.lt
    rcases h3 with h3 | h3
    · exact absurd h3 h4
    · rcases Nat.lt_or_ge m n with hmn | hmn
      · exact h2 m hmn
      · obtain rfl : m = n := by omega
        exact h4

/-- On the first block after arming a held sample follows a crossing in the block itself (R177 to R179). -/
theorem heldAt_firstBlock {s : State} (hp : s.prevValid = false) (hs : s.strobe = .idle) :
    (∃ n h, HeldAt s n h ∧ InInterval s h) ↔
      StrobeHit ((comparisons s).map (inRegion s)) (cfgTrigTMin s).toNat (cfgTrigTMax s).toNat := by
  unfold StrobeHit
  simp only [List.getElem?_map]
  constructor
  · rintro ⟨n, h, ⟨x, h1, h2, h3, _, h5⟩ | ⟨h1, _⟩, hi⟩
    · cases x with
      | zero => rw [resultBefore, hp] at h2; simp at h2
      | succ c => exact ⟨c, h, h2, fun i hi => h3 (c + 1 + i) (by omega) (by omega), hi⟩
    · rw [hs] at h1; cases h1
  · rintro ⟨c, k, h1, h2, hi⟩
    refine ⟨c + 1 + k, k, .inl ⟨c + 1, by omega, h1, fun i hi hi' => ?_, by simp, by omega⟩, hi⟩
    have := h2 (i - (c + 1)) (by omega)
    rwa [show c + 1 + (i - (c + 1)) = i by omega] at this

end Sys2Proof.Machine
end

