-- ==== Sys2Proof/Tests/Slice0.lean ====
section
/-! SUPPORT. The model's own tests: the WellFormed smoke test, the words of every operation written out from the spec's
tables, one-step tests with expected results from spec/95_test_vectors.md (named in each comment), and for every
obligation with hypotheses a witness that meets them. -/

namespace Sys2Proof.Tests

open Sys2Proof.Machine

-- Many kernel evaluations at once would need more threads than the memory limit allows.
set_option Elab.async false

/-! ### WellFormed: one ill-formed term for each check -/

theorem test_illformed_06 : (Instr.unsupported06 0x08 0 0).wellFormed = false := by decide
theorem test_illformed_08 : (Instr.unsupported08 0x10 0 0).wellFormed = false := by decide
theorem test_illformed_10 : (Instr.unsupported10 0x0F 0 0).wellFormed = false := by decide
theorem test_illformed_20 : (Instr.unsupported20 0x40 0 0).wellFormed = false := by decide
theorem test_illformed_40 : (Instr.unsupported40 0x80 0 0).wellFormed = false := by decide
theorem test_illformed_80 : (Instr.unsupported80 0x7F 0 0).wellFormed = false := by decide

/-! ### Decode: a word of every operation, from R90, R91, R101 to R105 -/

/-- Source: programs P1 and P6 and vector V1, encodings as printed. -/
theorem test_decode_events :
    decode (.evt 0x0000000000#40) = .ok (.reset 0x0000 0x0000) ∧
      decode (.evt 0x011B00AA02#40) = .ok (.regwr 0x1B00 0xAA02) ∧
      decode (.evt 0x01FF070001#40) = .ok (.regwr 0xFF07 0x0001) ∧
      decode (.evt 0x021A190000#40) = .ok (.regrd 0x1A19 0x0000) ∧
      decode (.evt 0x0300000000#40) = .ok (.ingest 0x0000 0x0000) ∧
      decode (.evt 0x0400000000#40) = .ok (.txdone 0x0000 0x0000) := by decide

/-- R105: the seven rows of unassigned `op` values, at both ends of each range; three words are those of V1. -/
theorem test_decode_unassigned :
    decode (.evt 0x0500000000#40) = .ok (.unsupported05 0 0) ∧
      decode (.evt 0x0600010002#40) = .ok (.unsupported06 0x06 1 2) ∧
      decode (.evt 0x0700010002#40) = .ok (.unsupported06 0x07 1 2) ∧
      decode (.evt 0x0800010002#40) = .ok (.unsupported08 0x08 1 2) ∧
      decode (.evt 0x0F00010002#40) = .ok (.unsupported08 0x0F 1 2) ∧
      decode (.evt 0x1000010002#40) = .ok (.unsupported10 0x10 1 2) ∧
      decode (.evt 0x1F00010002#40) = .ok (.unsupported10 0x1F 1 2) ∧
      decode (.evt 0x2000010002#40) = .ok (.unsupported20 0x20 1 2) ∧
      decode (.evt 0x3F00010002#40) = .ok (.unsupported20 0x3F 1 2) ∧
      decode (.evt 0x4000010002#40) = .ok (.unsupported40 0x40 1 2) ∧
      decode (.evt 0x7F12345678#40) = .ok (.unsupported40 0x7F 0x1234 0x5678) ∧
      decode (.evt 0x8000010002#40) = .ok (.unsupported80 0x80 1 2) ∧
      decode (.evt 0xFFFFFFFFFF#40) = .ok (.unsupported80 0xFF 0xFFFF 0xFFFF) := by decide

/-- R101. -/
theorem test_decode_commands :
    decode (.cmd 0b00000000#8) = .ok .cmdStop ∧ decode (.cmd 0b00000001#8) = .ok .cmdOnce ∧
      decode (.cmd 0b00000010#8) = .ok .cmdCont ∧
      decode (.cmd 0b00000011#8) = .error (.reservedCommand 3) := by decide

/-- R102. -/
theorem test_decode_depths :
    decode (.depth 0b00000010#8) = .ok .pack2 ∧ decode (.depth 0b00000100#8) = .ok .pack4 ∧
      decode (.depth 0b00001000#8) = .ok .pack8 ∧ decode (.depth 0b00001100#8) = .ok .pack12 ∧
      decode (.depth 0b00000000#8) = .error (.reservedDepth 0) ∧
      decode (.depth 0b00010000#8) = .error (.reservedDepth 16) := by decide

/-- R103. -/
theorem test_decode_frequencies :
    decode (.freq 0x00#8) = .ok .freqOff ∧ decode (.freq 0x01#8) = .ok .freqMax ∧
      decode (.freq 0x02#8) = .ok .freq2 ∧ decode (.freq 0x03#8) = .ok .freq3 ∧
      decode (.freq 0x04#8) = .ok .freq4 ∧ decode (.freq 0x05#8) = .ok .freq5 ∧
      decode (.freq 0x06#8) = .ok .freq6 ∧ decode (.freq 0x07#8) = .ok .freq7 ∧
      decode (.freq 0x08#8) = .ok .freq8 ∧ decode (.freq 0x09#8) = .ok .freq9 ∧
      decode (.freq 0x0A#8) = .ok .freq10 ∧ decode (.freq 0x0B#8) = .ok .freq11 ∧
      decode (.freq 0x0C#8) = .ok .freq12 ∧ decode (.freq 0x0D#8) = .ok .freq13 ∧
      decode (.freq 0x0E#8) = .ok .freq14 ∧ decode (.freq 0x0F#8) = .ok .freq15 ∧
      decode (.freq 0x10#8) = .error (.reservedFrequency 16) := by decide

/-- R104. -/
theorem test_decode_trigger_modes :
    decode (.tmode 0x00#8) = .ok .trgNone ∧ decode (.tmode 0x01#8) = .ok .trgRise ∧
      decode (.tmode 0x02#8) = .ok .trgFall ∧ decode (.tmode 0x03#8) = .ok .trgThresh ∧
      decode (.tmode 0x04#8) = .ok .trgStrobeLo ∧ decode (.tmode 0x05#8) = .ok .trgStrobeHi ∧
      decode (.tmode 0x06#8) = .error (.reservedTriggerMode 6) := by decide

/-- A table word of each width; other widths are none. -/
theorem test_decode_table_word :
    decodeTableWord 40 0x01FF070001 = some (.regwr 0xFF07 0x0001) ∧ decodeTableWord 8 0x0C = some .pack12 ∧
      decodeTableWord 8 0x01 = some .cmdOnce ∧ decodeTableWord 8 0x0F = some .freq15 ∧
      decodeTableWord 16 0 = none := by decide

/-! ### Small states -/

/-- A core of `n` slots whose configuration bytes are zero but for the listed ones, before MODE has seen them. -/
def unseen (n : Nat) (writes : List (Fin 27 × Byte)) : State :=
  { State.reset with
    params := { Params.reset with ringSlots := n }
    cfg := writes.foldl (fun b w => b.set w.1 w.2) (Vector.replicate 27 0#8) }

/-- The same after MODE. -/
def configured (n : Nat) (writes : List (Fin 27 × Byte)) : State := modeEngine (unseen n writes)

/-- One channel at depth 12: a block has 40 words. -/
def single : List (Fin 27 × Byte) := [(0, 1), (1, 1), (3, 12), (4, 2)]

/-- A block of the listed words, padded to `spp` with the last one. -/
def taking (s : State) (l : List Nat) : State :=
  { s with operand := (List.range s.spp.toNat).map (fun i => BitVec.ofNat 16 (l.getD i (l.getLastD 0))) }

/-- The next state, if there is one. -/
def answer : Host.Outcome State Fault Refusal → Option State
  | .next t => some t
  | .fault _ => none
  | .refused _ => none

theorem answers {o : Host.Outcome State Fault Refusal} (h : (answer o).isSome = true) : ∃ t, o = .next t := by
  cases o with
  | next t => exact ⟨t, rfl⟩
  | fault _ => cases h
  | refused _ => cases h

/-- The slot of the last output, where that is a start of a transmission. -/
def lastStart (t : State) : Option Nat :=
  match t.out.getLast? with
  | some (.txstart i _) => some i
  | _ => none

/-- The trigger bits after an INGEST of a block. -/
def trigAfter (s : State) (l : List Nat) : Option (Bool × Bool × Bool × Nat) :=
  (answer (exec (.ingest 0 0) (taking s l))).map (fun t => (t.armed, t.fired, t.openBit, t.held.toNat))

/-! ### The events -/

/-- Source: R58 with R149: RESET from an engaged core with a transmission outstanding. -/
theorem test_reset :
    (answer (exec (.reset 7 9) { configured 4 single with txBusy := true, produceAt := 3 })).map
      (fun t => (t.engaged, t.txBusy, t.produceAt, t.cfg.toList, t.hdrMode)) =
      some (false, false, 0, List.replicate 27 0#8, 0#8) := by decide +kernel

/-- Source: V1 row 2: low pair first, high pair last. -/
theorem test_regwr_same_index :
    (answer (exec (.regwr 0x0505 0x3412) State.reset)).map (fun t => (t.cfg[5], t.out.length)) =
      some (0x34#8, 7) := by decide +kernel

/-- Source: S5 corrected: mask 0b0000000111 becomes 0b1000000111. -/
theorem test_regwr_pairs_channels :
    (answer (exec (.regwr 0x0201 0x0007) State.reset)).map (fun t => (t.cfg[25], t.cfg[26])) =
      some (0x07#8, 0x02#8) := by decide +kernel

/-- Source: V1: `REGRD 0x001B` and `REGRD 0x0005` with `cfg[0]` = 2, `cfg[5]` = 0x34. -/
theorem test_regrd :
    (answer (exec (.regrd 0x001B 0) (unseen 4 [(0, 2), (5, 0x34)]))).map (fun t => t.out.getLast?) =
        some (some (.reply [0x02#8])) ∧
      (answer (exec (.regrd 0x0005 0) (unseen 4 [(0, 2), (5, 0x34)]))).map (fun t => t.out.getLast?) =
        some (some (.reply [0x34#8, 0x02#8])) := by decide +kernel

/-- Source: P1 event 9: the state after it. -/
theorem test_ingest_rising :
    (answer (exec (.ingest 0 0) (taking (configured 4 (single ++ [(9, 1), (11, 40)])) [10, 10, 50, 80, 5]))).map
      (fun t => (t.produceAt, t.sendFrom, t.seq.toNat, t.totalIn.toNat, lastStart t)) =
      some (1, 0, 1, 40, some 0) := by decide +kernel

/-- Source: P1: packet A. -/
theorem test_ingest_packet :
    (answer (exec (.ingest 0 0) (taking (configured 4 (single ++ [(9, 1), (11, 40)])) [10, 10, 50, 80, 5]))).map
      (fun t => (slotRead 0 t).take 13) =
      some [0x80#8, 0x01#8, 0x00#8, 0x2C#8, 0x00#8, 0xAA#8, 0x00#8, 0x03#8, 0x20#8, 0x05#8, 0x00#8, 0x55#8, 0x00#8] := by
  decide +kernel

/-- Source: P4 event 4: offset -80 with three packets of history places `send_from` at 1. -/
theorem test_ingest_rewinds :
    (answer (exec (.ingest 0 0) (taking { configured 4 (single ++ [(9, 1), (11, 40), (13, 0xB0), (14, 0xFF),
        (15, 0xFF), (16, 0xFF)]) with produceAt := 3, seq := 3, totalIn := 120 } [10, 50, 13]))).map
      (fun t => (t.sendFrom, t.produceAt, t.rxAnchor.toNat, slotByte t 192, t.txBusy)) =
      some (1, 0, 120, 0x83#8, true) := by decide +kernel

/-- Source: V8: state Open, N 4, S 0, P 2, busy 1: TXDONE gives S 1, busy 1, TXSTART of slot 1. -/
theorem test_txdone :
    (answer (exec (.txdone 0 0) { configured 4 single with
        armed := false, fired := true, openBit := true, produceAt := 2, txBusy := true })).map
      (fun t => (t.sendFrom, t.txBusy, t.totalOut.toNat, lastStart t)) = some (1, true, 40, some 1) := by decide +kernel

/-- Source: P6 event 6: a stale completion frees the transport and KICK starts slot 0. -/
theorem test_txdone_stale :
    (answer (exec (.txdone 0 0) { configured 4 single with
        armed := false, fired := true, openBit := true, produceAt := 2, txBusy := true, txStale := true })).map
      (fun t => (t.sendFrom, t.txBusy, t.txStale, t.totalOut.toNat)) = some (0, true, false, 0) := by decide +kernel

/-- Source: V1 last row. -/
theorem test_unsupported :
    [Instr.unsupported05 0 0, .unsupported06 6 0 0, .unsupported08 8 0 0, .unsupported10 16 0 0, .unsupported20 32 0 0,
      .unsupported40 0x7F 0x1234 0x5678, .unsupported80 0xFF 0xFFFF 0xFFFF].all (fun i =>
        answer (exec i State.reset) == some { State.reset with out := State.reset.out ++ [.unsupported] }) = true := by
  decide +kernel

/-! ### The codes -/

/-- Source: V3 rows 8 and 1 to 4: the command codes from a configuration that is otherwise complete. -/
theorem test_commands :
    (answer (exec .cmdStop (unseen 4 single))).map (fun t => (t.engaged, t.armed)) = some (false, false) ∧
      (answer (exec .cmdOnce (unseen 4 single))).map (fun t => (t.engaged, t.armed)) = some (true, true) ∧
      (answer (exec .cmdCont (unseen 4 single))).map (fun t => (t.engaged, t.armed)) = some (true, true) := by
  decide +kernel

/-- Source: R37, R140: the depth codes and their `spp`. -/
theorem test_depths :
    (answer (exec .pack2 (unseen 4 single))).map (fun t => (t.d.toNat, t.spp.toNat)) = some (2, 240) ∧
      (answer (exec .pack4 (unseen 4 single))).map (fun t => (t.d.toNat, t.spp.toNat)) = some (4, 120) ∧
      (answer (exec .pack8 (unseen 4 single))).map (fun t => (t.d.toNat, t.spp.toNat)) = some (8, 60) ∧
      (answer (exec .pack12 (unseen 4 single))).map (fun t => (t.d.toNat, t.spp.toNat)) = some (12, 40) := by
  decide +kernel

/-- Source: V3: the mode byte of freq 1, 2 and 15 at depth 12 or 8, the low nibble of 0x12, and `swap`. -/
theorem test_frequencies :
    (answer (exec .freqMax (unseen 4 single))).map (fun t => (t.hdrMode, t.swap)) = some (0x1C#8, true) ∧
      (answer (exec .freq2 (unseen 4 single))).map (fun t => (t.hdrMode, t.swap)) = some (0x2C#8, false) ∧
      (answer (exec .freqMax (unseen 4 [(0, 2), (1, 3), (3, 12)]))).map (fun t => (t.hdrMode, t.swap)) =
        some (0x1C#8, false) ∧
      (answer (exec .freq15 (unseen 4 [(0, 1), (1, 1), (3, 8)]))).map (fun t => (t.hdrMode, t.swap)) =
        some (0xF8#8, false) ∧
      (answer (exec .freqOff (unseen 4 single))).map (fun t => t.engaged) = some false := by decide +kernel

/-- Each frequency code writes its own value into byte 4 (R103). -/
theorem test_frequency_bytes :
    [Instr.freqOff, .freqMax, .freq2, .freq3, .freq4, .freq5, .freq6, .freq7, .freq8, .freq9, .freq10, .freq11, .freq12,
      .freq13, .freq14, .freq15].map (fun i => (answer (exec i State.reset)).map (fun t => t.cfg[4].toNat)) =
      (List.range 16).map some := by decide +kernel

/-- Each trigger code writes its own value into byte 9 (R104). -/
theorem test_trigger_bytes :
    [Instr.trgNone, .trgRise, .trgFall, .trgThresh, .trgStrobeLo, .trgStrobeHi].map
      (fun i => (answer (exec i State.reset)).map (fun t => t.cfg[9].toNat)) = (List.range 6).map some := by
  decide +kernel

/-- Source: V4, rows of the modes 0 and 1 and the reserved mode 6, level 40. -/
theorem test_trigger_rising :
    trigAfter (configured 4 (single ++ [(11, 40)])) [0] = some (false, true, true, 0) ∧
      trigAfter (configured 4 (single ++ [(9, 1), (11, 40)])) [40, 41] = some (false, true, true, 0) ∧
      trigAfter (configured 4 (single ++ [(9, 1), (11, 40)])) [50, 60, 70] = some (true, false, false, 0) ∧
      trigAfter (configured 4 (single ++ [(9, 6), (11, 40)])) [10, 50] = some (true, false, false, 0) := by
  decide +kernel

/-- Source: V4, rows of the modes 2 and 3. -/
theorem test_trigger_falling :
    trigAfter (configured 4 (single ++ [(9, 2), (11, 40)])) [50, 40] = some (false, true, true, 0) ∧
      trigAfter (configured 4 (single ++ [(9, 2), (11, 40)])) [10, 5] = some (true, false, false, 0) ∧
      trigAfter (configured 4 (single ++ [(9, 3), (11, 40)])) [50, 60, 10] = some (false, true, true, 0) ∧
      trigAfter (configured 4 (single ++ [(9, 3), (11, 40)])) [40, 40] = some (true, false, false, 0) := by
  decide +kernel

/-- Source: S4 and V4, rows of the modes 4 and 5. -/
theorem test_strobe_modes :
    trigAfter (configured 4 (single ++ [(9, 4), (11, 40), (17, 2), (21, 4)])) [50, 50, 10, 10, 10, 10, 50] =
        some (false, true, true, 2) ∧
      trigAfter (configured 4 (single ++ [(9, 4), (11, 40), (17, 2), (21, 4)])) [50, 50, 10, 10, 50, 50, 50] =
        some (true, false, false, 0) ∧
      trigAfter (configured 4 (single ++ [(9, 4), (11, 40), (17, 3), (21, 2)])) [50, 10] =
        some (true, false, false, 38) ∧
      trigAfter (configured 4 (single ++ [(9, 5), (11, 40), (17, 1)])) [10, 50, 60] =
        some (false, true, true, 1) := by decide +kernel

/-! ### The encoder -/

/-- Source: V6, seven rows. -/
theorem test_adjust :
    adjust 0x0100 1 0x0800 = 0xE00#12 ∧ adjust 0x0100 0 0x0050 = 0xF50#12 ∧ adjust 0x0001 3 0x0000 = 0xFF8#12 ∧
      adjust 0 11 0x0FFF = 0x800#12 ∧ adjust 0 12 0x0FFF = 0x000#12 ∧ adjust 0xFFFF 0 0x0123 = 0x124#12 ∧
      adjust 0 0 0xF123 = 0x123#12 := by decide +kernel

/-- Source: V7, small groups. -/
theorem test_packers :
    packTwo [0xF00, 0x300, 0xC00, 0x000] = [0xCC#8] ∧ packTwo [0x400, 0x800, 0xC00, 0x3FF] = [0x6C#8] ∧
      packFour [0xABC, 0x123] = [0xA1#8] ∧ packEight [0xABC] = [0xAB#8] ∧
      packTwelve [0xABC, 0x123] = [0xAB#8, 0xC3#8, 0x12#8] := by decide

/-- Source: S1 and V7 "Swap". -/
theorem test_unpackers_and_swap :
    unpackTwelve [0xAB, 0xC3, 0x12] = [0xABC#12, 0x123#12] ∧ unpackFour [0xA1] = [0xA00#12, 0x100#12] ∧
      unpackTwo [0xCC] = [0xC00#12, 0x000#12, 0xC00#12, 0x000#12] ∧ unpackEight [0xAB] = [0xAB0#12] ∧
      swapPairs [0x200, 0x100, 0x201, 0x101] = [0x100#16, 0x200#16, 0x101#16, 0x201#16] := by decide

/-- Source: S9. -/
theorem test_host_loss :
    hostLoss 2 0x05 = some 2 ∧ hostLoss 127 0x00 = some 0 ∧ hostLoss 126 0x01 = some 2 ∧ hostLoss 2 0x85 = none := by
  decide

/-- Source: V2, rows of both bad combinations. -/
theorem test_bad_combinations :
    usedMask (unseen 4 [(1, 0x3F), (3, 12)]) = 0b1100111111#10 ∧
      usedMask (unseen 4 [(1, 0x55), (2, 0x01), (3, 12)]) = 0b1111110101#10 ∧
      usedMask (unseen 4 [(1, 0xFF), (3, 8)]) = 0b1111111111#10 ∧
      usedMask (unseen 4 [(1, 0x3F), (3, 8)]) = 0b0000111111#10 := by decide +kernel

/-! ### One step -/

/-- R294: a pending control request waits while an INGEST is pending; the step takes the INGEST. -/
theorem test_step_priority :
    (answer (step { configured 4 single with pending :=
        [⟨.evt 0x0200000000, []⟩, ⟨.evt 0x0300000000, List.replicate 40 0⟩] })).map
      (fun t => (t.seq.toNat, t.pending.length)) = some (1, 1) := by decide +kernel

/-- R106: a reserved code is written, not refused. -/
theorem test_step_reserved_code :
    (answer (step { configured 4 single with pending := [⟨.cmd 3, []⟩] })).map
      (fun t => (t.engaged, t.cfg[0].toNat)) = some (false, 3) := by decide +kernel

/-- A placed word is what the next step runs, as the first operation after reset. -/
theorem test_placed_words :
    (answer (step (State.reset.withFetchWord 8 0x0C))).map (fun t => t.cfg[3].toNat) = some 12 ∧
      (answer (step (State.reset.withFetchWord 40 0x01FF070001))).map (fun t => t.cfg[7].toNat) = some 1 := by
  decide +kernel

/-! ### Witnesses: for every obligation with hypotheses, a state and operands that meet them -/

/-- One channel, armed, about to take a block of 40 words. -/
def ready (writes : List (Fin 27 × Byte)) (l : List Nat) : State := taking (configured 4 (single ++ writes)) l

/-- The same after a fire, with the window closed. -/
def delayed (writes : List (Fin 27 × Byte)) (l : List Nat) : State :=
  { ready writes l with armed := false, fired := true, restartPending := true }

/-- The same with the window open, one packet in flight. -/
def sending (writes : List (Fin 27 × Byte)) (l : List Nat) : State :=
  { ready writes l with armed := false, fired := true, openBit := true, produceAt := 2, txBusy := true }

theorem canIngest_of {s : State} (h : (decide (2 ≤ s.params.ringSlots) && s.engaged &&
    decide (s.operand.length = s.spp.toNat) && decide (IndicesInRing s) && latchesOk s) = true) : CanIngest s := by
  simp only [Bool.and_eq_true, decide_eq_true_eq] at h
  exact ⟨h.1.1.1.1, h.1.1.1.2, h.1.1.2, h.1.2, h.2⟩

theorem ringInvariant_of {s : State} (h : (decide (2 ≤ s.params.ringSlots) && decide (IndicesInRing s) &&
    decide (TriggerFlagsLegal s) && decide (InFlightProtected s) && decide (NothingWaits s) && decide (StaleIsBusy s) &&
    decide (ArmedHasNoCountedFlight s)) = true) : RingInvariant s := by
  simp only [Bool.and_eq_true, decide_eq_true_eq] at h
  exact ⟨h.1.1.1.1.1.1, h.1.1.1.1.1.2, h.1.1.1.1.2, h.1.1.1.2, h.1.1.2, h.1.2, h.2⟩

/-- The latch invariant of a state that MODE left, with the trigger bits and the ring moved since. -/
theorem latchInvariant_of {s : State} (writes : List (Fin 27 × Byte))
    (h : (decide (s.cfg = (configured 4 writes).cfg) && decide (s.engaged = (configured 4 writes).engaged) &&
      decide (s.d = (configured 4 writes).d) && decide (s.spp = (configured 4 writes).spp) &&
      decide (s.chans = (configured 4 writes).chans) && decide (s.swap = (configured 4 writes).swap) &&
      decide (s.hdrMask = (configured 4 writes).hdrMask) && decide (s.hdrMode = (configured 4 writes).hdrMode) &&
      (configured 4 writes).engaged) = true) : LatchInvariant s := by
  simp only [Bool.and_eq_true, decide_eq_true_eq] at h
  obtain ⟨⟨⟨⟨⟨⟨⟨⟨h1, h2⟩, h3⟩, h4⟩, h5⟩, h6⟩, h7⟩, h8⟩, h9⟩ := h
  exact (modeEngine_latch (unseen 4 writes)).congr h1 h2 h3 h4 h5 h6 h7 h8 fun _ => h9

theorem witness_UnassignedOpsUnsupported :
    5 ≤ (0x05 : Byte).toNat ∧ 5 ≤ (0xFF : Byte).toNat ∧ 2 ≤ (unseen 2 []).params.ringSlots := by decide

theorem witness_UnsupportedOutcome :
    2 ≤ (unseen 2 []).params.ringSlots ∧ Instr.unsupported80 0xFF 1 2 ∈ [Instr.unsupported05 1 2,
      .unsupported06 0xFF 1 2, .unsupported08 0xFF 1 2, .unsupported10 0xFF 1 2, .unsupported20 0xFF 1 2,
      .unsupported40 0xFF 1 2, .unsupported80 0xFF 1 2] := by decide

theorem witness_StepRunsDecodedEvent :
    takeNext (arrive { State.reset with arrivals := [[⟨.evt 0x0400000000, []⟩]] }).pending =
        some (⟨.evt 0x0400000000, []⟩, []) ∧
      decode (.evt 0x0400000000) = .ok (.txdone 0 0) ∧
      ((arrive State.reset).pending = [] ∧ 2 ≤ State.reset.params.ringSlots) ∧
      decodeTableWord 40 0x0300000000 = some (.ingest 0 0) := by decide +kernel

/-- A RESET behind an INGEST behind a control request is taken first; an empty bag gives none; and one event of each
class decodes. -/
theorem witness_PriorityOrder :
    takeNext [⟨.evt 0x0200000000, []⟩, ⟨.evt 0x0300000000, []⟩, ⟨.evt 0x0000000000, []⟩] =
        some (⟨.evt 0x0000000000, []⟩, [⟨.evt 0x0200000000, []⟩, ⟨.evt 0x0300000000, []⟩]) ∧
      takeNext [] = none ∧ decode (.evt 0x0000000000) = .ok (.reset 0 0) ∧
      decode (.evt 0x0300000000) = .ok (.ingest 0 0) ∧ decode (.evt 0x0400000000) = .ok (.txdone 0 0) ∧
      decode (.cmd 1) = .ok .cmdOnce := by decide +kernel

theorem witness_RefusedInputs :
    (unseen 1 []).params.ringSlots < 2 ∧
      (2 ≤ (configured 2 single).params.ringSlots ∧ (configured 2 single).engaged = true ∧
        (configured 2 single).operand.length ≠ (configured 2 single).spp.toNat) := by decide +kernel

theorem witness_FaultsOutsideRanges :
    (2 ≤ (ready [] [1]).params.ringSlots ∧ (ready [] [1]).engaged = true ∧
        (ready [] [1]).operand.length = (ready [] [1]).spp.toNat ∧
        ¬IndicesInRing { ready [] [1] with produceAt := 4 }) ∧
      (IndicesInRing (ready [] [1]) ∧ latchesOk { ready [] [1] with chans := 0 } = false) ∧
      ((sending [] [1]).txBusy = true ∧ ¬IndicesInRing { sending [] [1] with sendFrom := 4 }) := by decide +kernel

theorem witness_RegwrLowThenHigh : 2 ≤ (unseen 2 []).params.ringSlots := by decide

theorem witness_RegwrBothOutOfRange :
    2 ≤ (unseen 2 []).params.ringSlots ∧ 27 ≤ (0x1B1B : Half).toNat % 256 ∧ 27 ≤ (0x1B1B : Half).toNat / 256 := by
  decide

/-- Final bytes that engage (the frequency and the command of `single` written together) and that do not. -/
theorem witness_RegwrTwoBytesOneMode :
    ((lowByte 0x0004).toNat < 27 ∧ (highByte 0x0004).toNat < 27 ∧ 2 ≤ (unseen 2 single).params.ringSlots) ∧
      bytesDisengage (unseen 2 single) (((unseen 2 single).cfg.set 4 2).set 0 1) = false ∧
      ((lowByte 0x1A1A).toNat < 27 ∧ (highByte 0x1A1A).toNat < 27) ∧
      bytesDisengage (unseen 2 single) (((unseen 2 single).cfg.set 4 2).set 0 0) = true := by decide +kernel

theorem witness_RegrdReply : 2 ≤ (unseen 2 []).params.ringSlots := by decide

theorem witness_CodeRowsWriteTheirRegister :
    codeOf .trgStrobeHi = some (9, 5) ∧ codeOf .cmdStop = some (0, 0) ∧ 2 ≤ (unseen 2 []).params.ringSlots := by decide

/-- One write for each of the four conditions. -/
theorem witness_DisengagePath :
    2 ≤ (unseen 2 single).params.ringSlots ∧
      channelList (usedMask { unseen 2 single with cfg := (unseen 2 single).cfg.set 1 0 }) = [] ∧
      (cfgCmd { unseen 2 single with cfg := (unseen 2 single).cfg.set 0 3 } ≠ 1#8 ∧
        cfgCmd { unseen 2 single with cfg := (unseen 2 single).cfg.set 0 3 } ≠ 2#8) ∧
      cfgFreq { unseen 2 single with cfg := (unseen 2 single).cfg.set 4 0 } = 0#8 ∧
      (cfgDepth { unseen 2 single with cfg := (unseen 2 single).cfg.set 3 16 }).toNat ∉ [2, 4, 8, 12] := by
  decide +kernel

/-- A write that leaves one channel at the highest rate, one that leaves two, one that leaves one channel at the slowest
rate. -/
theorem witness_FullPath :
    let a := { unseen 2 single with cfg := (unseen 2 single).cfg.set 4 1 }
    let b := { unseen 2 single with cfg := (unseen 2 single).cfg.set 1 3 }
    let c := { unseen 2 single with cfg := (unseen 2 single).cfg.set 4 15 }
    2 ≤ (unseen 2 single).params.ringSlots ∧
      (channelList (usedMask a) = [0] ∧ cfgCmd a = 1#8 ∧ cfgFreq a = 1#8 ∧ (cfgDepth a).toNat ∈ [2, 4, 8, 12]) ∧
      (channelList (usedMask b) = [0, 1] ∧ cfgCmd b = 1#8 ∧ cfgFreq b = 2#8 ∧ (cfgDepth b).toNat ∈ [2, 4, 8, 12]) ∧
      (channelList (usedMask c) = [0] ∧ cfgCmd c = 1#8 ∧ cfgFreq c = 15#8 ∧ (cfgDepth c).toNat ∈ [2, 4, 8, 12]) := by
  decide +kernel

/-- An odd count above one, and both bad combinations. -/
theorem witness_ChannelForcing :
    (channelList ((cfgChannels (unseen 4 [(1, 7)])).extractLsb' 0 10)).length = 3 ∧
      ((cfgDepth (unseen 4 [(1, 0xFF), (3, 8)])).toNat,
        (channelList ((cfgChannels (unseen 4 [(1, 0xFF), (3, 8)])).extractLsb' 0 10)).length) = (8, 8) ∧
      ((cfgDepth (unseen 4 [(1, 0x3F), (3, 12)])).toNat,
        (channelList ((cfgChannels (unseen 4 [(1, 0x3F), (3, 12)])).extractLsb' 0 10)).length) = (12, 6) := by
  decide +kernel

theorem witness_SppMultipleOfChannels :
    (cfgDepth (unseen 4 [(1, 0x3F), (3, 12)])).toNat ∈ [2, 4, 8, 12] ∧
      channelList (usedMask (unseen 4 [(1, 0x3F), (3, 12)])) ≠ [] ∧
      (cfgChannels (unseen 4 [(2, 2)])).getLsbD 9 = true := by decide +kernel

theorem witness_UsedChannelsStored :
    2 ≤ (unseen 2 []).params.ringSlots ∧ (lowByte 0xFF1A).toNat < 27 ∧ (highByte 0x1AFF).toNat < 27 := by decide

/-- CFG_DEFAULTS that do not engage, and CFG_DEFAULTS that do. -/
theorem witness_ResetLoadsDefaults :
    2 ≤ (unseen 2 []).params.ringSlots ∧
      (answer (exec (.reset 0 0) (unseen 2 []))).map (fun t => t.engaged) = some false ∧
      [(2 : Byte), 1].map (fun f => (answer (exec (.reset 0 0) { unseen 2 [] with
        params := { ringSlots := 2, cfgDefaults := (unseen 2 (single ++ [(4, f)])).cfg } })).map
          (fun t => (t.engaged, t.swap))) = [some (true, false), some (true, true)] := by decide +kernel

theorem witness_ResetTable :
    2 ≤ (unseen 2 []).params.ringSlots ∧ (unseen 2 []).params.cfgDefaults = Vector.replicate 27 0#8 := by decide +kernel

theorem witness_IngestStoresPacket : CanIngest (ready [] [1]) := canIngest_of (by decide +kernel)

/-- A block that fires and starts a transmission (the first clause of the scheduler); with the transport busy, none
starts (the second); and a full ring with the transport busy. -/
theorem witness_IngestAdvancesAndKicks :
    CanIngest (ready [] [1]) ∧ CanIngest (sending [] [1]) ∧
      (answer (exec (.ingest 0 0) (ready [] [1]))).map (fun t => (t.fired && t.openBit, t.sendFrom, t.produceAt)) =
        some (true, 0, 1) ∧
      ((sending [] [1]).produceAt + 2) % (sending [] [1]).params.ringSlots = (sending [] [1]).sendFrom :=
  ⟨canIngest_of (by decide +kernel), canIngest_of (by decide +kernel), by decide +kernel, by decide +kernel⟩

/-- A block that fires, with an offset of -1, and one that does not. -/
theorem witness_FirePlacesSendFrom :
    (CanIngest (ready [(13, 0xFF), (14, 0xFF), (15, 0xFF), (16, 0xFF)] [1]) ∧
        ArmedWaiting (ready [(13, 0xFF), (14, 0xFF), (15, 0xFF), (16, 0xFF)] [1]) ∧
        cfgTrigOffset (ready [(13, 0xFF), (14, 0xFF), (15, 0xFF), (16, 0xFF)] [1]) = -1) ∧
      (CanIngest (ready [(9, 1)] [1]) ∧ ArmedWaiting (ready [(9, 1)] [1]) ∧
        (answer (exec (.ingest 0 0) (ready [(9, 1)] [1]))).map (fun t => t.fired) = some false) :=
  ⟨⟨canIngest_of (by decide +kernel), by decide +kernel, by decide +kernel⟩,
    canIngest_of (by decide +kernel), by decide +kernel, by decide +kernel⟩

theorem witness_TriggerNoneFires :
    CanIngest (ready [] [1]) ∧ ArmedWaiting (ready [] [1]) ∧ cfgTrigMode (ready [] [1]) = 0#8 :=
  ⟨canIngest_of (by decide +kernel), by decide +kernel, by decide +kernel⟩

theorem witness_EdgeModesFire :
    ∀ m ∈ [(1 : Byte), 2, 3], CanIngest (ready [(9, m), (11, 40)] [10, 50]) ∧
      ArmedWaiting (ready [(9, m), (11, 40)] [10, 50]) ∧
      (cfgTrigChannel (ready [(9, m), (11, 40)] [10, 50])).toNat < (ready [(9, m), (11, 40)] [10, 50]).chans.toNat ∧
      cfgTrigMode (ready [(9, m), (11, 40)] [10, 50]) = m := by
  intro m hm
  simp only [List.mem_cons, List.not_mem_nil, or_false] at hm
  rcases hm with rfl | rfl | rfl <;>
    exact ⟨canIngest_of (by decide +kernel), by decide +kernel, by decide +kernel, by decide +kernel⟩

/-- The second block of V4's row "held carries across blocks": 38 samples held at the end of the first. -/
def holding : State :=
  { ready [(9, 5), (11, 40), (17, 45)] [50] with strobe := .hold, held := 38, prevValid := true, prevAbove := true }

/-- A block whose first sample crosses into the region of mode 4, from a sample of the block before. -/
def crossing : State := { ready [(9, 4), (11, 40), (17, 1)] [10] with prevValid := true, prevAbove := true }

/-- Source: V4, the row "held carries across blocks" (it fires with `held` 45); and R179 and R180 at the edge of a block. -/
theorem test_strobe_carried :
    (answer (exec (.ingest 0 0) holding)).map (fun t => (t.fired, t.held.toNat)) = some (true, 45) ∧
      (answer (exec (.ingest 0 0) crossing)).map (fun t => (t.fired, t.held.toNat)) = some (true, 1) := by
  decide +kernel

theorem holding_held : HeldAt holding 6 45 ∧ InInterval holding 45 :=
  ⟨.inr ⟨rfl, by unfold InsideAt; decide +kernel, by decide +kernel⟩, by unfold InInterval; decide +kernel⟩

theorem crossing_held : HeldAt crossing 1 1 ∧ InInterval crossing 1 :=
  ⟨.inl ⟨0, by decide, by decide +kernel, by unfold InsideAt; decide +kernel, fun _ => rfl, rfl⟩,
    by unfold InInterval; decide +kernel⟩

/-- The hypotheses, in a mode of each kind; then each clause: a sample that hits, a last sample outside, one that is held,
and one inside that was never seen outside. -/
theorem witness_PreviousSampleCarried :
    (∀ s ∈ [ready [(9, 1), (11, 40)] [10, 50], ready [(9, 5), (11, 40)] [10], holding, crossing,
      ready [(9, 5), (11, 40)] [50]], CanIngest s ∧ ArmedWaiting s ∧ (cfgTrigChannel s).toNat < s.chans.toNat ∧
        (cfgTrigMode s).toNat ∈ [1, 2, 3, 4, 5]) ∧
      HitAt (ready [(9, 1), (11, 40)] [10, 50]) 1 ∧ OutsideAt (ready [(9, 5), (11, 40)] [10]) 39 ∧
      HeldAt holding 6 45 ∧ InsideAt (ready [(9, 5), (11, 40)] [50]) 39 ∧
      ∀ h, ¬HeldAt (ready [(9, 5), (11, 40)] [50]) 39 h := by
  refine ⟨fun s hs => ?_, .inl (by decide +kernel), by unfold OutsideAt; decide +kernel, holding_held.1,
    by unfold InsideAt; decide +kernel, ?_⟩
  · simp only [List.mem_cons, List.not_mem_nil, or_false] at hs
    rcases hs with rfl | rfl | rfl | rfl | rfl <;>
      exact ⟨canIngest_of (by decide +kernel), by decide +kernel, by decide +kernel, by decide +kernel⟩
  · rintro h (⟨x, h1, h2, -⟩ | ⟨h1, -⟩)
    · have : ∀ x, x ≤ 39 → (resultBefore (ready [(9, 5), (11, 40)] [50]) x).map
          (inRegion (ready [(9, 5), (11, 40)] [50])) ≠ some false := by decide +kernel
      exact this x h1 h2
    · cases h1

/-- The hypotheses on a block carried into HOLD, on one with a crossing at its first sample, and on a first block. -/
theorem witness_StrobeModesFire :
    (∀ s ∈ [holding, crossing, ready [(9, 4), (11, 40), (17, 1)] [10, 50, 10],
      ready [(9, 5), (11, 40), (17, 1)] [10, 50, 10]], CanIngest s ∧ ArmedWaiting s ∧
        (cfgTrigChannel s).toNat < s.chans.toNat ∧ (cfgTrigMode s).toNat ∈ [4, 5]) ∧
      (HeldAt holding 6 45 ∧ InInterval holding 45) ∧ (HeldAt crossing 1 1 ∧ InInterval crossing 1) ∧
      ∀ m ∈ [(4 : Byte), 5], (ready [(9, m), (11, 40), (17, 1)] [10, 50, 10]).prevValid = false ∧
        (ready [(9, m), (11, 40), (17, 1)] [10, 50, 10]).strobe = .idle ∧
        cfgTrigMode (ready [(9, m), (11, 40), (17, 1)] [10, 50, 10]) = m := by
  refine ⟨fun s hs => ?_, holding_held, crossing_held, by decide +kernel⟩
  simp only [List.mem_cons, List.not_mem_nil, or_false] at hs
  rcases hs with rfl | rfl | rfl | rfl <;>
    exact ⟨canIngest_of (by decide +kernel), by decide +kernel, by decide +kernel, by decide +kernel⟩

/-- The reserved mode 6, and mode 1 with the trigger channel just past the scan. -/
theorem witness_NoSampleNoFire :
    (CanIngest (ready [(9, 6)] [1]) ∧ ArmedWaiting (ready [(9, 6)] [1]) ∧
        6 ≤ (cfgTrigMode (ready [(9, 6)] [1])).toNat) ∧
      (CanIngest (ready [(9, 1), (10, 1)] [1]) ∧ ArmedWaiting (ready [(9, 1), (10, 1)] [1]) ∧
        cfgTrigMode (ready [(9, 1), (10, 1)] [1]) ≠ 0#8 ∧ (ready [(9, 1), (10, 1)] [1]).chans.toNat ≤
          (cfgTrigChannel (ready [(9, 1), (10, 1)] [1])).toNat) :=
  ⟨⟨canIngest_of (by decide +kernel), by decide +kernel, by decide +kernel⟩,
    canIngest_of (by decide +kernel), by decide +kernel, by decide +kernel, by decide +kernel⟩

theorem witness_UnarmedKeepsTrigger : CanIngest (sending [] [1]) ∧ (sending [] [1]).armed = false :=
  ⟨canIngest_of (by decide +kernel), by decide +kernel⟩

/-- Offset 40, with 40 samples since the fire (opens) and with 39 (does not). -/
theorem witness_DelayOpensWindow :
    CanIngest { delayed [(13, 40)] [1] with totalIn := 40 } ∧ Delay { delayed [(13, 40)] [1] with totalIn := 40 } ∧
      max (cfgTrigOffset (delayed [(13, 40)] [1])) 0 ≤ (((40 : Counter) - 0).toNat : Int) ∧
      CanIngest { delayed [(13, 40)] [1] with totalIn := 39 } ∧ Delay { delayed [(13, 40)] [1] with totalIn := 39 } ∧
      (((39 : Counter) - 0).toNat : Int) < max (cfgTrigOffset (delayed [(13, 40)] [1])) 0 :=
  ⟨canIngest_of (by decide +kernel), by decide +kernel, by decide +kernel, canIngest_of (by decide +kernel),
    by decide +kernel, by decide +kernel⟩

/-- The five clauses: a fire that opens, a fire that delays, a delay that lasts, a delay that ends, and an open window
whose flag is spent. -/
theorem witness_RestartFlagPlacement :
    (ArmedWaiting (ready [(9, 1)] [1]) ∧ trigAfter (ready [(9, 1)] [1]) [1] = some (true, false, false, 0)) ∧
    (ArmedWaiting (ready [] [1]) ∧ trigAfter (ready [] [1]) [1] = some (false, true, true, 0)) ∧
      (ArmedWaiting (ready [(13, 1)] [1]) ∧ trigAfter (ready [(13, 1)] [1]) [1] = some (false, true, false, 0)) ∧
      (Delay (delayed [(13, 40)] [1]) ∧ trigAfter (delayed [(13, 40)] [1]) [1] = some (false, true, false, 0)) ∧
      (Delay (delayed [] [1]) ∧ (delayed [] [1]).restartPending = true ∧
        trigAfter (delayed [] [1]) [1] = some (false, true, true, 0)) ∧
      (Open (sending [] [1]) ∧ (sending [] [1]).restartPending = false) ∧ CanIngest (sending [] [1]) :=
  ⟨by decide +kernel, by decide +kernel, by decide +kernel, by decide +kernel, by decide +kernel, by decide +kernel,
    canIngest_of (by decide +kernel)⟩

theorem witness_SaturationDropsNewest :
    CanIngest { sending [] [1] with produceAt := 3 } ∧ Open { sending [] [1] with produceAt := 3 } ∧
      (sending [] [1]).txBusy = true ∧ (3 + 1) % (sending [] [1]).params.ringSlots = (sending [] [1]).sendFrom :=
  ⟨canIngest_of (by decide +kernel), by decide +kernel, by decide +kernel, by decide +kernel⟩

theorem witness_DepthCodesSelectPacker :
    2 ≤ (unseen 4 single).params.ringSlots ∧
      [Instr.pack2, .pack4, .pack8, .pack12].map (fun i =>
        (answer (exec i (unseen 4 single))).map (fun t => t.engaged)) = List.replicate 4 (some true) ∧
      (List.replicate 40 (0 : Half)).length = 480 / 12 := by decide +kernel

theorem witness_TriggerCodesSelectMode :
    2 ≤ (unseen 4 single).params.ringSlots ∧
      [Instr.trgNone, .trgRise, .trgFall, .trgThresh, .trgStrobeLo, .trgStrobeHi].map (fun i =>
        (answer (exec i (unseen 4 single))).map (fun t =>
          (t.engaged, decide ((cfgTrigChannel t).toNat < t.chans.toNat), t.spp.toNat))) =
        List.replicate 6 (some (true, true, 40)) := by decide +kernel

theorem witness_FrequencyCodesSetInterval :
    (codeOf .freqOff = some (4, 0) ∧ codeOf .freqMax = some (4, 1) ∧ codeOf .freq15 = some (4, 15)) ∧
      2 ≤ (unseen 2 single).params.ringSlots ∧
      [Instr.freqOff, .freqMax, .freq15].map (fun i =>
        (answer (exec i (unseen 2 single))).map (fun t => t.engaged)) = [some false, some true, some true] := by
  decide +kernel

theorem witness_CommandCodesArm :
    2 ≤ (unseen 2 single).params.ringSlots ∧ channelList (usedMask (unseen 2 single)) ≠ [] ∧
      cfgFreq (unseen 2 single) ≠ 0#8 ∧ (cfgDepth (unseen 2 single)).toNat ∈ [2, 4, 8, 12] := by decide +kernel

/-- Command 3, depth 3 and depth 16, frequency 16. -/
theorem witness_ReservedCodesAct :
    2 ≤ (unseen 2 single).params.ringSlots ∧ 3 ≤ (3 : Byte).toNat ∧ (3 : Byte).toNat ∉ [2, 4, 8, 12] ∧
      (16 : Byte).toNat ∉ [2, 4, 8, 12] ∧ 16 ≤ (16 : Byte).toNat ∧ channelList (usedMask (unseen 2 single)) ≠ [] ∧
      cfgCmd (unseen 2 single) = 1#8 ∧ (cfgDepth (unseen 2 single)).toNat ∈ [2, 4, 8, 12] := by decide +kernel

/-- A completion that starts the next slot, and one that empties the ring. -/
theorem witness_TxdoneCounted :
    (2 ≤ (sending [] [1]).params.ringSlots ∧ IndicesInRing (sending [] [1]) ∧ (sending [] [1]).txBusy = true ∧
        (sending [] [1]).txStale = false ∧ winOpen (sending [] [1]) = true) ∧
      ((sending [] [1]).totalOut + (sending [] [1]).spp.setWidth 32 - (sending [] [1]).txAnchor).toNat <
        2 ^ ((cfgSamples (sending [] [1])).toNat + 10) ∧
      ((sending [] [1]).sendFrom + 1) % (sending [] [1]).params.ringSlots ≠ (sending [] [1]).produceAt ∧
      ((sending [] [1]).sendFrom + 1) % (sending [] [1]).params.ringSlots =
        ({ sending [] [1] with produceAt := 1 } : State).produceAt := by decide +kernel

/-- 984 samples sent, so this completion makes 1024, with the command 1 and with the command 2. -/
theorem witness_BurstEndByCommand :
    ∀ c ∈ [(1 : Byte), 2],
      let s := { sending [(0, c)] [1] with totalOut := 984 }
      2 ≤ s.params.ringSlots ∧ IndicesInRing s ∧ s.txBusy = true ∧ s.txStale = false ∧ s.fired = true ∧
        cfgCmd s = c ∧ 2 ^ ((cfgSamples s).toNat + 10) ≤ (s.totalOut + s.spp.setWidth 32 - s.txAnchor).toNat := by
  intro c hc
  simp only [List.mem_cons, List.not_mem_nil, or_false] at hc
  rcases hc with rfl | rfl <;> decide +kernel

theorem witness_BurstNeverEndsFrom22 :
    2 ≤ (sending [(8, 22)] [1]).params.ringSlots ∧ IndicesInRing (sending [(8, 22)] [1]) ∧
      (sending [(8, 22)] [1]).txBusy = true ∧ 22 ≤ (cfgSamples (sending [(8, 22)] [1])).toNat := by decide +kernel

theorem witness_TxdoneStale :
    2 ≤ (sending [] [1]).params.ringSlots ∧ IndicesInRing (sending [] [1]) ∧ (sending [] [1]).txBusy = true ∧
      ({ sending [] [1] with txStale := true } : State).txStale = true := by decide +kernel

theorem witness_EventsIgnored :
    2 ≤ (unseen 2 []).params.ringSlots ∧ (unseen 2 []).engaged = false ∧ (unseen 2 []).txBusy = false := by decide

/-- A state in the middle of a capture with an INGEST and a TXDONE pending, that meets all three invariants, and a step
from it. -/
def capturing : State :=
  { sending [] [1] with
    pending := [⟨.evt 0x0400000000, []⟩, ⟨.evt 0x0300000000, List.replicate 40 7⟩], slots := [(3, 0x2C)] }

theorem capturing_invariant : CoreInvariant capturing :=
  ⟨ringInvariant_of (by decide +kernel), latchInvariant_of single (by decide +kernel), by decide +kernel⟩

theorem witness_RingInvariantKept : RingInvariant capturing ∧ ∃ t, step capturing = .next t :=
  ⟨capturing_invariant.ring, answers (by decide +kernel)⟩

theorem witness_LatchInvariantKept : LatchInvariant capturing ∧ ∃ t, step capturing = .next t :=
  ⟨capturing_invariant.latch, answers (by decide +kernel)⟩

theorem witness_MemoryCanonicalKept : Memory.wf capturing.slots ∧ ∃ t, step capturing = .next t :=
  ⟨capturing_invariant.memory, answers (by decide +kernel)⟩

/-- Both outcomes: `capturing` steps, and with a block of 39 words it is refused. -/
theorem witness_StepNeverFaults :
    (CoreInvariant capturing ∧ ∃ t, step capturing = .next t) ∧
      takeNext (arrive { capturing with pending := [⟨.evt 0x0300000000, List.replicate 39 7⟩] }).pending =
        some (⟨.evt 0x0300000000, List.replicate 39 7⟩, []) ∧
      decode (.evt 0x0300000000) = .ok (.ingest 0 0) ∧ capturing.engaged = true ∧
      (List.replicate 39 (7 : Half)).length ≠ capturing.spp.toNat :=
  ⟨⟨capturing_invariant, answers (by decide +kernel)⟩, by decide +kernel, by decide, by decide +kernel,
    by decide +kernel⟩

theorem witness_TriggerTransitions : CoreInvariant capturing ∧ ∃ t, exec (.ingest 0 0) capturing = .next t :=
  ⟨capturing_invariant, answers (by decide +kernel)⟩

theorem witness_InFlightSlotPreserved :
    RingInvariant capturing ∧ capturing.txBusy = true ∧ capturing.txStale = false ∧
      (∃ t, exec (.ingest 0 0) capturing = .next t) ∧ ∀ idx val, Instr.ingest 0 0 ≠ .reset idx val :=
  ⟨capturing_invariant.ring, by decide +kernel, by decide +kernel, answers (by decide +kernel), by simp⟩

theorem witness_WriterDiscipline :
    (∃ t, exec (.ingest 0 0) capturing = .next t) ∧ capturing.armed = false ∧
      (∃ t, exec (.txdone 0 0) capturing = .next t) ∧
      (∃ t, exec (.regwr 0xFF07 1) { capturing with txBusy := false } = .next t) :=
  ⟨answers (by decide +kernel), by decide +kernel, answers (by decide +kernel), answers (by decide +kernel)⟩

theorem witness_PackersBitLayout :
    [(1 : Sample), 2, 3, 4][4 * 0]? = some 1 ∧ [(1 : Sample), 2, 3, 4][4 * 0 + 3]? = some 4 ∧
      [(1 : Sample), 2, 3, 4][2 * 1]? = some 3 ∧ [(1 : Sample), 2, 3, 4][2 * 1 + 1]? = some 4 ∧
      [(1 : Sample), 2, 3, 4][3]? = some 4 := by decide

theorem witness_AdjustFormula : 12 ≤ (12 : Byte).toNat := by decide

theorem witness_SwapOrder : (ready [(4, 1)] [1]).swap = true ∧ (ready [] [1]).swap = false ∧
    [(1 : Half), 2, 3, 4].length % 2 = 0 ∧ 2 * 1 + 1 < [(1 : Half), 2, 3, 4].length := by decide +kernel

theorem witness_PackRoundTrip : [(0xAB : Byte), 0xC3, 0x12].length % 3 = 0 ∧ [(1 : Sample), 2].length % 2 = 0 := by
  decide

theorem witness_ExaminedWordsAndComparator :
    (ready [] [1]).operand.length = (ready [] [1]).spp.toNat ∧
      (cfgTrigChannel (ready [] [1])).toNat < (ready [] [1]).chans.toNat ∧
      39 < (ready [] [1]).spp.toNat / (ready [] [1]).chans.toNat := by decide +kernel

theorem witness_HeaderTellsHost : CanIngest (ready [] [1]) ∧ LatchInvariant (ready [] [1]) :=
  ⟨canIngest_of (by decide +kernel), latchInvariant_of single (by decide +kernel)⟩

theorem witness_LossFormulaCountsDrops : 0 < 128 ∧ 127 < 128 := by decide

end Sys2Proof.Tests
end

section
/-! SUPPORT and PROOFS. The statements about the whole state: the ring invariant and the canonical slot memory are kept by
every step, what RESET leaves, and the model's own stops. -/

namespace Sys2Proof.Machine

/-! ### From the operations to the step -/

/-- A property that the model's inputs do not touch, that every operation keeps and that the write of any byte keeps is
kept by every step: the write is what the reserved codes run (R71, R106). -/
theorem step_keeps {P : State → Prop}
    (hinputs : ∀ s p q op, P s → P { s with pending := p, arrivals := q, operand := op })
    (hexec : ∀ i s t, P s → exec i s = .next t → P t)
    (hwrite : ∀ reg c s, P s → P (emit .ack (afterWrite reg c s)))
    {s t : State} (hs : P s) (h : step s = .next t) : P t := by
  rcases step_cases h with ⟨rfl, -⟩ | ⟨r, rest, i, -, -, hi⟩ | ⟨p, q, op, reg, c, -, rfl⟩
  · rw [arrive_frame]
    exact hinputs s _ _ s.operand hs
  · rw [arrive_frame] at hi
    exact hexec i _ t (hinputs s _ _ _ hs) hi
  · exact hwrite reg c _ (hinputs s p q op hs)

/-! ### The ring invariant (R59) -/

/-- R59 reads only these fields. -/
theorem RingInvariant.congr {s t : State} (h : RingInvariant s) (h1 : t.params = s.params)
    (h2 : t.produceAt = s.produceAt) (h3 : t.sendFrom = s.sendFrom) (h4 : t.txBusy = s.txBusy)
    (h5 : t.txStale = s.txStale) (h6 : t.armed = s.armed) (h7 : t.fired = s.fired) (h8 : t.openBit = s.openBit) :
    RingInvariant t := by
  obtain ⟨hn, hi, hf, hfl, hst, har⟩ := h.core.congr h1 h2 h3 h4 h5 h6 h7 h8
  have hw : NothingWaits t := by
    simpa only [NothingWaits, winOpen, h2, h3, h4, h7, h8] using h.nothingWaits
  exact ⟨hn, hi, hf, hfl, hw, hst, har⟩

@[simp] theorem clearAll_armed (s : State) : (clearAll s).armed = false := rfl
@[simp] theorem clearAll_fired (s : State) : (clearAll s).fired = false := rfl
@[simp] theorem clearAll_openBit (s : State) : (clearAll s).openBit = false := rfl
@[simp] theorem clearAll_txBusy (s : State) : (clearAll s).txBusy = false := rfl
@[simp] theorem clearAll_txStale (s : State) : (clearAll s).txStale = false := rfl

/-- What R149 sets before MODE meets R59 by itself: the ring is empty, the transport free and the trigger off. -/
theorem clearAll_ring {s : State} (hn : 2 ≤ s.params.ringSlots) : RingInvariant (clearAll s) := by
  have h0 : 0 < s.params.ringSlots := by omega
  exact ⟨hn, ⟨h0, h0⟩, ⟨by simp, by simp⟩, by simp [InFlightProtected], fun _ _ => rfl, by simp [StaleIsBusy],
    by simp [ArmedHasNoCountedFlight]⟩

/-- The closed form of MODE on changed configuration bytes keeps R59. -/
theorem afterMode_ring (b : Vector Byte 27) {s : State} (h : RingInvariant s) : RingInvariant (afterMode s b) := by
  have hc : RingInvariant { s with cfg := b } := h.congr rfl rfl rfl rfl rfl rfl rfl rfl
  have hm := modeEngine_ring hc
  rw [modeEngine_eq] at hm
  exact hm

theorem afterWrite_ring (i v : Byte) {s : State} (h : RingInvariant s) : RingInvariant (afterWrite i v s) := by
  rw [← writeConfig_eq]
  exact writeConfig_ring i v h

/-- Every operation keeps R59. -/
theorem exec_ring (i : Instr) {s t : State} (h : RingInvariant s) (he : exec i s = .next t) : RingInvariant t := by
  obtain ⟨hn, ⟨_, _, -, rfl⟩ | ⟨r, c, -, rfl⟩ | ⟨_, _, -, rfl⟩ | ⟨_, _, -, -, rfl⟩ | ⟨_, _, -, -, -, -, rfl⟩ |
    ⟨_, _, -, -, -, hstale, rfl⟩ | ⟨-, -, -, o, rfl⟩⟩ := exec_cases he
  · exact modeEngine_ring (clearAll_ring hn)
  · exact emit_ring _ (afterMode_ring _ h)
  · exact emit_ring _ (afterWrite_ring _ _ (afterWrite_ring _ _ h))
  · exact ingestBlock_ring _ h.core
  · exact completeStale_ring h
  · exact completeCounted_ring h hstale
  · exact emit_ring o h

/-- Settles O46: the events' data touch nothing R59 reads, and every operation and every write keeps it. -/
theorem ringInvariantKept : Obligations.RingInvariantKept := fun _ _ hs h =>
  step_keeps (fun _ _ _ _ hr => hr.congr rfl rfl rfl rfl rfl rfl rfl rfl) (fun i _ _ hr he => exec_ring i hr he)
    (fun reg c _ hr => emit_ring _ (afterWrite_ring reg c hr)) hs h

/-! ### The slot memory's canonical form (R39) -/

@[simp] theorem afterMode_slots (s : State) (b : Vector Byte 27) : (afterMode s b).slots = s.slots := by
  obtain ⟨-, -, hslots, -⟩ := afterMode_frame s b
  exact hslots

@[simp] theorem afterWrite_slots (i v : Byte) (s : State) : (afterWrite i v s).slots = s.slots := by
  rw [← writeConfig_eq, writeConfig_slots]

/-- RESET lists no byte of the slot memory (R320, log 6). -/
theorem modeEngine_clearAll_slots (s : State) : (modeEngine (clearAll s)).slots = [] := modeEngine_slots _

/-- Every operation keeps the canonical form: INGEST is the only one that writes a slot, and RESET empties the list. -/
theorem exec_wf (i : Instr) {s t : State} (h : Memory.wf s.slots) (he : exec i s = .next t) : Memory.wf t.slots := by
  obtain ⟨-, ⟨_, _, -, rfl⟩ | ⟨r, c, -, rfl⟩ | ⟨_, _, -, rfl⟩ | ⟨_, _, -, -, rfl⟩ | ⟨_, _, -, -, -, -, rfl⟩ |
    ⟨_, _, -, -, -, -, rfl⟩ | ⟨-, -, -, o, rfl⟩⟩ := exec_cases he
  · rw [modeEngine_clearAll_slots]
    exact .nil
  · simpa using h
  · simpa using h
  · exact ingestBlock_wf _ h
  · rwa [completeStale_slots]
  · rwa [completeCounted_slots]
  · exact h

/-- Settles O48: no operation and no write breaks the strictly rising order of the listed addresses. -/
theorem memoryCanonicalKept : Obligations.MemoryCanonicalKept := fun _ _ hs h =>
  step_keeps (P := fun s => Memory.wf s.slots) (fun _ _ _ _ hm => hm) (fun i _ _ hm he => exec_wf i hm he)
    (fun reg c s hm => by simpa using hm) hs h

/-! ### RESET (R58, R149) -/

/-- RESET establishes all three invariants, from any state within the contract. -/
theorem modeEngine_clearAll_invariant {s : State} (hn : 2 ≤ s.params.ringSlots) :
    CoreInvariant (modeEngine (clearAll s)) where
  ring := modeEngine_ring (clearAll_ring hn)
  latch := modeEngine_latch _
  memory := by
    rw [modeEngine_clearAll_slots]
    exact .nil

/-- The table of R58 with CFG_DEFAULTS all zero: what RESET then leaves of `s`. -/
def afterZeroReset (s : State) : State :=
  { s with
    cfg := Vector.replicate 27 0#8
    produceAt := 0, sendFrom := 0, seq := 0, restartPending := false, txBusy := false, txStale := false
    totalIn := 0, totalOut := 0, armed := false, fired := false, openBit := false, strobe := .idle, held := 0
    prevValid := false, prevAbove := false, rxAnchor := 0, txAnchor := 0, engaged := false
    d := 0, spp := 0, chans := 0, swap := false, hdrMask := 0, hdrMode := 0
    slots := [], slotEpoch := s.slotEpoch + 1
    out := s.out ++ [.idle true, .acqOff []] }

/-- All-zero configuration bytes select no channel (R135). -/
theorem usedMask_zero {s : State} (h : s.cfg = Vector.replicate 27 0#8) : usedMask s = 0#10 := by
  have hreset : usedMask State.reset = 0#10 := by decide
  rw [← hreset]
  exact usedMask_congr h

/-- With no channel selected MODE disengages, and the mask it stores is the zero that is there (R138, R139). -/
theorem modeEngine_clearAll_zero {s : State} (h : s.params.cfgDefaults = Vector.replicate 27 0#8) :
    modeEngine (clearAll s) = afterZeroReset s := by
  have hcfg : (clearAll s).cfg = Vector.replicate 27 0#8 := h
  have hmask : usedMask (clearAll s) = 0#10 := usedMask_zero hcfg
  have hlist : channelList 0#10 = [] := by decide
  have hstored : withMask (Vector.replicate 27 0#8) 0#10 = Vector.replicate 27 0#8 := by decide
  have hoff : bytesDisengage (clearAll s) (clearAll s).cfg = true := by
    show disengages (channelList (usedMask (clearAll s))) (clearAll s) = true
    rw [hmask, hlist]
    rfl
  have hform : afterDisengage (clearAll s) (clearAll s).cfg =
      { afterZeroReset s with
        cfg := withMask (clearAll s).cfg (usedMask (clearAll s))
        out := s.out ++ [.idle true, .acqOff (channelList (usedMask (clearAll s)))] } := rfl
  rw [modeEngine_eq, afterMode, if_pos hoff, hform, hmask, hlist, hcfg, hstored]
  rfl

/-- Settles O23: MODE on all-zero bytes disengages and leaves what R149 set. -/
theorem resetTable : Obligations.ResetTable := by
  intro idx val s hn hdef
  calc exec (.reset idx val) s = .next (modeEngine (clearAll s)) := inContract_of hn _
    _ = .next (afterZeroReset s) := by rw [modeEngine_clearAll_zero hdef]

/-- Settles O49: State.reset is what RESET leaves of it, but for the fresh epoch and the record of outputs, which no
invariant reads. -/
theorem resetMeetsInvariant : Obligations.ResetMeetsInvariant := by
  have h : CoreInvariant (modeEngine (clearAll State.reset)) := modeEngine_clearAll_invariant (by decide)
  rw [modeEngine_clearAll_zero rfl] at h
  obtain ⟨ring, latch, memory⟩ := h
  exact ⟨ring.congr rfl rfl rfl rfl rfl rfl rfl rfl,
    latch.congr rfl rfl rfl rfl rfl rfl rfl rfl latch.triggerEngaged, memory⟩

/-! ### The model's own stops (logs 16 and 17) -/

theorem indicesOk_eq_false {s : State} (h : ¬IndicesInRing s) : indicesOk s = false := by
  rwa [← indicesOk_iff, Bool.not_eq_true] at h

/-- INGEST of a block of the right length, while engaged: what is left is the check of the indices and the latches. -/
theorem exec_ingest_checks {s : State} (hn : 2 ≤ s.params.ringSlots) (he : s.engaged = true)
    (hl : s.operand.length = s.spp.toNat) (idx val : Half) :
    exec (.ingest idx val) s =
      if indicesOk s = false then .fault .ringIndex
      else if latchesOk s = false then .fault .latches
      else .next (ingestBlock s.operand s) := by
  show execIngest idx val s = _
  rw [execIngest, inContract_of hn, if_neg (by simp [he]), if_neg (by simp [hl])]

/-- Settles O9: INGEST checks the indices, then the latches, and TXDONE checks the indices before anything else. -/
theorem faultsOutsideRanges : Obligations.FaultsOutsideRanges := by
  intro idx val s hn
  refine ⟨fun he hl hi => ?_, fun he hl hi hlatch => ?_, fun hb hi => ?_⟩
  · rw [exec_ingest_checks hn he hl, if_pos (indicesOk_eq_false hi)]
  · rw [exec_ingest_checks hn he hl, if_neg (by simp [(indicesOk_iff s).2 hi]), if_pos hlatch]
  · show execTxdone idx val s = _
    rw [execTxdone, inContract_of hn, if_neg (by simp [hb]), if_pos (indicesOk_eq_false hi)]

end Sys2Proof.Machine
end

section
/-! SUPPORT and PROOFS. The configuration byte space and who writes what: the fields at their bytes, the latches kept by
every step, what INGEST, TXDONE and REGWR never write, and the event a step runs. -/

namespace Sys2Proof.Machine

/-! ### The latches (R75, R35) -/

/-- The closed form of MODE establishes the latch invariant on any configuration bytes. -/
theorem afterMode_latch (s : State) (b : Vector Byte 27) : LatchInvariant (afterMode s b) := by
  have h := modeEngine_latch { s with cfg := b }
  rwa [modeEngine_eq] at h

theorem afterWrite_latch (i v : Byte) {s : State} (h : LatchInvariant s) : LatchInvariant (afterWrite i v s) := by
  rw [← writeConfig_eq]
  exact writeConfig_latch i v h

/-- Every operation keeps the latch invariant: RESET and the writes by the MODE they run, the others because they write
neither the configuration nor the latches. -/
theorem exec_latch (i : Instr) {s t : State} (h : LatchInvariant s) (he : exec i s = .next t) : LatchInvariant t := by
  obtain ⟨-, ⟨_, _, -, rfl⟩ | ⟨r, c, -, rfl⟩ | ⟨_, _, -, rfl⟩ | ⟨_, _, -, -, rfl⟩ | ⟨_, _, -, -, -, -, rfl⟩ |
    ⟨_, _, -, -, -, -, rfl⟩ | ⟨-, -, -, o, rfl⟩⟩ := exec_cases he
  · exact modeEngine_latch _
  · exact emit_latch _ (afterMode_latch _ _)
  · exact emit_latch _ (afterWrite_latch _ _ (afterWrite_latch _ _ h))
  · exact ingestBlock_latch _ h
  · exact completeStale_latch h
  · exact completeCounted_latch h
  · exact emit_latch o h

/-- Settles O47: the model's inputs touch neither the configuration nor the latches, and every operation and every write
keeps the agreement. -/
theorem latchInvariantKept : Obligations.LatchInvariantKept := fun _ _ hs h =>
  step_keeps (fun _ _ _ _ hl => hl.congr rfl rfl rfl rfl rfl rfl rfl rfl hl.triggerEngaged)
    (fun i _ _ hl he => exec_latch i hl he) (fun reg c _ hl => emit_latch _ (afterWrite_latch reg c hl)) hs h

/-! ### The multi-byte fields (R62) -/

theorem memRead2_toNat (s : State) (i : Nat) (h : i + 1 < 27) :
    (memRead2 s i h).toNat = s.cfg[i].toNat + 256 * s.cfg[i + 1].toNat := by
  rw [memRead2, append_toNat]
  omega

theorem memRead4_toNat (s : State) (i : Nat) (h : i + 3 < 27) :
    (memRead4 s i h).toNat =
      s.cfg[i].toNat + 256 * s.cfg[i + 1].toNat + 65536 * s.cfg[i + 2].toNat + 16777216 * s.cfg[i + 3].toNat := by
  simp only [memRead4, append_toNat]
  omega

/-- `sext_32` (R62): the upper half of the numbers stands for the negative ones. -/
theorem toInt_word32 (x : BitVec 32) :
    x.toInt = if x.toNat < 2147483648 then (x.toNat : Int) else (x.toNat : Int) - 4294967296 := by
  rw [BitVec.toInt_eq_toNat_cond]
  split <;> split <;> omega

/-- Settles O14: a one-byte field is its byte, the others are the little-endian reads, and the offset is the signed
reading of its four bytes. -/
theorem littleEndianFields : Obligations.LittleEndianFields := by
  intro s
  refine ⟨rfl, rfl, rfl, rfl, rfl, rfl, rfl, memRead2_toNat s 1 _, memRead2_toNat s 5 _, memRead2_toNat s 11 _,
    memRead2_toNat s 25 _, memRead4_toNat s 17 _, memRead4_toNat s 21 _, ?_⟩
  rw [cfgTrigOffset, toInt_word32, memRead4_toNat]

/-! ### What an operation never writes (R72) -/

/-- INGEST answers Ignored or takes the block. -/
theorem exec_ingest_cases {idx val : Half} {s t : State} (h : exec (.ingest idx val) s = .next t) :
    (∃ o, t = emit o s) ∨ t = ingestBlock s.operand s := by
  obtain ⟨-, ⟨_, _, hi, -⟩ | ⟨_, _, hi, -⟩ | ⟨_, _, hi, -⟩ | ⟨_, _, -, -, ht⟩ | ⟨_, _, hi, -⟩ | ⟨_, _, hi, -⟩ |
    ⟨-, -, -, ho⟩⟩ := exec_cases h
  case inr.inr.inr.inl => exact .inr ht
  case inr.inr.inr.inr.inr.inr => exact .inl ho
  all_goals cases hi

/-- TXDONE answers Ignored or completes the transmission, stale or counted. -/
theorem exec_txdone_cases {idx val : Half} {s t : State} (h : exec (.txdone idx val) s = .next t) :
    (∃ o, t = emit o s) ∨ t = completeStale s ∨ t = completeCounted s := by
  obtain ⟨-, ⟨_, _, hi, -⟩ | ⟨_, _, hi, -⟩ | ⟨_, _, hi, -⟩ | ⟨_, _, hi, -⟩ | ⟨_, _, -, -, -, -, ht⟩ |
    ⟨_, _, -, -, -, -, ht⟩ | ⟨-, -, -, ho⟩⟩ := exec_cases h
  case inr.inr.inr.inr.inl => exact .inr (.inl ht)
  case inr.inr.inr.inr.inr.inl => exact .inr (.inr ht)
  case inr.inr.inr.inr.inr.inr => exact .inl ho
  all_goals cases hi

/-- REGWR is the low write, the high write and the acknowledgement (R130). -/
theorem exec_regwr_eq {idx val : Half} {s t : State} (h : exec (.regwr idx val) s = .next t) :
    t = emit .ack (afterWrite (highByte idx) (highByte val) (afterWrite (lowByte idx) (lowByte val) s)) := by
  obtain ⟨-, ⟨_, _, hi, -⟩ | ⟨_, _, hi, -⟩ | ⟨_, _, hi, ht⟩ | ⟨_, _, hi, -⟩ | ⟨_, _, hi, -⟩ | ⟨_, _, hi, -⟩ |
    ⟨-, -, hi, -⟩⟩ := exec_cases h
  case inr.inr.inl => cases hi; exact ht
  case inr.inr.inr.inr.inr.inr => exact absurd rfl (hi idx val)
  all_goals cases hi

/-- Only FIRE moves `send_from` in INGEST, and FIRE needs an armed trigger (R184, R192). -/
theorem ingestBlock_sendFrom_unarmed (w : List Half) {s : State} (ha : s.armed = false) :
    (ingestBlock w s).sendFrom = s.sendFrom := by
  simp [ingestBlock, trigEval_unarmed ha]

@[simp] theorem afterWrite_slotEpoch (i v : Byte) (s : State) : (afterWrite i v s).slotEpoch = s.slotEpoch := by
  obtain ⟨-, -, hepoch, -⟩ := afterWrite_frame i v s
  exact hepoch

@[simp] theorem afterWrite_txBusy (i v : Byte) (s : State) : (afterWrite i v s).txBusy = s.txBusy := by
  obtain ⟨-, -, -, -, -, -, hbusy⟩ := afterWrite_frame i v s
  exact hbusy

/-- With the transport free a write finds no transmission to mark stale (R143). -/
theorem afterWrite_txStale_free (i v : Byte) {s : State} (hb : s.txBusy = false) :
    (afterWrite i v s).txStale = s.txStale := by
  rcases Nat.lt_or_ge i.toNat 27 with hi | hi
  · obtain ⟨-, hstale, -⟩ := afterMode_frame s (s.cfg.set i.toNat v)
    rw [afterWrite_in s hi, hstale, hb, Bool.or_false]
  · rw [afterWrite_out s hi]

/-- Settles O53: the frames of the operations each event is made of; an event that answers Ignored writes only the
record of outputs. -/
theorem writerDiscipline : Obligations.WriterDiscipline := by
  refine fun idx val s t => ⟨fun h => ?_, fun h => ?_, fun h => ?_⟩
  · rcases exec_ingest_cases h with ⟨o, rfl⟩ | rfl
    · simp
    · simpa [ingestBlock] using ingestBlock_sendFrom_unarmed s.operand (s := s)
  · rcases exec_txdone_cases h with ⟨o, rfl⟩ | rfl | rfl
    · simp
    · simp [completeStale]
    · simp [completeCounted]
  · rw [exec_regwr_eq h]
    refine ⟨by simp, by simp, by simp, fun hb => ?_⟩
    rw [emit_txStale, afterWrite_txStale_free _ _ (by simpa using hb), afterWrite_txStale_free _ _ hb]

/-! ### The event a step runs (R71) -/

/-- A step whose taken event decodes is the operation it decodes to. -/
theorem step_of_decoded {s : State} {r : Request} {rest : List Request} {i : Instr}
    (hr : takeNext (arrive s).pending = some (r, rest)) (hi : decode r.word = .ok i) :
    step s = exec i (accept r rest (arrive s)) := by
  simp only [step, hr, runRequest, hi]

theorem step_of_idle {s : State} (hp : (arrive s).pending = []) (hn : 2 ≤ s.params.ringSlots) :
    step s = .next (arrive s) := by
  have hnone : takeNext (arrive s).pending = none := by
    rw [hp]
    rfl
  have hn' : 2 ≤ (arrive s).params.ringSlots := by simpa using hn
  simp only [step, hnone, idleStep, inContract_of hn']

/-- An event pending alone is taken, whatever its class. -/
theorem takeNext_singleton (r : Request) : takeNext [r] = some (r, []) := by
  have hclass (p : Nat) : takeClass p [r] = if priority r = p then some (r, []) else none := rfl
  have hp : priority r = 0 ∨ priority r = 1 ∨ priority r = 2 ∨ priority r = 3 := by
    have := priority_le r
    omega
  simp only [takeNext, hclass]
  rcases hp with h | h | h | h <;> rw [h] <;> rfl

/-- A word of the opcode table decodes as the encoding it stands for. -/
theorem decodeTableWord_eq_some {nbits w : Nat} {i : Instr} (h : decodeTableWord nbits w = some i) :
    ∃ e, tableEncoded nbits w = some e ∧ decode e = .ok i := by
  unfold decodeTableWord at h
  split at h
  · cases h
  · rename_i e he
    split at h
    · rename_i hd
      cases h
      exact ⟨e, he, hd⟩
    · cases h

/-- Placed as the next event, an encoding is all that is pending after the arrivals: none come before the next step. -/
theorem arrive_placeNext (e : Encoded) (s : State) :
    arrive (placeNext e s) = { s with pending := [⟨e, zeroOperand e s⟩] } := rfl

/-- Settles O5: the arbiter's choice decides what a step runs, and a placed word is the only choice. -/
theorem stepRunsDecodedEvent : Obligations.StepRunsDecodedEvent := by
  refine ⟨fun s r rest i hr hi => step_of_decoded hr hi, fun s hp hn => step_of_idle hp hn, fun s nbits w i h => ?_⟩
  obtain ⟨e, he, hi⟩ := decodeTableWord_eq_some h
  have hplace : s.withFetchWord nbits w = placeNext e s := by
    rw [State.withFetchWord, he]
  have htake : takeNext (arrive (placeNext e s)).pending = some (⟨e, zeroOperand e s⟩, []) := by
    rw [arrive_placeNext]
    exact takeNext_singleton _
  refine ⟨zeroOperand e s, ?_⟩
  calc step (s.withFetchWord nbits w)
      = step (placeNext e s) := by rw [hplace]
    _ = exec i (accept ⟨e, zeroOperand e s⟩ [] (arrive (placeNext e s))) := step_of_decoded htake hi
    _ = exec i { s with pending := [], operand := zeroOperand e s } := rfl

end Sys2Proof.Machine
end

section
/-! SUPPORT and PROOFS. The encoding: what the decoder answers encodes to the word it was given, and every operation is
read back from its encoding (R90, R91, R101 to R105); the host's reading of a sequence byte (R108). -/

namespace Sys2Proof

/-! ### Decode, then encode -/

/-- The operation `i` is one of the table and `e` is its encoding. -/
def EncodesTo (i : Instr) (e : Encoded) : Prop := i.wellFormed = true ∧ encode i = e

theorem byte_eq_of_toNat {c : Byte} {k : Nat} (h : c.toNat = k) : c = BitVec.ofNat 8 k := by
  rw [← h, BitVec.ofNat_toNat, BitVec.setWidth_eq]

/-- An event word is the encoding of what its `op` selects: the six fixed values first, then the six ranges (R91,
R105). -/
theorem decodeOp_encodesTo (op : Byte) (idx val : Half) :
    EncodesTo (decodeOp op idx val) (.evt (evtWord op idx val)) := by
  have hop : op.toNat ≤ 0xFF := by have := op.isLt; omega
  unfold decodeOp
  repeat' split
  iterate 6 next h => rw [byte_eq_of_toNat h]; exact ⟨rfl, rfl⟩
  all_goals
    refine ⟨?_, rfl⟩
    simp only [Instr.wellFormed, opIn, decide_eq_true_eq]
    omega

theorem encodesTo_of_decode {e : Encoded} {i : Instr} (h : decode e = .ok i) : EncodesTo i e := by
  cases e with
  | evt w =>
    cases h
    have hfields := decodeOp_encodesTo (evtOp w) (evtIdx w) (evtVal w)
    rwa [evtWord_fields, ← decodeEvt_eq] at hfields
  | _ c =>
    simp only [decode, decodeCmd, decodeDepth, decodeFreq, decodeTmode] at h
    split at h <;> cases h
    all_goals
      rename_i hc
      rw [byte_eq_of_toNat hc]
      exact ⟨rfl, rfl⟩

/-! ### Encode, then decode -/

/-- The family RoundTrip as one theorem. -/
theorem decode_encode (i : Instr) : Laws.RoundTrip.Statement i :=
  match i with
  | .reset idx val => Laws.RoundTrip.reset idx val
  | .regwr idx val => Laws.RoundTrip.regwr idx val
  | .regrd idx val => Laws.RoundTrip.regrd idx val
  | .ingest idx val => Laws.RoundTrip.ingest idx val
  | .txdone idx val => Laws.RoundTrip.txdone idx val
  | .unsupported05 idx val => Laws.RoundTrip.unsupported05 idx val
  | .unsupported06 op idx val => Laws.RoundTrip.unsupported06 op idx val
  | .unsupported08 op idx val => Laws.RoundTrip.unsupported08 op idx val
  | .unsupported10 op idx val => Laws.RoundTrip.unsupported10 op idx val
  | .unsupported20 op idx val => Laws.RoundTrip.unsupported20 op idx val
  | .unsupported40 op idx val => Laws.RoundTrip.unsupported40 op idx val
  | .unsupported80 op idx val => Laws.RoundTrip.unsupported80 op idx val
  | .cmdStop | .cmdOnce | .cmdCont => fun _ => rfl
  | .pack2 | .pack4 | .pack8 | .pack12 => fun _ => rfl
  | .freqOff | .freqMax | .freq2 | .freq3 | .freq4 | .freq5 | .freq6 | .freq7 | .freq8 | .freq9 => fun _ => rfl
  | .freq10 | .freq11 | .freq12 | .freq13 | .freq14 | .freq15 => fun _ => rfl
  | .trgNone | .trgRise | .trgFall | .trgThresh | .trgStrobeLo | .trgStrobeHi => fun _ => rfl

/-- Settles O1: the decoder's answer encodes to the word, and the encoding of every operation is read back. -/
theorem decodeIffEncode : Obligations.DecodeIffEncode := by
  refine fun e i => ⟨encodesTo_of_decode, ?_⟩
  rintro ⟨hwf, rfl⟩
  exact decode_encode i hwf

/-- Bytes that are the word `e` decode to the operation that encodes to `e`. -/
theorem decodeBytes_of_encodesTo {f : Format} {bytes : List Byte} {i : Instr} (e : Encoded)
    (hf : decodeBytes f bytes = decode e) (he : EncodesTo i e) : decodeBytes f bytes = .ok i :=
  hf.trans ((decodeIffEncode e i).2 he)

/-- Settles O2: each word is the encoding of the operation the spec names for it. -/
theorem specWordsDecode : Obligations.SpecWordsDecode :=
  ⟨decodeBytes_of_encodesTo (.evt 0x0000000000) rfl ⟨rfl, rfl⟩,
    decodeBytes_of_encodesTo (.evt 0x0102010001) rfl ⟨rfl, rfl⟩,
    decodeBytes_of_encodesTo (.evt 0x021A190000) rfl ⟨rfl, rfl⟩,
    decodeBytes_of_encodesTo (.evt 0x0300000000) rfl ⟨rfl, rfl⟩,
    decodeBytes_of_encodesTo (.evt 0x0400000000) rfl ⟨rfl, rfl⟩,
    decodeBytes_of_encodesTo (.evt 0x7F12345678) rfl ⟨rfl, rfl⟩,
    decodeBytes_of_encodesTo (.cmd 0x01) rfl ⟨rfl, rfl⟩,
    decodeBytes_of_encodesTo (.depth 0x0C) rfl ⟨rfl, rfl⟩,
    decodeBytes_of_encodesTo (.freq 0x01) rfl ⟨rfl, rfl⟩,
    decodeBytes_of_encodesTo (.tmode 0x05) rfl ⟨rfl, rfl⟩⟩

end Sys2Proof

namespace Sys2Proof.Machine

/-! ### Fields and rows without an effect (R90, R297) -/

/-- Settles O4: all seven rows are the one rejected request. -/
theorem unsupportedOutcome : Obligations.UnsupportedOutcome := by
  intro op idx val s hn i hi
  have hreject : rejectRequest s = .next { s with out := s.out ++ [.unsupported] } := inContract_of hn _
  simp only [List.mem_cons, List.not_mem_nil, or_false] at hi
  rcases hi with rfl | rfl | rfl | rfl | rfl | rfl | rfl <;> exact hreject

/-- Settles O7: the meanings of the four events do not name these fields. -/
theorem ignoredFieldsDoNothing : Obligations.IgnoredFieldsDoNothing := fun _ _ _ _ _ => ⟨rfl, rfl, rfl, rfl⟩

/-! ### The host's side (R108) -/

theorem restartOf_append (b : BitVec 1) (x : BitVec 7) : restartOf (b ++ x) = b.getLsbD 0 := by
  rw [restartOf, BitVec.getLsbD_append]
  rfl

theorem seqOf_append (b : BitVec 1) (x : BitVec 7) : seqOf (b ++ x) = x := by
  apply BitVec.eq_of_toNat_eq
  rw [seqOf, BitVec.extractLsb'_toNat, append_toNat, Nat.shiftRight_zero]
  have := x.isLt
  omega

/-- The gap of a sequence number `k` beyond the expected one, modulo 128. -/
theorem sequenceGap_add (last : BitVec 7) {k : Nat} (hk : k < 128) :
    sequenceGap last (last + 1 + BitVec.ofNat 7 k) = k := by
  have hreceived : (last + 1 + BitVec.ofNat 7 k).toNat = (last.toNat + 1 + k) % 128 := by
    simp [BitVec.toNat_add]
  rw [sequenceGap, hreceived]
  omega

/-- Settles O60: without the flag the loss is the gap, with it there is none. -/
theorem lossFormulaCountsDrops : Obligations.LossFormulaCountsDrops := by
  intro last k hk
  constructor
  · rw [hostLoss, restartOf_append, seqOf_append, sequenceGap_add last hk]
    rfl
  · rw [hostLoss, restartOf_append]
    rfl

end Sys2Proof.Machine
end

section
/-! SUPPORT and PROOFS. The code rows and the reserved codes: the one-byte write they are, what MODE then leaves, and
what commands, frequencies and reserved values select (R101 to R103, R106, R139 to R147). -/

namespace Sys2Proof.Machine

/-! ### The write of one code (R110, R133) -/

/-- What the write of the code `c` to the register `r` leaves: MODE on the changed bytes, then the acknowledgement. -/
def afterCode (s : State) (r : Fin 27) (c : Byte) : State := emit .ack (afterMode s (s.cfg.set r c))

theorem exec_codeRow {i : Instr} {r : Fin 27} {c : Byte} (s : State) (h : codeOf i = some (r, c))
    (hn : 2 ≤ s.params.ringSlots) : exec i s = .next (afterCode s r c) := exec_code s h hn

/-- WR1 (R110): the low pair writes the byte, the high index 0xFF is out of range. -/
theorem exec_wr1 (r : Fin 27) (c : Byte) {s : State} (hn : 2 ≤ s.params.ringSlots) :
    exec (wr1 (BitVec.ofNat 8 r) c) s = .next (afterCode s r c) := by
  have hlow : afterWrite (BitVec.ofNat 8 r) c s = afterMode s (s.cfg.set r c) := by
    rw [afterWrite_in s (by rw [ofNat_fin]; exact r.isLt)]
    simp only [ofNat_fin]
  show execRegwr _ _ s = _
  rw [execRegwr, inContract_of hn, writeConfig_eq, writeConfig_eq, lowByte_pair, lowByte_pair, highByte_pair,
    highByte_pair, hlow, afterWrite_out _ (by decide)]
  rfl

/-- Settles O15: both are the write of that one byte. -/
theorem codeRowsWriteTheirRegister : Obligations.CodeRowsWriteTheirRegister := fun _ r c s h hn =>
  ⟨exec_code s h hn, (exec_codeRow s h hn).trans (exec_wr1 r c hn).symm⟩

/-! ### The configuration after the write -/

/-- MODE writes no byte below the mask (R138). -/
theorem afterCode_getElem (s : State) (r : Fin 27) (c : Byte) (i : Nat) (h : i < 25) :
    (afterCode s r c).cfg[i]'(by omega) = if (r : Nat) = i then c else s.cfg[i]'(by omega) := by
  rw [← set_getElem]
  simp only [afterCode, emit_cfg, afterMode_cfg]
  exact withMask_getElem _ _ i h

theorem cfgCmd_afterCode (s : State) (r : Fin 27) (c : Byte) :
    cfgCmd (afterCode s r c) = if (r : Nat) = 0 then c else cfgCmd s := afterCode_getElem s r c 0 (by decide)

theorem cfgDepth_afterCode (s : State) (r : Fin 27) (c : Byte) :
    cfgDepth (afterCode s r c) = if (r : Nat) = 3 then c else cfgDepth s := afterCode_getElem s r c 3 (by decide)

theorem cfgFreq_afterCode (s : State) (r : Fin 27) (c : Byte) :
    cfgFreq (afterCode s r c) = if (r : Nat) = 4 then c else cfgFreq s := afterCode_getElem s r c 4 (by decide)

theorem cfgTrigMode_afterCode (s : State) (r : Fin 27) (c : Byte) :
    cfgTrigMode (afterCode s r c) = if (r : Nat) = 9 then c else cfgTrigMode s := afterCode_getElem s r c 9 (by decide)

theorem cfgOffset_afterCode {s : State} {r : Fin 27} (c : Byte) (h5 : (r : Nat) ≠ 5) (h6 : (r : Nat) ≠ 6) :
    cfgOffset (afterCode s r c) = cfgOffset s := by
  simp only [cfgOffset, memRead2, afterCode_getElem _ _ _ 5 (by decide), afterCode_getElem _ _ _ 6 (by decide),
    if_neg h5, if_neg h6]

theorem cfgGain_afterCode {s : State} {r : Fin 27} (c : Byte) (h7 : (r : Nat) ≠ 7) :
    cfgGain (afterCode s r c) = cfgGain s := (afterCode_getElem s r c 7 (by decide)).trans (if_neg h7)

/-- The channels are derived from the request and the depth alone (R135 to R137). -/
theorem usedMask_afterCode {s : State} {r : Fin 27} (c : Byte) (h1 : (r : Nat) ≠ 1) (h2 : (r : Nat) ≠ 2)
    (h3 : (r : Nat) ≠ 3) : usedMask (afterCode s r c) = usedMask s := by
  simp only [usedMask, cfgChannels, memRead2, afterCode_getElem _ _ _ 1 (by decide),
    afterCode_getElem _ _ _ 2 (by decide), cfgDepth_afterCode, if_neg h1, if_neg h2, if_neg h3]

/-! ### The two paths of MODE (R139 to R147) -/

theorem afterCode_latch (s : State) (r : Fin 27) (c : Byte) : LatchInvariant (afterCode s r c) :=
  emit_latch _ (afterMode_latch _ _)

theorem disengages_eq_false_iff {l : List Nat} {s : State} :
    disengages l s = false ↔
      l ≠ [] ∧ (cfgCmd s = 1#8 ∨ cfgCmd s = 2#8) ∧ cfgFreq s ≠ 0#8 ∧ (cfgDepth s).toNat ∈ [2, 4, 8, 12] := by
  simp only [disengages, depthCode, Bool.or_eq_false_iff, Bool.not_eq_false', Bool.or_eq_true, beq_iff_eq,
    beq_eq_false_iff_ne, decide_eq_true_eq, ne_eq, List.isEmpty_eq_false_iff, and_assoc]

/-- Engaged exactly where R139 finds nothing to disengage. -/
theorem LatchInvariant.engaged_iff {s : State} (h : LatchInvariant s) :
    s.engaged = true ↔ channelList (usedMask s) ≠ [] ∧ (cfgCmd s = 1#8 ∨ cfgCmd s = 2#8) ∧ cfgFreq s ≠ 0#8 ∧
      (cfgDepth s).toNat ∈ [2, 4, 8, 12] := by
  rw [h.engagedIff, Bool.not_eq_true', disengages_eq_false_iff]

/-- The disengage path disarms (R139, R147). -/
theorem afterCode_disarmed {s : State} {r : Fin 27} {c : Byte} (h : (afterCode s r c).engaged = false) :
    Disarmed (afterCode s r c) := by
  have hoff : bytesDisengage s (s.cfg.set r c) = true := by
    have : (afterMode s (s.cfg.set r c)).engaged = false := h
    rwa [afterMode_engaged, Bool.not_eq_false'] at this
  have hmode : afterMode s (s.cfg.set r c) = afterDisengage s (s.cfg.set r c) := if_pos hoff
  rw [afterCode, hmode]
  exact ⟨rfl, rfl, rfl⟩

/-- The full path, before the acknowledgement. -/
theorem afterCode_full {s : State} {r : Fin 27} {c : Byte} (h : (afterCode s r c).engaged = true) :
    afterCode s r c = emit .ack (afterFullMode s (s.cfg.set r c)) := by
  obtain ⟨hfull, -⟩ := afterMode_full h
  rw [afterCode, hfull]

/-- The full path arms afresh, the anchors at the cleared counters (R142, R145). -/
theorem afterCode_armed {s : State} {r : Fin 27} {c : Byte} (h : (afterCode s r c).engaged = true) :
    ArmedWaiting (afterCode s r c) ∧ (afterCode s r c).rxAnchor = (afterCode s r c).totalIn ∧
      (afterCode s r c).txAnchor = (afterCode s r c).totalOut := by
  rw [afterCode_full h]
  exact ⟨⟨rfl, rfl, rfl⟩, rfl, rfl⟩

/-- On the full path no sample has been examined yet (R145, R34). -/
theorem afterCode_unexamined {s : State} {r : Fin 27} {c : Byte} (h : (afterCode s r c).engaged = true) :
    (afterCode s r c).prevValid = false ∧ (afterCode s r c).strobe = .idle := by
  rw [afterCode_full h]
  exact ⟨rfl, rfl⟩

/-- A block of `spp` words is taken after the full path. -/
theorem canIngest_afterCode {s : State} {r : Fin 27} {c : Byte} (hn : 2 ≤ s.params.ringSlots)
    (h : (afterCode s r c).engaged = true) {w : List Half} (hw : w.length = (afterCode s r c).spp.toNat) :
    CanIngest { afterCode s r c with operand := w } := canIngest_afterMode hn h hw

/-! ### Commands (R101) -/

/-- Settles O39: the command 0 disengages, and with the command 1 or 2 the rest of R139's test decides. -/
theorem commandCodesArm : Obligations.CommandCodesArm := by
  intro s hn
  have hmask (c : Byte) : usedMask (afterCode s 0 c) = usedMask s :=
    usedMask_afterCode c (by decide) (by decide) (by decide)
  have hcmd (c : Byte) : cfgCmd (afterCode s 0 c) = c := cfgCmd_afterCode s 0 c
  have hfreq (c : Byte) : cfgFreq (afterCode s 0 c) = cfgFreq s := cfgFreq_afterCode s 0 c
  have hdepth (c : Byte) : cfgDepth (afterCode s 0 c) = cfgDepth s := cfgDepth_afterCode s 0 c
  have hiff (c : Byte) := (afterCode_latch s 0 c).engaged_iff
  simp only [hmask, hcmd, hfreq, hdepth] at hiff
  constructor
  · have hoff : (afterCode s 0 0).engaged = false := by
      rw [← Bool.not_eq_true, hiff]
      simp
    exact ⟨_, exec_codeRow s rfl hn, hoff, afterCode_disarmed hoff, hcmd 0⟩
  · intro i hi
    obtain ⟨c, hi, hc, honce⟩ : ∃ c : Byte,
        codeOf i = some (0, c) ∧ (c = 1#8 ∨ c = 2#8) ∧ (c = 1#8 ↔ i = .cmdOnce) := by
      simp only [List.mem_cons, List.not_mem_nil, or_false] at hi
      rcases hi with rfl | rfl
      · exact ⟨1, rfl, .inl rfl, by simp⟩
      · exact ⟨2, rfl, .inr rfl, by simp⟩
    refine ⟨_, exec_codeRow s hi hn, by simpa only [hc, true_and] using hiff c, fun he => ?_⟩
    obtain ⟨harm, hrx, htx⟩ := afterCode_armed he
    exact ⟨harm, hrx, htx, by rw [hcmd, honce]⟩

/-! ### Reserved codes (R106) -/

/-- The mode byte (R99): the low nibble of the frequency code above the depth's. -/
theorem LatchInvariant.hdrMode_high {s : State} (h : LatchInvariant s) (he : s.engaged = true) :
    s.hdrMode.toNat / 16 = (cfgFreq s).toNat % 16 := by
  obtain ⟨-, -, -, -, -, hmode⟩ := h.latches he
  have := ((cfgDepth s).extractLsb' 0 4).isLt
  rw [hmode, append_toNat, BitVec.extractLsb'_toNat, Nat.shiftRight_zero]
  omega

/-- Settles O40: what each value leaves of R139's test decides. -/
theorem reservedCodesAct : Obligations.ReservedCodesAct := by
  intro v s hn
  refine ⟨fun hv => ?_, fun hv => ?_, fun hv hl hc hd => ?_⟩
  · have hcmd : cfgCmd (afterCode s 0 v) = v := cfgCmd_afterCode s 0 v
    have hoff : (afterCode s 0 v).engaged = false := by
      rw [← Bool.not_eq_true, (afterCode_latch s 0 v).engaged_iff, hcmd]
      rintro ⟨-, rfl | rfl, -⟩ <;> simp at hv
    exact ⟨_, exec_wr1 0 v hn, hoff, afterCode_disarmed hoff⟩
  · have hdepth : cfgDepth (afterCode s 3 v) = v := cfgDepth_afterCode s 3 v
    have hoff : (afterCode s 3 v).engaged = false := by
      rw [← Bool.not_eq_true, (afterCode_latch s 3 v).engaged_iff, hdepth]
      rintro ⟨-, -, -, hcode⟩
      exact hv hcode
    exact ⟨_, exec_wr1 3 v hn, hoff, afterCode_disarmed hoff⟩
  · have hcmd : cfgCmd (afterCode s 4 v) = cfgCmd s := cfgCmd_afterCode s 4 v
    have hdepth : cfgDepth (afterCode s 4 v) = cfgDepth s := cfgDepth_afterCode s 4 v
    have hfreq : cfgFreq (afterCode s 4 v) = v := cfgFreq_afterCode s 4 v
    have hon : (afterCode s 4 v).engaged = true := by
      rw [(afterCode_latch s 4 v).engaged_iff, usedMask_afterCode v (by decide) (by decide) (by decide), hcmd, hfreq,
        hdepth]
      refine ⟨hl, hc, ?_, hd⟩
      rintro rfl
      simp at hv
    refine ⟨_, exec_wr1 4 v hn, hon, ?_⟩
    rw [(afterCode_latch s 4 v).hdrMode_high hon, hfreq]

/-! ### Frequencies (R103) -/

/-- The frequency rows are the codes 0 to 15 (R103). -/
theorem codeOf_freq_lt {i : Instr} {c : Byte} (h : codeOf i = some (4, c)) : c.toNat < 16 := by
  cases i
  all_goals simp [codeOf] at h
  all_goals
    subst h
    decide

/-- The interval of an unreserved code (R146). -/
theorem sampleInterval_of_lt {freq : Byte} (h : freq.toNat < 16) (c : Nat) (swap : Bool) :
    sampleInterval freq c swap =
      if swap then Config.rateTable freq / 2
      else if 1 < c then Config.rateTable freq * c / 2
      else Config.rateTable freq := if_neg (by omega)

/-- What the full path and the acknowledgement emit (R146), read off the state they leave. -/
theorem afterCode_out {s : State} {r : Fin 27} {c : Byte} (h : (afterCode s r c).engaged = true) :
    (afterCode s r c).out = s.out ++ [.idle false, .acqOn (channelList (usedMask (afterCode s r c)))
      (afterCode s r c).d (afterCode s r c).swap (sampleInterval (cfgFreq (afterCode s r c))
        (channelList (usedMask (afterCode s r c))).length (afterCode s r c).swap), .ack] := by
  have hread : ∀ j (hj : j < 5), (afterCode s r c).cfg[j]'(by omega) = (s.cfg.set r c)[j]'(by omega) := by
    intro j hj
    rw [afterCode_getElem s r c j (by omega), set_getElem]
  obtain ⟨hmask, -, -, hfreq, -⟩ := mode_reads_low (s := { s with cfg := s.cfg.set r c }) hread
  rw [hmask, hfreq, afterCode_full h]
  simp [afterFullMode]

/-- Settles O38: a frequency code is read back, decides R139's test where it is 0, and otherwise fixes the mode nibble,
the swap latch and the interval. -/
theorem frequencyCodesSetInterval : Obligations.FrequencyCodesSetInterval := by
  intro i c s hi hn
  have hfreq : cfgFreq (afterCode s 4 c) = c := cfgFreq_afterCode s 4 c
  have hlatch := afterCode_latch s 4 c
  have hlt := codeOf_freq_lt hi
  refine ⟨_, exec_codeRow s hi hn, hfreq, fun hc => ?_, fun he => ?_⟩
  · rw [← Bool.not_eq_true, hlatch.engaged_iff, hfreq]
    rintro ⟨-, -, hoff, -⟩
    exact hoff hc
  · obtain ⟨-, -, hchans, hswap, -, -⟩ := hlatch.latches he
    refine ⟨?_, ?_, _, hchans.symm, ?_⟩
    · rw [hlatch.hdrMode_high he, hfreq]
      omega
    · rw [hswap, hfreq, hchans]
      simp [and_comm]
    · rw [afterCode_out he, hfreq, sampleInterval_of_lt hlt, hchans]

end Sys2Proof.Machine
end

section
/-! SUPPORT and PROOFS. The block after a code: the packer a depth code selects, what the host reads in a header, and
the first block of each trigger code (R96 to R99, R102, R104, R108, R173 to R179, R223 to R226). -/

namespace Sys2Proof.Machine

/-! ### The packet of a block (R96, R251) -/

/-- The byte `j` of the packet a block leaves in slot `produce_at`. -/
theorem ingestBlock_packet {s : State} (h : CanIngest s) {j : Nat} (hj : j < 64) :
    slotByte (ingestBlock s.operand s) (64 * s.produceAt + j) =
      (header (takesFlag (trigEval (timeOrder s s.operand) s)) s ++
        encodeBlock s (timeOrder s s.operand))[j]?.getD 0 := by
  rw [ingestBlock_slotByte h, if_pos (by omega), Nat.add_sub_cancel_left]

/-- The body begins after the four bytes of the header. -/
theorem ingestBlock_body {s : State} (h : CanIngest s) {j : Nat} {b : Byte}
    (hb : (encodeBlock s (timeOrder s s.operand))[j]? = some b) :
    slotByte (ingestBlock s.operand s) (64 * s.produceAt + 4 + j) = b := by
  have hlen := encodeBlock_length h.latches ((timeOrder_length s s.operand).trans h.length)
  obtain ⟨hj, -⟩ := List.getElem?_eq_some_iff.1 hb
  have hheader (f : Bool) : (header f s).length = 4 := rfl
  rw [Nat.add_assoc, ingestBlock_packet h (by omega), List.getElem?_append_right (by rw [hheader]; omega), hheader,
    Nat.add_sub_cancel_left, hb]
  rfl

/-! ### The packers (R102) -/

/-- The packer of each depth (R220). -/
theorem packBody_of_depth {n : Nat} {pack : List Sample → List Byte}
    (h : (n, pack) ∈ [(2, packTwo), (4, packFour), (8, packEight), (12, packTwelve)]) {d : BitVec 4}
    (hd : d.toNat = n) (a : List Sample) : packBody d a = pack a := by
  simp only [List.mem_cons, Prod.mk.injEq, List.not_mem_nil, or_false] at h
  unfold packBody
  rcases h with ⟨rfl, rfl⟩ | ⟨rfl, rfl⟩ | ⟨rfl, rfl⟩ | ⟨rfl, rfl⟩ <;> simp only [hd]

/-- While engaged the depth latch is the depth byte (R140). -/
theorem LatchInvariant.d_toNat {s : State} (h : LatchInvariant s) (he : s.engaged = true) :
    s.d.toNat = (cfgDepth s).toNat := by
  obtain ⟨hd, -⟩ := h.latches he
  obtain ⟨-, -, -, hcode⟩ := h.engaged_iff.1 he
  simp only [List.mem_cons, List.not_mem_nil, or_false] at hcode
  rw [hd, BitVec.extractLsb'_toNat, Nat.shiftRight_zero]
  omega

/-- Settles O36: the write of a depth code latches that depth, and a block then passes ADJ and its packer. -/
theorem depthCodesSelectPacker : Obligations.DepthCodesSelectPacker := by
  intro i n pack s hi hn
  obtain ⟨c, hcode, hc, hpack⟩ : ∃ c : Byte, codeOf i = some (3, c) ∧ c.toNat = n ∧
      (n, pack) ∈ [(2, packTwo), (4, packFour), (8, packEight), (12, packTwelve)] := by
    simp only [List.mem_cons, Prod.mk.injEq, List.not_mem_nil, or_false] at hi
    rcases hi with ⟨rfl, rfl, rfl⟩ | ⟨rfl, rfl, rfl⟩ | ⟨rfl, rfl, rfl⟩ | ⟨rfl, rfl, rfl⟩
    · exact ⟨2, rfl, rfl, by simp⟩
    · exact ⟨4, rfl, rfl, by simp⟩
    · exact ⟨8, rfl, rfl, by simp⟩
    · exact ⟨12, rfl, rfl, by simp⟩
  have hlatch := afterCode_latch s 3 c
  have hdepth : (cfgDepth (afterCode s 3 c)).toNat = n := by rw [← hc]; exact congrArg _ (cfgDepth_afterCode s 3 c)
  have hoffset : cfgOffset (afterCode s 3 c) = cfgOffset s := cfgOffset_afterCode c (by decide) (by decide)
  have hgain : cfgGain (afterCode s 3 c) = cfgGain s := cfgGain_afterCode c (by decide)
  refine ⟨_, exec_codeRow s hcode hn, hdepth, fun he => ?_⟩
  obtain ⟨-, hspp, -⟩ := hlatch.latches he
  rw [hdepth] at hspp
  have hd : (afterCode s 3 c).d.toNat = n := (hlatch.d_toNat he).trans hdepth
  refine ⟨hd, hspp, fun w hw => ?_⟩
  have hcan := canIngest_afterCode hn he (hw.trans hspp.symm)
  refine ⟨_, exec_ingest hcan 0 0, fun j b hb => ingestBlock_body hcan ?_⟩
  rw [← packBody_of_depth hpack hd, ← hoffset, ← hgain] at hb
  exact hb

/-! ### What the host reads in the header (R108) -/

/-- The set bits of a mask of ten channels, read in its sixteen bits. -/
theorem hostChannels_setWidth (m : BitVec 10) : hostChannels (m.setWidth 16) = channelList m := by
  have hrange : List.range 16 = List.range 10 ++ [10, 11, 12, 13, 14, 15] := by decide
  have hhigh : [10, 11, 12, 13, 14, 15].filter (fun i => (m.setWidth 16).getLsbD i) = [] := by simp
  rw [hostChannels, hrange, List.filter_append, hhigh, List.append_nil, channelList]
  apply List.filter_congr
  intro i hi
  have : i < 16 := by have := List.mem_range.1 hi; omega
  simp [this]

theorem append_halves (m : BitVec 16) : m.extractLsb' 8 8 ++ m.extractLsb' 0 8 = m := by
  apply BitVec.eq_of_toNat_eq
  rw [append_toNat, BitVec.extractLsb'_toNat, BitVec.extractLsb'_toNat, Nat.shiftRight_zero,
    Nat.shiftRight_eq_div_pow]
  have := m.isLt
  omega

theorem hostDepth_append (freq depth : BitVec 4) : hostDepth (freq ++ depth) = depth := by
  apply BitVec.eq_of_toNat_eq
  rw [hostDepth, BitVec.extractLsb'_toNat, append_toNat, Nat.shiftRight_zero]
  have := depth.isLt
  omega

theorem hostFreq_append (freq depth : BitVec 4) : hostFreq (freq ++ depth) = freq := by
  apply BitVec.eq_of_toNat_eq
  rw [hostFreq, BitVec.extractLsb'_toNat, append_toNat, Nat.shiftRight_eq_div_pow]
  have := depth.isLt
  have := freq.isLt
  omega

/-- Settles O59: the header holds the latches, and the latches agree with the configuration (R75). -/
theorem headerTellsHost : Obligations.HeaderTellsHost := by
  intro idx val s h hl
  refine ⟨_, exec_ingest h idx val, ?_⟩
  obtain ⟨hd, -, -, -, hmask, hmode⟩ := hl.latches h.engaged
  have hbyte (j : Nat) (b : Byte) (hj : j < 4)
      (hb : (header (takesFlag (trigEval (timeOrder s s.operand) s)) s)[j]? = some b) :
      slotByte (ingestBlock s.operand s) (64 * s.produceAt + j) = b := by
    rw [ingestBlock_packet h (by omega), List.getElem?_append_left hj, hb]
    rfl
  have h0 := hbyte 0 _ (by decide) rfl
  have h1 := hbyte 1 _ (by decide) rfl
  have h2 := hbyte 2 _ (by decide) rfl
  have h3 := hbyte 3 _ (by decide) rfl
  simp only [h0, h1, h2, h3]
  refine ⟨seqOf_append _ _, ?_, ?_, ?_⟩
  · rw [append_halves, hmask, hl.maskStored, hostChannels_setWidth]
  · rw [hmode, hostDepth_append, ← hd, hl.d_toNat h.engaged]
  · rw [hmode, hostFreq_append, BitVec.extractLsb'_toNat, Nat.shiftRight_zero]

/-! ### The first block after a trigger code (R104, R173 to R179) -/

/-- On the first block an edge is one inside the block: no sample precedes its first (R34, R180). -/
theorem edgeAt_firstBlock {s : State} (hp : s.prevValid = false) (a b : Bool) :
    (∃ n, resultBefore s n = some a ∧ (comparisons s)[n]? = some b) ↔ EdgeAt (comparisons s) a b := by
  constructor
  · rintro ⟨_ | n, hbefore, hnow⟩
    · simp [resultBefore, hp] at hbefore
    · exact ⟨n, hbefore, hnow⟩
  · rintro ⟨j, hbefore, hnow⟩
    exact ⟨j + 1, hbefore, hnow⟩

/-- A block about to be taken, the first one since the trigger was armed, with the trigger channel in the scan. -/
structure FirstBlock (s : State) : Prop where
  canIngest : CanIngest s
  armed : ArmedWaiting s
  inScan : (cfgTrigChannel s).toNat < s.chans.toNat
  unexamined : s.prevValid = false
  strobeIdle : s.strobe = .idle

theorem firstBlock_afterCode {s : State} {r : Fin 27} {c : Byte} (hn : 2 ≤ s.params.ringSlots)
    (he : (afterCode s r c).engaged = true)
    (hc : (cfgTrigChannel (afterCode s r c)).toNat < (afterCode s r c).chans.toNat) {w : List Half}
    (hw : w.length = (afterCode s r c).spp.toNat) : FirstBlock { afterCode s r c with operand := w } := by
  obtain ⟨harm, -, -⟩ := afterCode_armed he
  obtain ⟨hprev, hstrobe⟩ := afterCode_unexamined he
  exact ⟨canIngest_afterCode hn he hw, harm, hc, hprev, hstrobe⟩

/-- TRG.NONE fires on the first evaluation, whatever the samples are (R173). -/
theorem FirstBlock.fired_none {s : State} (h : FirstBlock s) (hm : cfgTrigMode s = 0#8) :
    (ingestBlock s.operand s).fired = true := by
  obtain ⟨-, hfired, -⟩ := ingestBlock_trigger s.operand s
  obtain ⟨harmed, -⟩ := h.armed
  rw [hfired, trigEval, if_pos harmed, evalArmed, if_pos hm, openWindow_fired, fire_fired]

/-- In the modes 1 to 5 a block fires exactly where some sample hits (R170, R182). -/
theorem FirstBlock.fired_iff_hit {s : State} (h : FirstBlock s) (hm : (cfgTrigMode s).toNat ∈ [1, 2, 3, 4, 5]) :
    (ingestBlock s.operand s).fired = true ↔ ∃ n, HitAt s n := by
  obtain ⟨hne, hlt⟩ := examinedWords_count h.canIngest h.inScan
  obtain ⟨-, hfired, -⟩ := ingestBlock_trigger s.operand s
  obtain ⟨-, hunfired, -⟩ := h.armed
  rw [hfired, trigEval_fired h.armed h.inScan hm]
  exact scanSamples_fired (comparisons_eq s) hne hm hlt hunfired

theorem FirstBlock.fired_rise {s : State} (h : FirstBlock s) (hm : cfgTrigMode s = 1#8) :
    (ingestBlock s.operand s).fired = true ↔ EdgeAt (comparisons s) false true := by
  rw [h.fired_iff_hit (by simp [hm]), ← edgeAt_firstBlock h.unexamined]
  simp [HitAt, hm]

theorem FirstBlock.fired_fall {s : State} (h : FirstBlock s) (hm : cfgTrigMode s = 2#8) :
    (ingestBlock s.operand s).fired = true ↔ EdgeAt (comparisons s) true false := by
  rw [h.fired_iff_hit (by simp [hm]), ← edgeAt_firstBlock h.unexamined]
  simp [HitAt, hm]

theorem FirstBlock.fired_thresh {s : State} (h : FirstBlock s) (hm : cfgTrigMode s = 3#8) :
    (ingestBlock s.operand s).fired = true ↔
      EdgeAt (comparisons s) false true ∨ EdgeAt (comparisons s) true false := by
  rw [h.fired_iff_hit (by simp [hm]), ← edgeAt_firstBlock h.unexamined, ← edgeAt_firstBlock h.unexamined]
  simp [HitAt, hm, exists_or]

/-- In the strobe modes a hit is a count in the interval. -/
theorem FirstBlock.fired_strobe {s : State} (h : FirstBlock s) (hm : cfgTrigMode s = 4#8 ∨ cfgTrigMode s = 5#8) :
    (ingestBlock s.operand s).fired = true ↔
      StrobeHit ((comparisons s).map (inRegion s)) (cfgTrigTMin s).toNat (cfgTrigTMax s).toNat := by
  rw [← heldAt_firstBlock h.unexamined h.strobeIdle]
  rw [h.fired_iff_hit (by rcases hm with hm | hm <;> simp [hm])]
  rcases hm with hm | hm <;> simp [HitAt, hm]

/-- The region of TRG.STROBE_LO is "not above" (R177). -/
theorem FirstBlock.fired_strobeLo {s : State} (h : FirstBlock s) (hm : cfgTrigMode s = 4#8) :
    (ingestBlock s.operand s).fired = true ↔
      StrobeHit ((comparisons s).map not) (cfgTrigTMin s).toNat (cfgTrigTMax s).toNat := by
  have hregion : inRegion s = not := by
    funext b
    rw [inRegion, if_pos hm]
  rw [h.fired_strobe (.inl hm), hregion]

/-- The region of TRG.STROBE_HI is "above" (R178). -/
theorem FirstBlock.fired_strobeHi {s : State} (h : FirstBlock s) (hm : cfgTrigMode s = 5#8) :
    (ingestBlock s.operand s).fired = true ↔
      StrobeHit (comparisons s) (cfgTrigTMin s).toNat (cfgTrigTMax s).toNat := by
  have hregion : inRegion s = id := by
    funext b
    rw [inRegion, if_neg (by simp [hm])]
    rfl
  rw [h.fired_strobe (.inr hm), hregion, List.map_id]

/-- Settles O37: the write of a trigger code arms with that mode, and the first block is decided by it. -/
theorem triggerCodesSelectMode : Obligations.TriggerCodesSelectMode := by
  intro i fires s hi hn
  obtain ⟨c, hcode, hfires⟩ : ∃ c : Byte, codeOf i = some (9, c) ∧
      ∀ u, FirstBlock u → cfgTrigMode u = c → ((ingestBlock u.operand u).fired = true ↔ fires u) := by
    simp only [List.mem_cons, Prod.mk.injEq, List.not_mem_nil, or_false] at hi
    rcases hi with ⟨rfl, rfl⟩ | ⟨rfl, rfl⟩ | ⟨rfl, rfl⟩ | ⟨rfl, rfl⟩ | ⟨rfl, rfl⟩ | ⟨rfl, rfl⟩
    · exact ⟨0, rfl, fun u h hm => iff_true_intro (h.fired_none hm)⟩
    · exact ⟨1, rfl, fun u h hm => h.fired_rise hm⟩
    · exact ⟨2, rfl, fun u h hm => h.fired_fall hm⟩
    · exact ⟨3, rfl, fun u h hm => h.fired_thresh hm⟩
    · exact ⟨4, rfl, fun u h hm => h.fired_strobeLo hm⟩
    · exact ⟨5, rfl, fun u h hm => h.fired_strobeHi hm⟩
  refine ⟨_, exec_codeRow s hcode hn, fun he => ?_⟩
  obtain ⟨harm, -, -⟩ := afterCode_armed he
  refine ⟨harm, fun hc w hw => ?_⟩
  have hfirst := firstBlock_afterCode hn he hc hw
  exact ⟨_, exec_ingest hfirst.canIngest 0 0, hfires _ hfirst (cfgTrigMode_afterCode s 9 c)⟩

end Sys2Proof.Machine
end

section
/-! SUPPORT and PROOFS. The Register Store and the Mode Engine: what REGWR and REGRD answer, what MODE reads and derives,
its two paths in numbers, and the MODE that RESET runs (R130 to R149). -/

namespace Sys2Proof.Machine

/-! ### The control requests (R130, R131) -/

/-- REGWR within the contract. -/
theorem exec_regwr {s : State} (hn : 2 ≤ s.params.ringSlots) (idx val : Half) :
    exec (.regwr idx val) s =
      .next (emit .ack (afterWrite (highByte idx) (highByte val) (afterWrite (lowByte idx) (lowByte val) s))) := by
  show execRegwr idx val s = _
  rw [execRegwr, inContract_of hn, writeConfig_eq, writeConfig_eq]

/-- Settles O10: each half is MODE in closed form, or nothing. -/
theorem regwrLowThenHigh : Obligations.RegwrLowThenHigh := fun idx val _ hn => exec_regwr hn idx val

/-- Settles O11: neither half writes, so only the acknowledgement is left. -/
theorem regwrBothOutOfRange : Obligations.RegwrBothOutOfRange := by
  intro idx val s hn hlow hhigh
  rw [← lowByte_toNat] at hlow
  rw [← highByte_toNat] at hhigh
  rw [exec_regwr hn, afterWrite_out s hlow, afterWrite_out s hhigh]
  rfl

/-- A read contributes the byte at its index, if there is one (R131). -/
theorem cfgRead_eq (i : Byte) (s : State) : cfgRead i s = (s.cfg.toList[i.toNat]?).toList := by
  by_cases h : i.toNat < 27
  · simp [cfgRead, h]
  · simp [cfgRead, h]

/-- Settles O13: the reply is the two reads, low index first. -/
theorem regrdReply : Obligations.RegrdReply := by
  intro idx val s hn
  show execRegrd idx val s = _
  rw [execRegrd, inContract_of hn, cfgRead_eq, cfgRead_eq, lowByte_toNat, highByte_toNat]
  rfl

/-! ### What MODE reads and what it overwrites -/

theorem afterMode_of_disengage {s : State} {b : Vector Byte 27} (h : bytesDisengage s b = true) :
    afterMode s b = afterDisengage s b := if_pos h

theorem afterMode_of_engage {s : State} {b : Vector Byte 27} (h : bytesDisengage s b = false) :
    afterMode s b = afterFullMode s b := if_neg (by simp [h])

/-- The configurations agree but for the bytes 25 and 26, which MODE overwrites (R138). -/
def SameBelowMask (b' b : Vector Byte 27) : Prop := ∀ i (h : i < 25), b'[i]'(by omega) = b[i]'(by omega)

theorem sameBelowMask_withMask (b : Vector Byte 27) (m : BitVec 10) : SameBelowMask (withMask b m) b :=
  withMask_getElem b m

theorem SameBelowMask.set {b' b : Vector Byte 27} (hb : SameBelowMask b' b) (j : Nat) (hj : j < 27) (v : Byte) :
    SameBelowMask (b'.set j v) (b.set j v) := by
  intro i hi
  simp only [Vector.getElem_set, hb i hi]

/-- MODE derives the same from two such configurations, whatever else the states hold. -/
theorem SameBelowMask.mode_reads {b' b : Vector Byte 27} (hb : SameBelowMask b' b) (t s : State) :
    usedMask { t with cfg := b' } = usedMask { s with cfg := b } ∧
      cfgDepth { t with cfg := b' } = cfgDepth { s with cfg := b } ∧
      cfgFreq { t with cfg := b' } = cfgFreq { s with cfg := b } ∧
      bytesDisengage t b' = bytesDisengage s b ∧
      withMask b' (usedMask { t with cfg := b' }) = withMask b (usedMask { s with cfg := b }) := by
  obtain ⟨hmask, -, hdepth, hfreq, hoff⟩ :=
    mode_reads_low (s := { s with cfg := b }) (t := { t with cfg := b' }) fun i hi => hb i (by omega)
  refine ⟨hmask, hdepth, hfreq, ?_, ?_⟩
  · rw [bytesDisengage, hmask, hoff, bytesDisengage]
  · rw [hmask]
    exact withMask_congr _ hb

/-- What MODE hands out on the configuration bytes `b` (R139, R146). -/
def modeOutputs (s : State) (b : Vector Byte 27) : List Output :=
  let c := { s with cfg := b }
  let list := channelList (usedMask c)
  let fast := list.length == 1 && cfgFreq c == 1#8
  if bytesDisengage s b then [.idle true, .acqOff list]
  else [.idle false,
    .acqOn list ((cfgDepth c).extractLsb' 0 4) fast (sampleInterval (cfgFreq c) list.length fast)]

theorem afterMode_out (s : State) (b : Vector Byte 27) : (afterMode s b).out = s.out ++ modeOutputs s b := by
  unfold afterMode modeOutputs
  split <;> rfl

theorem SameBelowMask.modeOutputs_eq {b' b : Vector Byte 27} (hb : SameBelowMask b' b) (t s : State) :
    modeOutputs t b' = modeOutputs s b := by
  obtain ⟨hmask, hdepth, hfreq, hoff, -⟩ := hb.mode_reads t s
  simp only [modeOutputs, hmask, hdepth, hfreq, hoff]

/-- After a MODE, a full MODE on the same bytes leaves what it leaves without the first one: the full path writes every
field but those that no MODE writes, and the stale mark, which is the same (R140 to R145). -/
theorem SameBelowMask.afterFullMode_afterMode {b' b : Vector Byte 27} (hb : SameBelowMask b' b) (s : State)
    (b₁ : Vector Byte 27) (o : List Output) :
    { afterFullMode (afterMode s b₁) b' with out := o } = { afterFullMode s b with out := o } := by
  obtain ⟨hmask, hdepth, hfreq, -, hcfg⟩ := hb.mode_reads (afterMode s b₁) s
  obtain ⟨hbusy, hstale, hslots, hparams, hepoch, hoperand, hpending, harrivals⟩ := afterMode_frame s b₁
  rw [afterFullMode_eq, afterFullMode_eq, hcfg, hmask, hdepth, hfreq]
  simp only [modeOnWith, hbusy, hstale, stale_twice, hslots, hparams, hepoch, hoperand, hpending, harrivals]

/-- Settles O12: the second MODE reads the final bytes, and what the first left of itself is the stale mark. -/
theorem regwrTwoBytesOneMode : Obligations.RegwrTwoBytesOneMode := by
  intro idx val s hl hh hn b
  have hb : SameBelowMask ((afterMode s (s.cfg.set (lowByte idx).toNat (lowByte val))).cfg.set (highByte idx).toNat
      (highByte val)) b := by
    rw [afterMode_cfg]
    exact (sameBelowMask_withMask _ _).set _ hh _
  refine ⟨_, exec_regwr hn idx val, ?_⟩
  rw [afterWrite_in s hl, afterWrite_in _ hh]
  generalize s.cfg.set (lowByte idx).toNat (lowByte val) = b₁ at hb
  generalize (afterMode s b₁).cfg.set (highByte idx).toNat (highByte val) = b₂ at hb
  obtain ⟨-, -, -, hoff, hcfg⟩ := hb.mode_reads (afterMode s b₁) s
  refine ⟨fun hon => ?_, fun hoff' => ?_⟩
  · rw [afterMode_of_engage (hoff.trans hon)]
    exact hb.afterFullMode_afterMode s b₁ s.out
  · obtain ⟨hbusy, hstale, hslots, -⟩ := afterMode_frame s b₁
    rw [afterMode_of_disengage (hoff.trans hoff')]
    refine ⟨hcfg, rfl, ⟨rfl, rfl, rfl⟩, rfl, rfl, rfl, rfl, rfl, hbusy, ?_, hslots⟩
    show ((afterMode s b₁).txStale || (afterMode s b₁).txBusy) = _
    rw [hbusy, hstale, stale_twice]

/-- A second run of the disengage path finds everything as it writes it (R147). -/
theorem afterDisengage_twice (s : State) (o : List Output) :
    { afterDisengage (afterDisengage s s.cfg) (afterDisengage s s.cfg).cfg with out := o } =
      { afterDisengage s s.cfg with out := o } := by
  obtain ⟨-, -, -, -, hcfg⟩ := (sameBelowMask_withMask s.cfg (usedMask s)).mode_reads (afterDisengage s s.cfg) s
  have hcfg' : withMask (afterDisengage s s.cfg).cfg (usedMask (afterDisengage s s.cfg)) =
      withMask s.cfg (usedMask s) := hcfg
  have hstale : ((afterDisengage s s.cfg).txStale || (afterDisengage s s.cfg).txBusy) = (s.txStale || s.txBusy) :=
    stale_twice _ _
  calc { afterDisengage (afterDisengage s s.cfg) (afterDisengage s s.cfg).cfg with out := o }
      = { afterDisengage s s.cfg with
          cfg := withMask (afterDisengage s s.cfg).cfg (usedMask (afterDisengage s s.cfg))
          txStale := (afterDisengage s s.cfg).txStale || (afterDisengage s s.cfg).txBusy
          out := o } := rfl
    _ = { afterDisengage s s.cfg with out := o } := by rw [hcfg', hstale]; rfl

/-- Settles O21: the second MODE reads what the first read, and so takes the same path. -/
theorem modeIdempotent : Obligations.ModeIdempotent := by
  intro s
  have hb : SameBelowMask (afterMode s s.cfg).cfg s.cfg := by
    rw [afterMode_cfg]
    exact sameBelowMask_withMask _ _
  obtain ⟨-, -, -, hoff, -⟩ := hb.mode_reads (afterMode s s.cfg) s
  rw [modeEngine_eq s, modeEngine_eq]
  refine ⟨?_, modeOutputs s s.cfg, afterMode_out _ _, ?_⟩
  · cases h : bytesDisengage s s.cfg
    · rw [afterMode_of_engage (hoff.trans h), hb.afterFullMode_afterMode s s.cfg s.out, afterMode_of_engage h]
    · rw [afterMode_of_disengage (hoff.trans h), afterMode_of_disengage h, afterDisengage_twice]
  · rw [afterMode_out, hb.modeOutputs_eq (afterMode s s.cfg) s]

/-! ### The stored mask (R138) -/

/-- A write that succeeds establishes the latch invariant, whatever the state was. -/
theorem afterWrite_latch_of_lt {i : Byte} (v : Byte) (s : State) (h : i.toNat < 27) :
    LatchInvariant (afterWrite i v s) := by
  rw [afterWrite_in s h]
  exact afterMode_latch _ _

/-- Settles O20: one of the two writes runs MODE last, and MODE stores the mask it derives. -/
theorem usedChannelsStored : Obligations.UsedChannelsStored := by
  intro idx val s hn hvalid
  have hlatch : LatchInvariant
      (afterWrite (highByte idx) (highByte val) (afterWrite (lowByte idx) (lowByte val) s)) := by
    rcases hvalid with hl | hh
    · exact afterWrite_latch _ _ (afterWrite_latch_of_lt _ s hl)
    · exact afterWrite_latch_of_lt _ _ hh
  have hstored := (emit_latch .ack hlatch).maskStored
  refine ⟨_, exec_regwr hn idx val, hstored, ?_⟩
  rw [hstored, BitVec.toNat_setWidth_of_le (by decide)]
  exact BitVec.isLt _

/-! ### Channels (R135 to R137) -/

/-- With a channel free, adding the spare adds the highest unselected one. -/
theorem addsHighest_of_count {m : BitVec 10} (h : channelCount m < 10) : AddsHighest m (addSpare m) := by
  obtain ⟨i, hi⟩ := spareChannel_some h
  exact addsHighest_addSpare hi

/-- Settles O18: an odd count and a bad pair both leave a channel free, and moving off a bad pair adds two. -/
theorem channelForcing : Obligations.ChannelForcing := by
  intro s m count
  refine ⟨pairChannels m, ?_, ?_⟩
  · by_cases hodd : 1 < count m ∧ count m % 2 = 1
    · have hle : count m ≤ 10 := channelCount_le m
      have hpair : pairChannels m = addSpare m := if_pos hodd
      rw [if_pos hodd, hpair]
      exact addsHighest_of_count (show count m < 10 by omega)
    · rw [if_neg hodd]
      exact if_neg hodd
  · by_cases hbad : ((cfgDepth s).toNat, count (pairChannels m)) ∈ [(8, 8), (12, 6)]
    · have hcount : channelCount (pairChannels m) = 6 ∨ channelCount (pairChannels m) = 8 := by
        simp only [List.mem_cons, Prod.mk.injEq, List.not_mem_nil, or_false] at hbad
        exact hbad.symm.imp And.right And.right
      obtain ⟨hstep, hfree⟩ := moveOff_step hcount
      have hmask : usedMask s = addSpare (addSpare (pairChannels m)) := by
        rw [← hstep]
        exact if_pos hbad
      rw [if_pos hbad, hmask]
      exact ⟨addSpare (pairChannels m), addsHighest_of_count (by omega), addsHighest_of_count hfree⟩
    · rw [if_neg hbad]
      exact if_neg hbad

/-- No step of the derivation drops a requested channel. -/
theorem usedMask_keeps {s : State} {i : Nat} (hi : i < 10) (h : (cfgChannels s).getLsbD i = true) :
    (usedMask s).getLsbD i = true := by
  have hreq : ((cfgChannels s).extractLsb' 0 10).getLsbD i = true := by
    simpa [hi] using h
  unfold usedMask avoidBadCombo
  split
  · exact pairChannels_keeps (addSpare_keeps (pairChannels_keeps hreq))
  · exact pairChannels_keeps hreq

/-- Step 4 moves off a bad pair: with two channels more it is none (R137). -/
theorem usedMask_not_bad (s : State) : ((cfgDepth s).toNat, channelCount (usedMask s)) ∉ Config.badCombos := by
  unfold usedMask
  rcases avoidBadCombo_count (cfgDepth s) (pairChannels ((cfgChannels s).extractLsb' 0 10)) with
    ⟨hbad, hcount⟩ | ⟨hgood, hsame⟩
  · rw [hcount]
    simp only [Config.badCombos, List.mem_cons, Prod.mk.injEq, List.not_mem_nil, or_false] at hbad ⊢
    omega
  · rwa [hsame]

/-- Settles O19: the counts the derivation can leave divide the samples of a packet. -/
theorem sppMultipleOfChannels : Obligations.SppMultipleOfChannels := by
  intro s hdepth hne
  obtain ⟨hdiv, -, -⟩ := usedMask_divides (decide_eq_true hdepth) hne
  exact ⟨Nat.dvd_of_mod_eq_zero hdiv, usedMask_not_bad s, fun i hi hreq =>
    (mem_channelList _ i).2 (usedMask_keeps hi hreq)⟩

/-! ### The two paths of MODE -/

/-- R139's test, by its four conditions. -/
theorem disengages_eq_true_iff {l : List Nat} {s : State} :
    disengages l s = true ↔
      l = [] ∨ (cfgCmd s ≠ 1#8 ∧ cfgCmd s ≠ 2#8) ∨ cfgFreq s = 0#8 ∨ (cfgDepth s).toNat ∉ [2, 4, 8, 12] := by
  rw [← Bool.not_eq_false, disengages_eq_false_iff]
  simp only [not_and_or, not_or, ne_eq, not_not]

/-- Settles O16: any of the four conditions sends MODE down the disengage path. -/
theorem disengagePath : Obligations.DisengagePath := by
  intro r v s hn c hcond
  have hoff : bytesDisengage s (s.cfg.set r v) = true := disengages_eq_true_iff.2 hcond
  rw [exec_wr1 r v hn, afterCode, afterMode_of_disengage hoff]
  simp only [emit, afterDisengage, List.append_assoc, List.cons_append, List.nil_append, c]

/-- The latches of `t` in numbers, as the full path derives them from the configuration of `c` (R140, R141). -/
structure LatchedFrom (c t : State) : Prop where
  depth : t.d.toNat = (cfgDepth c).toNat
  spp : t.spp.toNat = 480 / (cfgDepth c).toNat
  chans : t.chans.toNat = (channelList (usedMask c)).length
  swap : t.swap = true ↔ (channelList (usedMask c)).length = 1 ∧ cfgFreq c = 1#8
  hdrMask : t.hdrMask.toNat = (usedMask c).toNat
  hdrMode : t.hdrMode.toNat = (cfgFreq c).toNat % 16 * 16 + (cfgDepth c).toNat % 16

/-- With one of the four depths and a channel in use, no latch of the full path is cut to its width. -/
theorem afterFullMode_latchedFrom {s : State} {b : Vector Byte 27} (hon : bytesDisengage s b = false) :
    LatchedFrom { s with cfg := b } (afterFullMode s b) := by
  obtain ⟨-, -, -, hdepth⟩ := disengages_eq_false_iff.1 hon
  simp only [List.mem_cons, List.not_mem_nil, or_false] at hdepth
  have hcount : (channelList (usedMask { s with cfg := b })).length ≤ 10 := channelCount_le _
  refine ⟨?_, ?_, ?_, ?_, ?_, ?_⟩
  · show ((cfgDepth { s with cfg := b }).extractLsb' 0 4).toNat = _
    rw [BitVec.extractLsb'_toNat, Nat.shiftRight_zero]
    omega
  · refine Nat.mod_eq_of_lt ?_
    rcases hdepth with h | h | h | h <;> rw [h] <;> decide
  · exact Nat.mod_eq_of_lt (by omega)
  · show (_ && _) = true ↔ _
    rw [Bool.and_eq_true, beq_iff_eq, beq_iff_eq]
  · exact BitVec.toNat_setWidth_of_le (by decide)
  · show (_ ++ _ : BitVec 8).toNat = _
    rw [append_toNat, BitVec.extractLsb'_toNat, BitVec.extractLsb'_toNat, Nat.shiftRight_zero, Nat.shiftRight_zero]
    rfl

/-- The interval of an unreserved code by its three cases, where `swap` needs a single channel (R146). -/
theorem sampleInterval_clauses (freq : Byte) {n : Nat} {swap : Bool} (hswap : swap = true → n = 1) :
    (freq.toNat ≤ 15 → swap = true → sampleInterval freq n swap = Config.rateTable freq / 2) ∧
      (freq.toNat ≤ 15 → 1 < n → sampleInterval freq n swap = Config.rateTable freq * n / 2) ∧
      (freq.toNat ≤ 15 → n = 1 → swap = false → sampleInterval freq n swap = Config.rateTable freq) := by
  refine ⟨fun hf hs => ?_, fun hf hn => ?_, fun hf hn hs => ?_⟩ <;> rw [sampleInterval_of_lt (by omega)]
  · rw [if_pos hs]
  · rw [if_neg (fun hs => by have := hswap hs; omega), if_pos hn]
  · rw [if_neg (by simp [hs]), if_neg (by omega)]

/-- Settles O17: MODE takes the full path, whose closed form is read off field by field. -/
theorem fullPath : Obligations.FullPath := by
  intro r v s hn c list hne hcmd hfreq hdepth
  have hon : bytesDisengage s (s.cfg.set r v) = false := disengages_eq_false_iff.2 ⟨hne, hcmd, hfreq, hdepth⟩
  obtain ⟨hd, hspp, hchans, hswap, hmask, hbyte⟩ := afterFullMode_latchedFrom hon
  refine ⟨_, exec_wr1 r v hn, ?_⟩
  rw [afterCode, afterMode_of_engage hon]
  exact ⟨rfl, rfl, hd, hspp, hchans, hswap, hmask, hbyte, rfl, rfl, rfl, rfl, rfl, ⟨rfl, rfl, rfl⟩, rfl, rfl, rfl, rfl,
    rfl, rfl, rfl, rfl, rfl, rfl, rfl, rfl, rfl, rfl, rfl, _, List.append_assoc _ _ _,
    sampleInterval_clauses _ fun h => (hswap.1 h).1⟩

/-! ### RESET (R149) -/

/-- What R149 clears stays clear on both paths of MODE. -/
theorem afterMode_clearAll_cleared (s : State) (b : Vector Byte 27) :
    let t := afterMode (clearAll s) b
    t.produceAt = 0 ∧ t.sendFrom = 0 ∧ t.seq = 0 ∧ t.totalIn = 0 ∧ t.totalOut = 0 ∧ t.rxAnchor = 0 ∧ t.txAnchor = 0 ∧
      t.strobe = .idle ∧ t.held = 0 ∧ t.prevValid = false ∧ t.prevAbove = false ∧ t.restartPending = false := by
  unfold afterMode
  split <;> exact ⟨rfl, rfl, rfl, rfl, rfl, rfl, rfl, rfl, rfl, rfl, rfl, rfl⟩

/-- With no byte listed every slot byte is a free value (log 5). -/
theorem slotByte_of_nil {t : State} (h : t.slots = []) (a : Nat) :
    slotByte t a = Config.freeSlotByte t.slotEpoch a := by
  rw [slotByte, h]
  rfl

/-- Settles O22: RESET is MODE on the defaults after everything is cleared; MODE reads the configuration alone. -/
theorem resetLoadsDefaults : Obligations.ResetLoadsDefaults := by
  intro idx val s hn c list
  have hreset : exec (.reset idx val) s = .next (afterMode (clearAll s) s.params.cfgDefaults) :=
    (inContract_of hn _).trans (congrArg _ (modeEngine_eq (clearAll s)))
  have hengaged := afterMode_engaged (clearAll s) s.params.cfgDefaults
  obtain ⟨hbusy, hstale, hslots, hparams, hepoch, hoperand, hpending, harrivals⟩ :=
    afterMode_frame (clearAll s) s.params.cfgDefaults
  obtain ⟨hproduce, hsend, hseq, hin, hout, hrx, htx, hstrobe, hheld, hvalid, habove, hrestart⟩ :=
    afterMode_clearAll_cleared s s.params.cfgDefaults
  refine ⟨_, hreset, afterMode_cfg _ _, ?_, fun hon => ?_, fun hoff => ?_, hbusy, hstale, hproduce, hsend, hseq, hin,
    hout, hrx, htx, hstrobe, hheld, hvalid, habove, hrestart, hparams, hoperand, hpending, harrivals, fun a => ?_⟩
  · rw [hengaged, Bool.not_eq_true']
    exact disengages_eq_false_iff
  · obtain ⟨hfull, hon⟩ := afterMode_full hon
    obtain ⟨hd, hspp, hchans, hswap, hmask, hbyte⟩ := afterFullMode_latchedFrom hon
    rw [hfull]
    exact ⟨⟨rfl, rfl, rfl⟩, hd, hspp, hchans, hswap, hmask, hbyte, _, rfl,
      sampleInterval_clauses _ fun h => (hswap.1 h).1⟩
  · rw [hengaged, Bool.not_eq_false'] at hoff
    rw [afterMode_of_disengage hoff]
    exact ⟨⟨rfl, rfl, rfl⟩, rfl, rfl, rfl, rfl, rfl, rfl, rfl⟩
  · rw [slotByte_of_nil hslots, hepoch]
    rfl

end Sys2Proof.Machine
end

section
/-! SUPPORT and PROOFS. The Trigger Engine over a whole event: what a block and a completion do to the trigger, where a
block fires in each mode, and the transition table (R170 to R192). -/

namespace Sys2Proof.Machine

/-! ### The trigger's fields after a block (R250) -/

@[simp] theorem ingestBlock_armed (w : List Half) (s : State) :
    (ingestBlock w s).armed = (trigEval (timeOrder s w) s).armed := by simp [ingestBlock]
@[simp] theorem ingestBlock_fired (w : List Half) (s : State) :
    (ingestBlock w s).fired = (trigEval (timeOrder s w) s).fired := by simp [ingestBlock]
@[simp] theorem ingestBlock_openBit (w : List Half) (s : State) :
    (ingestBlock w s).openBit = (trigEval (timeOrder s w) s).openBit := by simp [ingestBlock]
@[simp] theorem ingestBlock_strobe (w : List Half) (s : State) :
    (ingestBlock w s).strobe = (trigEval (timeOrder s w) s).strobe := by simp [ingestBlock]
@[simp] theorem ingestBlock_held (w : List Half) (s : State) :
    (ingestBlock w s).held = (trigEval (timeOrder s w) s).held := by simp [ingestBlock]
@[simp] theorem ingestBlock_prevValid (w : List Half) (s : State) :
    (ingestBlock w s).prevValid = (trigEval (timeOrder s w) s).prevValid := by simp [ingestBlock]
@[simp] theorem ingestBlock_prevAbove (w : List Half) (s : State) :
    (ingestBlock w s).prevAbove = (trigEval (timeOrder s w) s).prevAbove := by simp [ingestBlock]
@[simp] theorem ingestBlock_rxAnchor (w : List Half) (s : State) :
    (ingestBlock w s).rxAnchor = (trigEval (timeOrder s w) s).rxAnchor := by simp [ingestBlock]
@[simp] theorem ingestBlock_txAnchor (w : List Half) (s : State) :
    (ingestBlock w s).txAnchor = (trigEval (timeOrder s w) s).txAnchor := by simp [ingestBlock]
@[simp] theorem ingestBlock_sendFrom (w : List Half) (s : State) :
    (ingestBlock w s).sendFrom = (trigEval (timeOrder s w) s).sendFrom := by simp [ingestBlock]
@[simp] theorem ingestBlock_restartPending (w : List Half) (s : State) :
    (ingestBlock w s).restartPending =
      ((trigEval (timeOrder s w) s).restartPending && !takesFlag (trigEval (timeOrder s w) s)) := by
  simp [ingestBlock]

/-! ### The window rule (R187) -/

theorem openWindow_of_unfired {s : State} (h : s.fired = false) : openWindow s = s := if_neg (by simp [h])

theorem openWindow_of_open {s : State} (h : s.openBit = true) : openWindow s = s := if_neg (by simp [h])

/-- In Delay the window opens exactly where the delay has passed. -/
theorem openWindow_of_delay {s : State} (h : Delay s) : (openWindow s).openBit = delayPassed s := by
  obtain ⟨-, hfired, hopen⟩ := h
  unfold openWindow
  cases hpassed : delayPassed s <;> simp [hfired, hopen]

theorem delayPassed_iff (s : State) :
    delayPassed s = true ↔ max (cfgTrigOffset s) 0 ≤ ((s.totalIn - s.rxAnchor).toNat : Int) := decide_eq_true_iff

/-- The count since the fire is never negative, so only the offset itself is compared. -/
theorem delayPassed_iff_offset (s : State) :
    delayPassed s = true ↔ cfgTrigOffset s ≤ ((s.totalIn - s.rxAnchor).toNat : Int) := by
  rw [delayPassed_iff, max_le_iff]
  exact and_iff_left (Int.natCast_nonneg _)

/-! ### An armed block -/

/-- Everything TRIG_EVAL can do while Armed-waiting: it examines samples, and perhaps fires at the end, which opens the
window at once for an offset of 0 or less (R170, R183, R187). -/
theorem trigEval_armed {s : State} (h : ArmedWaiting s) (b : List Half) :
    ∃ u, Examined s u ∧
      (trigEval b s = u ∨ trigEval b s = { fire u with openBit := decide (cfgTrigOffset s ≤ 0) }) := by
  obtain ⟨harmed, hfired, hopen⟩ := h
  rcases trigEval_cases b s with ⟨hunarmed, -⟩ | ⟨-, u, hu, hstay | hfire⟩
  · rw [harmed] at hunarmed
    cases hunarmed
  · obtain ⟨_, _, _, _, rfl⟩ := hu
    exact ⟨_, ⟨_, _, _, _, rfl⟩, .inl (hstay.trans (openWindow_of_unfired hfired))⟩
  · obtain ⟨_, _, _, _, rfl⟩ := hu
    exact ⟨_, ⟨_, _, _, _, rfl⟩, .inr (hfire.trans (openWindow_fire hopen))⟩

/-- What a block that fires leaves in `t`, started from `s` (R183 to R187). -/
structure FiredFrom (s t : State) : Prop where
  armed : t.armed = false
  fired : t.fired = true
  openBit : t.openBit = decide (cfgTrigOffset s ≤ 0)
  rxAnchor : t.rxAnchor = s.totalIn
  txAnchor : t.txAnchor = s.totalOut
  sendFrom : t.sendFrom = ringBack s.params.ringSlots s.produceAt (rewindCount s)

/-- What a block that does not fire leaves: Armed-waiting goes on. -/
structure WaitsFrom (s t : State) : Prop where
  armedWaiting : ArmedWaiting t
  rxAnchor : t.rxAnchor = s.rxAnchor
  txAnchor : t.txAnchor = s.txAnchor
  sendFrom : t.sendFrom = s.sendFrom
  restartPending : t.restartPending = s.restartPending

/-- An armed block fires or waits. -/
theorem ingestBlock_armed_cases {s : State} (h : ArmedWaiting s) (w : List Half) :
    FiredFrom s (ingestBlock w s) ∨ WaitsFrom s (ingestBlock w s) := by
  obtain ⟨_, ⟨_, _, _, _, rfl⟩, hstay | hfire⟩ := trigEval_armed h (timeOrder s w)
  · right
    obtain ⟨harmed, hfired, hopen⟩ := h
    constructor <;> simp [ArmedWaiting, hstay, harmed, hfired, hopen, takesFlag, winOpen]
  · left
    refine ⟨by simp [hfire], by simp [hfire], by simp [hfire], by simp [hfire], by simp [hfire], ?_⟩
    rw [ingestBlock_sendFrom, hfire]
    rfl

/-! ### The transition table (R191) -/

/-- MODE ends Disarmed on the disengage path and Armed-waiting on the full one (R145, R147). -/
theorem afterMode_modeMove (s : State) (b : Vector Byte 27) : ModeMove (afterMode s b) := by
  unfold afterMode
  split
  · exact .inl ⟨rfl, rfl, rfl, rfl⟩
  · exact .inr ⟨rfl, rfl, rfl, rfl⟩

/-- A REGWR runs MODE if one of its indices is valid, and otherwise leaves the state (R130, R133). -/
theorem regwr_legalMove (idx val : Half) (s : State) : LegalMove (.regwr idx val) s
    (emit .ack (afterWrite (highByte idx) (highByte val) (afterWrite (lowByte idx) (lowByte val) s))) := by
  simp only [LegalMove]
  by_cases hhigh : (highByte idx).toNat < 27
  · rw [if_pos (.inr hhigh), afterWrite_in _ hhigh]
    exact afterMode_modeMove _ _
  · rw [afterWrite_out _ (not_lt.1 hhigh)]
    by_cases hlow : (lowByte idx).toNat < 27
    · rw [if_pos (.inl hlow), afterWrite_in _ hlow]
      exact afterMode_modeMove _ _
    · rw [if_neg (by tauto), afterWrite_out _ (not_lt.1 hlow)]
      exact ⟨rfl, rfl, rfl⟩

theorem codeOf_legalMove {i : Instr} {p : Fin 27 × Byte} (h : codeOf i = some p) (s t : State) :
    LegalMove i s t = ModeMove t := by
  cases i <;> cases h <;> rfl

/-- Unarmed and with nothing for the window rule to do, a block leaves the trigger (R192). -/
theorem ingestBlock_sameTrigger {s : State} (ha : s.armed = false) (hw : openWindow s = s) (w : List Half) :
    SameTrigger s (ingestBlock w s) := by
  simp [SameTrigger, trigEval_unarmed ha, hw]

/-- In Delay a block moves nothing but the window, which opens exactly where the delay has passed (R187). -/
theorem ingestBlock_delay {s : State} (h : Delay s) (w : List Half) :
    (ingestBlock w s).armed = false ∧ (ingestBlock w s).fired = true ∧
      (ingestBlock w s).openBit = delayPassed s := by
  have hopen := openWindow_of_delay h
  obtain ⟨harmed, hfired, -⟩ := h
  simp [trigEval_unarmed harmed, harmed, hfired, hopen]

/-- A block moves the trigger as R191 lists: the armed rows by whether it fires, the others by the window rule. -/
theorem ingestBlock_legalMove {s : State} (h : TriggerFlagsLegal s) (idx val : Half) (w : List Half) :
    LegalMove (.ingest idx val) s (ingestBlock w s) := by
  rcases namedState_of_legal h with hs | hs | hs | hs
  · have ⟨harmed, hfired, hopen⟩ := hs
    obtain ⟨ha, hf, ho⟩ := ingestBlock_sameTrigger harmed (openWindow_of_unfired hfired) w
    exact .inl ⟨hs, ha.trans harmed, hf.trans hfired, ho.trans hopen⟩
  · rcases ingestBlock_armed_cases hs w with ⟨ha, hf, ho, -, -, -⟩ | ⟨hwait, -, -, -, -⟩
    · by_cases hoff : cfgTrigOffset s ≤ 0
      · exact .inr (.inr (.inl ⟨hs, ⟨ha, hf, ho.trans (decide_eq_true hoff)⟩, hoff⟩))
      · exact .inr (.inr (.inr (.inl ⟨hs, ⟨ha, hf, ho.trans (decide_eq_false hoff)⟩, not_le.1 hoff⟩)))
    · exact .inr (.inl ⟨hs, hwait⟩)
  · obtain ⟨ha, hf, ho⟩ := ingestBlock_delay hs w
    by_cases hpassed : delayPassed s = true
    · exact .inr (.inr (.inr (.inr (.inl ⟨hs, ⟨ha, hf, ho.trans hpassed⟩, (delayPassed_iff_offset s).1 hpassed⟩))))
    · have hshort := mt (delayPassed_iff_offset s).2 hpassed
      exact .inr (.inr (.inr (.inr (.inr (.inl
        ⟨hs, ⟨ha, hf, ho.trans (Bool.eq_false_iff.2 hpassed)⟩, not_le.1 hshort⟩)))))
  · have ⟨harmed, hfired, hopen⟩ := hs
    obtain ⟨ha, hf, ho⟩ := ingestBlock_sameTrigger harmed (openWindow_of_open hopen) w
    exact .inr (.inr (.inr (.inr (.inr (.inr ⟨hs, ha.trans harmed, hf.trans hfired, ho.trans hopen⟩)))))

/-! ### A completion (R189, R190, R259, R260) -/

theorem kick_of_closed {s : State} (h : winOpen s = false) : kick s = s := if_neg (by simp [h])

theorem completeStale_sameTrigger (s : State) : SameTrigger s (completeStale s) := by
  simp [SameTrigger, completeStale]

/-- What a counted completion has done when the burst test runs (R259). -/
def countCompletion (s : State) : State :=
  { s with
    txBusy := false
    sendFrom := ringNext s.params.ringSlots s.sendFrom
    totalOut := s.totalOut + s.spp.setWidth 32 }

@[simp] theorem countCompletion_fired (s : State) : (countCompletion s).fired = s.fired := rfl

theorem completeCounted_eq (s : State) : completeCounted s = kick (endBurst (countCompletion s)) := rfl

theorem burstReached_countCompletion (s : State) :
    burstReached (countCompletion s) = true ↔
      2 ^ ((cfgSamples s).toNat + 10) ≤ (s.totalOut + s.spp.setWidth 32 - s.txAnchor).toNat := decide_eq_true_iff

/-- Short of the burst a completion does not move the trigger. -/
theorem completeCounted_sameTrigger {s : State} (h : s.fired = false ∨ burstReached (countCompletion s) = false) :
    SameTrigger s (completeCounted s) := by
  have hkeep : endBurst (countCompletion s) = countCompletion s := by
    refine if_neg ?_
    rw [← Bool.not_eq_true, ← Bool.not_eq_true, ← not_and_or] at h
    simpa using h
  rw [completeCounted_eq, hkeep]
  simp [SameTrigger, countCompletion]

/-- At the end of a burst the window closes, so KICK starts nothing (R190). -/
theorem completeCounted_endsBurst {s : State} (hf : s.fired = true)
    (hb : burstReached (countCompletion s) = true) : completeCounted s = arm false (countCompletion s) := by
  have hend : endBurst (countCompletion s) = arm false (countCompletion s) := if_pos (by simp [hb, hf])
  rw [completeCounted_eq, hend, kick_of_closed rfl]

/-- The re-arm after a burst disarms for the command once (R145). -/
theorem rearm_disarmed_of_once {s : State} (h : cfgCmd s = 1#8) : Disarmed (arm false s) := by
  simp [Disarmed, arm, h]

/-- The re-arm after a burst arms for the command continuous (R145). -/
theorem rearm_armedWaiting_of_continuous {s : State} (h : cfgCmd s = 2#8) : ArmedWaiting (arm false s) := by
  simp [ArmedWaiting, arm, h]

/-- A counted completion moves the trigger as R191 lists: only from Open, at the end of a burst, by the command. -/
theorem completeCounted_legalMove {s : State} (h : CoreInvariant s) (hbusy : s.txBusy = true)
    (hcounted : s.txStale = false) (idx val : Half) : LegalMove (.txdone idx val) s (completeCounted s) := by
  by_cases hb : s.fired = true ∧ burstReached (countCompletion s) = true
  · obtain ⟨hfired, hburst⟩ := hb
    obtain ⟨hwin, -⟩ := h.ring.inFlight hbusy hcounted
    obtain ⟨hexcl, -⟩ := h.ring.flags
    obtain ⟨-, hcmd, -, -⟩ := h.latch.engaged_iff.1 (h.latch.triggerEngaged (.inr hfired))
    have hopen : Open s := by
      simp only [winOpen, Bool.and_eq_true] at hwin
      exact ⟨Bool.eq_false_iff.2 fun harmed => hexcl ⟨harmed, hfired⟩, hwin⟩
    rw [completeCounted_endsBurst hfired hburst]
    exact .inr ⟨hopen, (burstReached_countCompletion s).1 hburst,
      hcmd.imp (fun hc => ⟨hc, rearm_disarmed_of_once hc⟩)
        (fun hc => ⟨hc, rearm_armedWaiting_of_continuous hc⟩)⟩
  · rw [not_and_or, Bool.not_eq_true, Bool.not_eq_true] at hb
    exact .inl (completeCounted_sameTrigger hb)

/-- An event that only answers leaves the trigger, which R191 lists for every such event: an INGEST that is Ignored finds
the core disengaged, hence Disarmed (R35, R298). -/
theorem emit_legalMove {i : Instr} {s : State} (h : CoreInvariant s) (hcode : codeOf i = none)
    (hreset : ∀ a b, i ≠ .reset a b) (hregwr : ∀ idx val, i ≠ .regwr idx val)
    (hingest : ∀ idx val, i = .ingest idx val → s.engaged = false) (o : Output) : LegalMove i s (emit o s) := by
  have hsame : SameTrigger s (emit o s) := ⟨rfl, rfl, rfl⟩
  cases i
  case reset a b => exact absurd rfl (hreset a b)
  case regwr idx val => exact absurd rfl (hregwr idx val)
  case ingest idx val =>
    have hoff : ¬(s.armed = true ∨ s.fired = true) := fun hon =>
      Bool.false_ne_true ((hingest idx val rfl).symm.trans (h.latch.triggerEngaged hon))
    obtain ⟨-, hopen⟩ := h.ring.flags
    have hs : Disarmed s := by
      simp only [not_or, Bool.not_eq_true] at hoff
      exact ⟨hoff.1, hoff.2, Bool.eq_false_iff.2 fun ho => Bool.false_ne_true (hoff.2.symm.trans (hopen ho))⟩
    exact .inl ⟨hs, hs⟩
  case txdone idx val => exact .inl hsame
  all_goals cases hcode <;> exact hsame

/-- Settles O51: every operation makes a move of R191, and R59 (b), which it keeps, says the state it ends in has a
name. -/
theorem triggerTransitions : Obligations.TriggerTransitions := by
  intro i s t h he
  refine ⟨?_, namedState_of_legal (exec_ring i h.ring he).flags⟩
  obtain ⟨-, ⟨_, _, rfl, rfl⟩ | ⟨r, c, hcode, rfl⟩ | ⟨idx, val, rfl, rfl⟩ | ⟨_, _, rfl, -, rfl⟩ |
    ⟨_, _, rfl, -, -, -, rfl⟩ | ⟨_, _, rfl, -, hbusy, hcounted, rfl⟩ |
    ⟨⟨hcode, hreset⟩, hingest, hregwr, o, rfl⟩⟩ := exec_cases he
  · rw [modeEngine_eq]
    exact afterMode_modeMove _ _
  · rw [codeOf_legalMove hcode]
    exact afterMode_modeMove _ _
  · exact regwr_legalMove _ _ s
  · exact ingestBlock_legalMove h.ring.flags _ _ _
  · exact .inl (completeStale_sameTrigger s)
  · exact completeCounted_legalMove h hbusy hcounted _ _
  · exact emit_legalMove h hcode hreset hregwr hingest o

/-! ### Fire (R173, R183 to R186) -/

theorem ringBack_cast {n : Nat} (hn : 0 < n) (i k : Nat) : (ringBack n i k : Int) = ((i : Int) - k) % n :=
  Int.toNat_of_nonneg (Int.emod_nonneg _ (by omega))

/-- Settles O26: FIRE's fields as it sets them, its rewind read on integers. -/
theorem firePlacesSendFrom : Obligations.FirePlacesSendFrom := by
  intro idx val s h hs
  have hn := h.ringSize
  refine ⟨_, exec_ingest h idx val, ?_⟩
  rcases ingestBlock_armed_cases hs s.operand with ⟨ha, hf, ho, hrx, htx, hsend⟩ | ⟨hwait, hrx, htx, hsend, hrestart⟩
  · refine ⟨fun _ => ⟨ha, hrx, htx, ?_, ho⟩, fun hunfired => absurd (hf.symm.trans hunfired) (by simp)⟩
    rw [hsend, ringBack_cast (by omega), rewindCount_cast s hn]
  · have ⟨_, hunfired, _⟩ := hwait
    exact ⟨fun hf => absurd (hf.symm.trans hunfired) (by simp), fun _ => ⟨hwait, hrx, htx, hsend, hrestart⟩⟩

theorem trigEval_none {s : State} (ha : s.armed = true) (hm : cfgTrigMode s = 0#8) (b : List Half) :
    trigEval b s = openWindow (fire s) := by
  rw [trigEval, if_pos ha, evalArmed, if_pos hm]

/-- Settles O27: in mode 0 TRIG_EVAL is FIRE and the window rule, which write no sample register. -/
theorem triggerNoneFires : Obligations.TriggerNoneFires := by
  intro idx val s h hs hm
  obtain ⟨harmed, -, -⟩ := hs
  refine ⟨_, exec_ingest h idx val, ?_⟩
  simp [trigEval_none harmed hm]

/-! ### Blocks in which no sample is examined (R171, R181, R192) -/

/-- A reserved mode or a trigger channel past the scan leaves TRIG_EVAL nothing to do. -/
theorem trigEval_of_noScan {s : State} (h : ArmedWaiting s)
    (hm : 6 ≤ (cfgTrigMode s).toNat ∨ (cfgTrigMode s ≠ 0#8 ∧ s.chans.toNat ≤ (cfgTrigChannel s).toNat))
    (b : List Half) : trigEval b s = s := by
  obtain ⟨harmed, hfired, -⟩ := h
  have hmode : cfgTrigMode s ≠ 0#8 := by
    intro hzero
    simp [hzero] at hm
  rw [trigEval, if_pos harmed, evalArmed, if_neg hmode, if_neg (by omega), openWindow_of_unfired hfired]

/-- Settles O31: TRIG_EVAL changes nothing. -/
theorem noSampleNoFire : Obligations.NoSampleNoFire := by
  intro idx val s h hs hm
  refine ⟨_, exec_ingest h idx val, ?_⟩
  simpa [ArmedWaiting, trigEval_of_noScan hs hm] using hs

/-- Settles O32: with `armed = 0` TRIG_EVAL is the window rule, which writes none of these. -/
theorem unarmedKeepsTrigger : Obligations.UnarmedKeepsTrigger := by
  intro idx val s h ha
  refine ⟨_, exec_ingest h idx val, ?_⟩
  simp [trigEval_unarmed ha, ha]

/-! ### The delay (R187, R256) -/

/-- With the trigger neither armed nor open after TRIG_EVAL a block is stored and nothing else happens: no advance, no
transmission (R255, R256, R257). -/
theorem ingestBlock_of_closed {w : List Half} {s : State} (ha : (trigEval (timeOrder s w) s).armed = false)
    (hw : winOpen (trigEval (timeOrder s w) s) = false) :
    ingestBlock w s = producePacket (timeOrder s w) (trigEval (timeOrder s w) s) := by
  have hwin : winOpen (producePacket (timeOrder s w) (trigEval (timeOrder s w) s)) = false := hw
  have hpinned : advance (producePacket (timeOrder s w) (trigEval (timeOrder s w) s)) =
      producePacket (timeOrder s w) (trigEval (timeOrder s w) s) := if_neg (by simp [advEn, ha, hwin])
  rw [ingestBlock, hpinned, kick_of_closed hwin]

/-- Settles O33: the window rule decides on the count before the block, and until it opens the block is only stored. -/
theorem delayOpensWindow : Obligations.DelayOpensWindow := by
  intro idx val s h hs
  obtain ⟨ha, hf, ho⟩ := ingestBlock_delay hs s.operand
  refine ⟨_, exec_ingest h idx val, fun hpassed => ?_, fun hshort => ?_⟩
  · exact ⟨ha, hf, ho.trans ((delayPassed_iff s).2 hpassed)⟩
  · have hclosed := ho.trans (Bool.eq_false_iff.2 (mt (delayPassed_iff s).1 (not_le.2 hshort)))
    refine ⟨⟨ha, hf, hclosed⟩, ?_⟩
    rw [ingestBlock_armed] at ha
    rw [ingestBlock_openBit] at hclosed
    rw [ingestBlock_of_closed ha (by simp [winOpen, hclosed])]
    simp

/-! ### The end of a burst (R189, R190) -/

/-- Settles O42: the completion that reaches the burst re-arms by the command, and KICK finds the window closed. -/
theorem burstEndByCommand : Obligations.BurstEndByCommand := by
  intro idx val s hn hi hbusy hcounted hfired hcmd hburst
  have hend := completeCounted_endsBurst hfired ((burstReached_countCompletion s).2 hburst)
  refine ⟨_, exec_txdone hn hi hbusy idx val, ?_⟩
  rw [hcounted, if_neg Bool.false_ne_true, hend]
  exact ⟨fun hc => rearm_disarmed_of_once hc, fun hc => rearm_armedWaiting_of_continuous hc, rfl, rfl, rfl, rfl, rfl,
    rfl, rfl, rfl, rfl, rfl, rfl, rfl, rfl⟩

/-- A burst of 2^32 samples or more is never reached: the count since the fire is a 32-bit counter (R189). -/
theorem burstReached_of_long {s : State} (h : 22 ≤ (cfgSamples s).toNat) : burstReached s = false := by
  have hlong : 2 ^ 32 ≤ burstLength s := Nat.pow_le_pow_right (by decide) (by omega)
  have hcount := (s.totalOut - s.txAnchor).isLt
  exact decide_eq_false (by omega)

/-- Settles O43: no completion ends such a burst, whether it is stale or counted. -/
theorem burstNeverEndsFrom22 : Obligations.BurstNeverEndsFrom22 := by
  intro idx val s hn hi hbusy hlong
  refine ⟨_, exec_txdone hn hi hbusy idx val, ?_⟩
  split
  · exact completeStale_sameTrigger s
  · exact completeCounted_sameTrigger (.inr (burstReached_of_long hlong))

end Sys2Proof.Machine
end

section
/-! SUPPORT and PROOFS. Where an armed block fires: the samples it examines, the last of them, and the condition of each
mode (R170 to R182). -/

namespace Sys2Proof.Machine

/-! ### The samples (R171, R172) -/

/-- Scan `j` of a block contributes the word of its trigger channel. -/
theorem channelWords_getElem? {block : List Half} {n c t j : Nat} (hn : block.length = n) (ht : t < c)
    (hj : j < n / c) : (channelWords block n c t)[j]? = block[j * c + t]? := by
  have hin : j * c + t < block.length := by
    have := Nat.mul_le_of_le_div c (j + 1) n hj
    rw [Nat.succ_mul] at this
    omega
  rw [channelWords_eq hn ht, List.getElem?_map, List.getElem?_range hj, Option.map_some, List.getElem?_eq_getElem hin,
    List.getD_eq_getElem _ _ hin]

/-- Settles O58: the words of the trigger channel, scan by scan, and the low 12 bits of a word as a number. -/
theorem examinedWordsAndComparator : Obligations.ExaminedWordsAndComparator := by
  intro s block w hlen hc
  refine ⟨channelWords_length hlen hc, fun j hj => channelWords_getElem? hlen hc hj, ?_⟩
  have hraw : (rawSample w).toNat = w.toNat % 4096 := by
    rw [rawSample, BitVec.extractLsb'_toNat, Nat.shiftRight_zero]
  rw [above, hraw]

/-! ### The scan of a block (R170, R182) -/

/-- An armed block whose samples are examined: a mode 1 to 5, with the trigger channel in the scan (R171, R181). -/
structure ScannedBlock (s : State) : Prop where
  canIngest : CanIngest s
  armed : ArmedWaiting s
  inScan : (cfgTrigChannel s).toNat < s.chans.toNat
  mode : (cfgTrigMode s).toNat ∈ [1, 2, 3, 4, 5]

/-- The state a block reaches by examining its samples up to number `n`, before any FIRE. -/
def examinedTo (s : State) (n : Nat) : State :=
  examineAll ((examinedWords s (timeOrder s s.operand)).take (n + 1)) s

/-- After a sample is examined the registers of R34 hold its comparison (R180). -/
theorem examinedTo_prev {s : State} {n : Nat} (hn : n < (comparisons s).length) :
    (examinedTo s n).prevValid = true ∧ (comparisons s)[n]? = some (examinedTo s n).prevAbove := by
  have hws : n + 1 ≤ (examinedWords s (timeOrder s s.operand)).length := by
    rwa [comparisons_eq, List.length_map] at hn
  have hbefore : (comparisons s)[n]? =
      if (examinedTo s n).prevValid then some (examinedTo s n).prevAbove else none :=
    examineAll_prev (comparisons_eq s) hws
  cases hvalid : (examinedTo s n).prevValid with
  | true => exact ⟨rfl, by rw [hbefore, if_pos hvalid]⟩
  | false =>
    rw [hvalid, if_neg Bool.false_ne_true, List.getElem?_eq_getElem hn] at hbefore
    cases hbefore

/-- What an examined block leaves in `t`: samples examined up to number `n`, and FIRE if that one hits. -/
structure ExaminesTo (s : State) (n : Nat) (t : State) : Prop where
  last : LastExamined s n
  fired : t.fired = true ↔ HitAt s n
  prevValid : t.prevValid = (examinedTo s n).prevValid
  prevAbove : t.prevAbove = (examinedTo s n).prevAbove
  strobe : t.strobe = (examinedTo s n).strobe
  held : t.held = (examinedTo s n).held

theorem ScannedBlock.examinesTo {s : State} (h : ScannedBlock s) :
    ∃ n, ExaminesTo s n (ingestBlock s.operand s) := by
  obtain ⟨hne, hcount⟩ := examinedWords_count h.canIngest h.inScan
  have heval := trigEval_scan h.armed h.inScan h.mode (timeOrder s s.operand)
  obtain ⟨n, -, hlast, ⟨hhit, hscan⟩ | ⟨hmiss, hscan⟩⟩ := scanSamples_last (comparisons_eq s) hne h.mode hcount
  · refine ⟨n, hlast, ?_, ?_, ?_, ?_, ?_⟩ <;> simp [heval, hscan, hhit, examinedTo]
  · obtain ⟨_, _, _, _, hexamined⟩ := examineAll_examined ((examinedWords s (timeOrder s s.operand)).take (n + 1)) s
    have hunfired := congrArg State.fired hexamined
    obtain ⟨-, hfired, -⟩ := h.armed
    rw [hfired] at hunfired
    refine ⟨n, hlast, ?_, ?_, ?_, ?_, ?_⟩ <;> simp [heval, hscan, hmiss, hunfired, examinedTo]

/-- A block fires exactly where some sample hits. -/
theorem ScannedBlock.fired_iff {s : State} (h : ScannedBlock s) :
    (ingestBlock s.operand s).fired = true ↔ ∃ n, HitAt s n := by
  obtain ⟨hne, hcount⟩ := examinedWords_count h.canIngest h.inScan
  obtain ⟨-, hunfired, -⟩ := h.armed
  rw [ingestBlock_fired, trigEval_fired h.armed h.inScan h.mode]
  exact scanSamples_fired (comparisons_eq s) hne h.mode hcount hunfired

/-- Settles O29: the registers are those of the scan, read at the last sample it examined. -/
theorem previousSampleCarried : Obligations.PreviousSampleCarried := by
  intro idx val s hcan harmed hc hm
  have h : ScannedBlock s := ⟨hcan, harmed, hc, hm⟩
  obtain ⟨n, hlast, hfired, hvalid, habove, hstrobe, hheld⟩ := h.examinesTo
  have ⟨hn, _, _⟩ := hlast
  obtain ⟨hvalid', habove'⟩ := examinedTo_prev hn
  refine ⟨_, n, exec_ingest hcan idx val, hlast, hfired, hvalid.trans hvalid', by rw [habove, habove'], ?_, ?_⟩
  · intro h123
    rw [hstrobe, hheld]
    exact examineAll_keepsStrobe _ s h123
  · intro h45
    obtain ⟨-, hcount⟩ := examinedWords_count hcan hc
    have hws : n < (examinedWords s (timeOrder s s.operand)).length := by
      rwa [comparisons_eq, List.length_map] at hn
    rw [hstrobe, hheld]
    exact examineAll_strobe (comparisons_eq s) h45 hws (by omega)

/-! ### The edges (R174 to R176) -/

/-- Two neighbouring comparisons, the preceding sample's included, are a sample and the result before it (R180). -/
theorem edgeAt_withPrev (s : State) (a b : Bool) :
    EdgeAt (comparisonsWithPrev s) a b ↔ ∃ n, resultBefore s n = some a ∧ (comparisons s)[n]? = some b := by
  cases hp : s.prevValid with
  | false =>
    rw [edgeAt_firstBlock hp]
    simp [comparisonsWithPrev, hp]
  | true =>
    have hlist : comparisonsWithPrev s = s.prevAbove :: comparisons s := by simp [comparisonsWithPrev, hp]
    have hbefore (n : Nat) : resultBefore s n = (s.prevAbove :: comparisons s)[n]? := by
      cases n with
      | zero => simp [resultBefore, hp]
      | succ n => rfl
    rw [EdgeAt, hlist]
    simp only [hbefore, List.getElem?_cons_succ]

/-- Settles O28: in these modes a hit is an edge of the mode's kind. -/
theorem edgeModesFire : Obligations.EdgeModesFire := by
  intro idx val s hcan harmed hc hm
  have h : ScannedBlock s := ⟨hcan, harmed, hc, (show [1, 2, 3] ⊆ [1, 2, 3, 4, 5] by decide) hm⟩
  refine ⟨_, exec_ingest hcan idx val, ?_⟩
  simp only [h.fired_iff, edgeAt_withPrev, ← exists_or]
  refine ⟨fun h1 => ?_, fun h2 => ?_, fun h3 => ?_⟩
  · simp [HitAt, h1]
  · simp [HitAt, h2]
  · simp [HitAt, h3]

/-! ### The strobe (R177 to R179) -/

/-- In the modes 4 and 5 a hit is a held count in the interval. -/
theorem hitAt_strobe {s : State} (hm : cfgTrigMode s = 4#8 ∨ cfgTrigMode s = 5#8) (n : Nat) :
    HitAt s n ↔ ∃ h, HeldAt s n h ∧ InInterval s h := by
  rcases hm with hm | hm <;> simp [HitAt, hm]

/-- The region of TRG.STROBE_LO is "not above" (R177). -/
theorem inRegion_strobeLo {s : State} (hm : cfgTrigMode s = 4#8) : inRegion s = not := funext fun _ => if_pos hm

/-- The region of TRG.STROBE_HI is "above" (R178). -/
theorem inRegion_strobeHi {s : State} (hm : cfgTrigMode s = 5#8) : inRegion s = id :=
  funext fun _ => if_neg (by simp [hm])

/-- Settles O30: a hit is a held count in the interval, which on the first block begins at a crossing in it. -/
theorem strobeModesFire : Obligations.StrobeModesFire := by
  intro idx val s hcan harmed hc hm
  have h : ScannedBlock s := ⟨hcan, harmed, hc, (show [4, 5] ⊆ [1, 2, 3, 4, 5] by decide) hm⟩
  have hmode : cfgTrigMode s = 4#8 ∨ cfgTrigMode s = 5#8 := by simpa [← BitVec.toNat_inj] using hm
  have hfired : (ingestBlock s.operand s).fired = true ↔ ∃ n k, HeldAt s n k ∧ InInterval s k := by
    simp only [h.fired_iff, hitAt_strobe hmode]
  refine ⟨_, exec_ingest hcan idx val, hfired, fun hp hs => ?_⟩
  rw [hfired, heldAt_firstBlock hp hs]
  refine ⟨fun h4 => ?_, fun h5 => ?_⟩
  · rw [inRegion_strobeLo h4]
  · rw [inRegion_strobeHi h5, List.map_id]

end Sys2Proof.Machine
end

section
/-! SUPPORT and PROOFS. The Sample Encoder word by word: ADJ as a remainder, SWAP by position, the packers by position,
and the round trips with the unpackers (R221 to R226, R228, R230). -/

namespace Sys2Proof.Machine

/-! ### ADJ (R222) -/

/-- ADJ as a remainder of integers. -/
theorem adjust_toNat (offset w : Half) (gain : Byte) :
    ((adjust offset gain w).toNat : Int) =
      (((w.toNat % 4096 : Nat) : Int) - (offset.toNat : Int)) * 2 ^ gain.toNat % 4096 := by
  rw [adjust, BitVec.toNat_ofInt, rawSample_toNat]
  exact Int.toNat_of_nonneg (Int.emod_nonneg _ (by decide))

/-- A gain of 12 or more shifts every bit past bit 11. -/
theorem adjust_of_gain {gain : Byte} (h : 12 ≤ gain.toNat) (offset w : Half) : adjust offset gain w = 0 := by
  have hdvd : (4096 : Int) ∣ 2 ^ gain.toNat := pow_dvd_pow 2 h
  refine BitVec.eq_of_toNat_eq (Int.ofNat_inj.1 ?_)
  exact (adjust_toNat offset w gain).trans (Int.emod_eq_zero_of_dvd (hdvd.mul_left _))

/-- Offset 0 and gain 0 leave the raw sample. -/
theorem adjust_zero (w : Half) : adjust 0 0 w = rawSample w := by simp [adjust]

/-- Settles O55: ADJ is its integer formula modulo `2 ^ 12`, and both corner cases follow from that. -/
theorem adjustFormula : Obligations.AdjustFormula := fun offset w gain =>
  ⟨adjust_toNat offset w gain, fun h => adjust_of_gain h offset w, by rw [adjust_zero, rawSample_toNat]⟩

/-! ### SWAP (R221) -/

/-- Exchanging the words of every pair twice leaves them in place; an odd last word is never moved. -/
theorem swapPairs_swapPairs (w : List Half) : swapPairs (swapPairs w) = w := by
  fun_induction swapPairs w with
  | case1 lo hi rest ih => rw [swapPairs, ih]
  | case2 l h => exact swapPairs.eq_2 l h

/-- The pair `i` of a swapped block holds the second stored word, then the first. -/
theorem swapPairs_pair {w : List Half} {i : Nat} (h : 2 * i + 1 < w.length) :
    (swapPairs w)[2 * i]? = w[2 * i + 1]? ∧ (swapPairs w)[2 * i + 1]? = w[2 * i]? := by
  fun_induction swapPairs w generalizing i with
  | case1 lo hi rest ih =>
    cases i with
    | zero => exact ⟨rfl, rfl⟩
    | succ i => exact ih (i := i) (by simp only [List.length_cons] at h; omega)
  | case2 l hl =>
    match l with
    | [] | [_] => simp at h
    | lo :: hi :: rest => exact absurd rfl (hl lo hi rest)

/-- Settles O56: TRIG_EVAL and ENCODE see the swapped block exactly where `swap = 1`. -/
theorem swapOrder : Obligations.SwapOrder :=
  ⟨fun _ _ => ⟨fun h => if_pos h, fun h => if_neg (by simp [h])⟩,
    fun w _ => ⟨swapPairs_length w, swapPairs_swapPairs w, fun _ => swapPairs_pair⟩⟩

/-! ### The packers by position (R223 to R226) -/

/-- Byte `j` of PACK2 from its group of four samples (R223). -/
theorem packTwo_byte {a : List Sample} {j : Nat} {w x y z : Sample} (hw : a[4 * j]? = some w)
    (hx : a[4 * j + 1]? = some x) (hy : a[4 * j + 2]? = some y) (hz : a[4 * j + 3]? = some z) :
    (packTwo a)[j]? = some (top2 w ++ (top2 x ++ (top2 y ++ top2 z))) := by
  fun_induction packTwo a generalizing j with
  | case1 p q r t rest ih =>
    cases j with
    | zero => cases hw; cases hx; cases hy; cases hz; rfl
    | succ j => exact ih (j := j) hw hx hy hz
  | case2 l h =>
    obtain ⟨hlen, -⟩ := List.getElem?_eq_some_iff.1 hz
    have hshort : 0 = l.length / 4 := (congrArg List.length (packTwo.eq_2 l h)).symm.trans (packTwo_length l)
    omega

/-- Byte `j` of PACK4 from its pair of samples (R224). -/
theorem packFour_byte {a : List Sample} {j : Nat} {w x : Sample} (hw : a[2 * j]? = some w)
    (hx : a[2 * j + 1]? = some x) : (packFour a)[j]? = some (top4 w ++ top4 x) := by
  fun_induction packFour a generalizing j with
  | case1 p q rest ih =>
    cases j with
    | zero => cases hw; cases hx; rfl
    | succ j => exact ih (j := j) hw hx
  | case2 l h =>
    obtain ⟨hlen, -⟩ := List.getElem?_eq_some_iff.1 hx
    have hshort : 0 = l.length / 2 := (congrArg List.length (packFour.eq_2 l h)).symm.trans (packFour_length l)
    omega

/-- PACK8 works sample by sample (R225). -/
theorem packEight_eq_map (a : List Sample) : packEight a = a.map top8 := by
  fun_induction packEight a with
  | case1 a rest ih => rw [ih, List.map_cons]
  | case2 => rfl

/-- The byte triple `j` of PACK12 from its pair of samples (R226). -/
theorem packTwelve_bytes {a : List Sample} {j : Nat} {w x : Sample} (hw : a[2 * j]? = some w)
    (hx : a[2 * j + 1]? = some x) :
    (packTwelve a)[3 * j]? = some (top8 w) ∧ (packTwelve a)[3 * j + 1]? = some (low4 w ++ low4 x) ∧
      (packTwelve a)[3 * j + 2]? = some (top8 x) := by
  fun_induction packTwelve a generalizing j with
  | case1 p q rest ih =>
    cases j with
    | zero => cases hw; cases hx; exact ⟨rfl, rfl, rfl⟩
    | succ j => exact ih (j := j) hw hx
  | case2 l h =>
    obtain ⟨hlen, -⟩ := List.getElem?_eq_some_iff.1 hx
    have hshort : 0 = 3 * (l.length / 2) :=
      (congrArg List.length (packTwelve.eq_2 l h)).symm.trans (packTwelve_length l)
    omega

/-- Settles O54: each byte is the fields its packer takes from its group of samples, read as numbers. -/
theorem packersBitLayout : Obligations.PackersBitLayout := by
  intro a j
  refine ⟨fun w x y z hw hx hy hz => ⟨_, packTwo_byte hw hx hy hz, ?_⟩, fun w x hw hx => ⟨_, packFour_byte hw hx, ?_⟩,
    fun w hw => ⟨top8 w, ?_, top8_toNat w⟩, fun w x hw hx => ?_⟩
  · simp only [append_toNat, top2_toNat]
    omega
  · simp only [append_toNat, top4_toNat]
    omega
  · rw [packEight_eq_map, List.getElem?_map, hw, Option.map_some]
  · obtain ⟨hb, hc, he⟩ := packTwelve_bytes hw hx
    refine ⟨_, _, _, hb, hc, he, top8_toNat w, ?_, top8_toNat x⟩
    simp only [append_toNat, low4_toNat]
    omega

/-! ### The round trips (R228, R230) -/

/-! What a packer takes from a recovered sample, and a byte from its parts. -/

theorem top2_append (x : BitVec 2) : top2 (x ++ 0#10) = x := BitVec.extractLsb'_append_eq_left

theorem top4_append (x : BitVec 4) : top4 (x ++ 0#8) = x := BitVec.extractLsb'_append_eq_left

theorem top8_append (x : Byte) (y : BitVec 4) : top8 (x ++ y) = x := BitVec.extractLsb'_append_eq_left

theorem low4_append (x : Byte) (y : BitVec 4) : low4 (x ++ y) = y := BitVec.extractLsb'_append_eq_right

theorem top8_append_low4 (x : Sample) : top8 x ++ low4 x = x := BitVec.extractLsb'_append_extractLsb'

theorem nibbles_append (b : Byte) : b.extractLsb' 4 4 ++ b.extractLsb' 0 4 = b := BitVec.extractLsb'_append_extractLsb'

theorem bitPairs_append (b : Byte) :
    b.extractLsb' 6 2 ++ (b.extractLsb' 4 2 ++ (b.extractLsb' 2 2 ++ b.extractLsb' 0 2)) = b := by
  have hlow : b.extractLsb' 2 2 ++ b.extractLsb' 0 2 = b.extractLsb' 0 4 :=
    BitVec.extractLsb'_append_extractLsb'_eq_extractLsb' rfl
  have hmid : b.extractLsb' 4 2 ++ b.extractLsb' 0 4 = b.extractLsb' 0 6 :=
    BitVec.extractLsb'_append_extractLsb'_eq_extractLsb' rfl
  rw [hlow, hmid]
  exact BitVec.extractLsb'_append_extractLsb'

theorem packTwo_unpackTwo (out : List Byte) : packTwo (unpackTwo out) = out := by
  fun_induction unpackTwo out with
  | case1 => rfl
  | case2 b rest ih => simp only [packTwo, top2_append, bitPairs_append, ih]

theorem packFour_unpackFour (out : List Byte) : packFour (unpackFour out) = out := by
  fun_induction unpackFour out with
  | case1 => rfl
  | case2 b rest ih => simp only [packFour, top4_append, nibbles_append, ih]

theorem packEight_unpackEight (out : List Byte) : packEight (unpackEight out) = out := by
  fun_induction unpackEight out with
  | case1 => rfl
  | case2 b rest ih => simp only [packEight, top8_append, ih]

theorem packTwelve_unpackTwelve {out : List Byte} (h : out.length % 3 = 0) :
    packTwelve (unpackTwelve out) = out := by
  fun_induction unpackTwelve out with
  | case1 x y z rest ih =>
    have hrest : rest.length % 3 = 0 := by simp only [List.length_cons] at h; omega
    simp only [packTwelve, top8_append, low4_append, nibbles_append, ih hrest]
  | case2 l hl =>
    match l with
    | [] => rfl
    | [_] | [_, _] => simp at h
    | x :: y :: z :: rest => exact absurd rfl (hl x y z rest)

/-- At depth 12 no bit of a sample is lost (R226). -/
theorem unpackTwelve_packTwelve {a : List Sample} (h : a.length % 2 = 0) : unpackTwelve (packTwelve a) = a := by
  fun_induction packTwelve a with
  | case1 a b rest ih =>
    have hrest : rest.length % 2 = 0 := by simp only [List.length_cons] at h; omega
    have hhigh : (low4 a ++ low4 b).extractLsb' 4 4 = low4 a := BitVec.extractLsb'_append_eq_left
    have hlow : (low4 a ++ low4 b).extractLsb' 0 4 = low4 b := BitVec.extractLsb'_append_eq_right
    simp only [unpackTwelve, hhigh, hlow, top8_append_low4, ih hrest]
  | case2 l hl =>
    match l with
    | [] => rfl
    | [_] => simp at h
    | a :: b :: rest => exact absurd rfl (hl a b rest)

/-- Settles O57: at each depth the byte or byte triple a group of samples was unpacked from is put together again, by
induction on the groups. -/
theorem packRoundTrip : Obligations.PackRoundTrip :=
  ⟨fun out => ⟨packTwo_unpackTwo out, packFour_unpackFour out, packEight_unpackEight out, packTwelve_unpackTwelve⟩,
    fun _ => unpackTwelve_packTwelve⟩

end Sys2Proof.Machine
end

section
/-! SUPPORT and PROOFS. The Packet Ring over a whole event: the packet a block leaves, the advance and the scheduler,
which packet carries the restart flag, the two completions, and the slot in flight (R250 to R263). -/

namespace Sys2Proof.Machine

/-! ### The slot memory -/

/-- A slot's packet depends only on the slot memory and its epoch. -/
theorem slotRead_congr {s t : State} (hslots : t.slots = s.slots) (hepoch : t.slotEpoch = s.slotEpoch) (i : Nat) :
    slotRead i t = slotRead i s := by
  simp only [slotRead, slotByte_congr hslots hepoch]

theorem slotRead_kick (i : Nat) (s : State) : slotRead i (kick s) = slotRead i s :=
  slotRead_congr (kick_slots s) (kick_slotEpoch s) i

/-! ### The packet of a block (R96, R251, R252) -/

/-- The packet the block being taken becomes. -/
def blockPacket (s : State) : List Byte :=
  header (takesFlag (trigEval (timeOrder s s.operand) s)) s ++ encodeBlock s (timeOrder s s.operand)

theorem blockPacket_length {s : State} (h : CanIngest s) : (blockPacket s).length = 64 :=
  packet_length _ h.latches ((timeOrder_length s s.operand).trans h.length)

/-- The packet is what slot `produce_at` holds afterwards. -/
theorem ingestBlock_blockPacket {s : State} (h : CanIngest s) {j : Nat} {b : Byte} (hb : (blockPacket s)[j]? = some b) :
    slotByte (ingestBlock s.operand s) (64 * s.produceAt + j) = b := by
  obtain ⟨hj, -⟩ := List.getElem?_eq_some_iff.1 hb
  rw [blockPacket_length h] at hj
  rw [ingestBlock_packet h hj, ← blockPacket, hb, Option.getD_some]

/-- A fire is pending when the flag is decided: one from before, or one this block makes (R183, R252). -/
def firePending (s t : State) : Bool := s.restartPending || (s.armed && !t.armed)

/-- The flag read off the next state: a fire is pending and the window is open after the trigger has run. -/
theorem takesFlag_trigEval (s : State) (w : List Half) :
    takesFlag (trigEval (timeOrder s w) s) = (firePending s (ingestBlock w s) && winOpen (ingestBlock w s)) := by
  simp [takesFlag, firePending, winOpen, trigEval_restart]

/-- A fire stays pending until a packet takes the flag (R252). -/
theorem ingestBlock_restart (s : State) (w : List Half) :
    (ingestBlock w s).restartPending =
      (firePending s (ingestBlock w s) && !(firePending s (ingestBlock w s) && winOpen (ingestBlock w s))) := by
  rw [ingestBlock_restartPending, takesFlag_trigEval, trigEval_restart, ← ingestBlock_armed]
  rfl

/-- Settles O24: the packet stands in slot `produce_at`, every other byte is out of its range, and no part of INGEST
writes the remaining fields. -/
theorem ingestStoresPacket : Obligations.IngestStoresPacket := by
  intro idx val s h
  refine ⟨_, exec_ingest h idx val, ?_, ?_⟩
  · intro pendingFlag flag packet
    have hpacket : packet = blockPacket s := by
      rw [blockPacket, takesFlag_trigEval]
      rfl
    refine ⟨?_, fun j b hb => ?_, fun a ha => ?_, ingestBlock_restart s s.operand⟩
    · rw [hpacket, blockPacket_length h]
    · exact ingestBlock_blockPacket h (hpacket ▸ hb)
    · rw [ingestBlock_slotByte h, if_neg (by omega)]
  · simp [ingestBlock]

/-- Bit 7 of the packet's first byte is the flag (R97). -/
theorem restartOf_ingestBlock {s : State} (h : CanIngest s) :
    restartOf (slotByte (ingestBlock s.operand s) (64 * s.produceAt)) =
      (firePending s (ingestBlock s.operand s) && winOpen (ingestBlock s.operand s)) := by
  have hfirst : slotByte (ingestBlock s.operand s) (64 * s.produceAt) =
      BitVec.ofBool (takesFlag (trigEval (timeOrder s s.operand) s)) ++ s.seq := ingestBlock_blockPacket h (j := 0) rfl
  rw [hfirst, restartOf_append, takesFlag_trigEval]
  simp

/-- Settles O34: in each row of R191 the trigger's move decides whether a fire is pending and whether the window is
open. -/
theorem restartFlagPlacement : Obligations.RestartFlagPlacement := by
  intro idx val s h
  refine ⟨_, exec_ingest h idx val, ?_⟩
  rw [restartOf_ingestBlock h, ingestBlock_restart]
  generalize ingestBlock s.operand s = t
  refine ⟨?_, ?_, ?_, ?_, ?_, ?_⟩
  · rintro - ⟨-, hclosed, -⟩
    simp [winOpen, hclosed]
  · rintro ⟨harmed, -⟩ ⟨hfires, hfired, hopen⟩
    simp [firePending, winOpen, harmed, hfires, hfired, hopen]
  · rintro ⟨harmed, -⟩ ⟨hfires, -, hclosed⟩
    simp [firePending, winOpen, harmed, hfires, hclosed]
  · rintro ⟨hunarmed, -⟩ ⟨-, -, hclosed⟩
    simp [firePending, winOpen, hunarmed, hclosed]
  · rintro - hpending ⟨-, hfired, hopen⟩
    simp [firePending, winOpen, hpending, hfired, hopen]
  · rintro ⟨hunarmed, -⟩ hspent
    simp [firePending, hunarmed, hspent]

/-! ### The advance and the scheduler (R255 to R257) -/

/-- Where the advance leaves `produce_at` (R255). -/
theorem advance_produceAt (s : State) :
    (advance s).produceAt =
      if (s.armed = true ∨ winOpen s = true) ∧ ¬(nextSlot s = s.sendFrom ∧ s.txBusy = true) then nextSlot s
      else s.produceAt := by
  have hen : advEn s = true ↔ s.armed = true ∨ winOpen s = true := Bool.or_eq_true_iff
  rcases advance_cases s with ⟨hmoves, hfree, h⟩ | ⟨hstays, h⟩
  · rw [h, if_pos ⟨hen.1 hmoves, hfree⟩]
  · rw [h, if_neg]
    rintro ⟨hmoves, hfree⟩
    exact hstays.elim (fun hoff => Bool.false_ne_true (hoff.symm.trans (hen.2 hmoves))) hfree

/-- KICK starts a transmission, where the window is open, the transport free and the ring not empty (R257). -/
theorem kick_starts {s : State} (h : winOpen s = true ∧ s.txBusy = false ∧ s.sendFrom ≠ s.produceAt) :
    kick s = { s with txBusy := true, out := s.out ++ [.txstart s.sendFrom (slotRead s.sendFrom s)] } := by
  obtain ⟨hopen, hfree, hsome⟩ := h
  exact if_pos (by simp [hopen, hfree, isEmpty, hsome])

/-- Everywhere else KICK does nothing. -/
theorem kick_rests {s : State} (h : ¬(winOpen s = true ∧ s.txBusy = false ∧ s.sendFrom ≠ s.produceAt)) :
    kick s = s :=
  if_neg (by simpa [isEmpty, and_assoc] using h)

/-- With the transport free the window and the ring alone decide. -/
theorem kick_of_free {s : State} (hfree : s.txBusy = false) :
    kick s = if winOpen s = true ∧ s.sendFrom ≠ s.produceAt then
      { s with txBusy := true, out := s.out ++ [.txstart s.sendFrom (slotRead s.sendFrom s)] } else s := by
  split
  · next h => exact kick_starts ⟨h.1, hfree, h.2⟩
  · next h => exact kick_rests fun hc => h ⟨hc.1, hc.2.2⟩

/-- The state KICK finds at the end of INGEST (R250). -/
def beforeKick (w : List Half) (s : State) : State :=
  advance (producePacket (timeOrder s w) (trigEval (timeOrder s w) s))

theorem ingestBlock_eq_kick (w : List Half) (s : State) : ingestBlock w s = kick (beforeKick w s) := rfl

@[simp] theorem beforeKick_txBusy (w : List Half) (s : State) : (beforeKick w s).txBusy = s.txBusy := by
  simp [beforeKick]

@[simp] theorem beforeKick_out (w : List Half) (s : State) : (beforeKick w s).out = s.out := by simp [beforeKick]

/-- Settles O25: the advance and KICK at the end of INGEST, read on the next state: they find its trigger and slots and
leave its indices. -/
theorem ingestAdvancesAndKicks : Obligations.IngestAdvancesAndKicks := by
  intro idx val s h
  refine ⟨_, exec_ingest h idx val, ?_, ?_, ?_⟩
  · rw [ingestBlock_eq_kick, kick_produceAt, beforeKick, advance_produceAt]
    simp [nextSlot, ringNext, winOpen]
  · intro hstarts
    rw [ingestBlock_eq_kick] at hstarts ⊢
    have hkick := kick_starts (s := beforeKick s.operand s) (by simpa [winOpen] using hstarts)
    rw [slotRead_kick, kick_sendFrom, hkick]
    exact ⟨rfl, by rw [beforeKick_out]⟩
  · intro hrests
    rw [ingestBlock_eq_kick] at hrests ⊢
    rw [kick_rests (s := beforeKick s.operand s) (by simpa [winOpen] using hrests)]
    simp

/-- In Open with the ring full and the transport busy a block is stored and nothing else happens (R255 (b)). -/
theorem ingestBlock_of_stalled {s : State} (hs : Open s) (hfull : nextSlot s = s.sendFrom) (hbusy : s.txBusy = true)
    (w : List Half) : ingestBlock w s = producePacket (timeOrder s w) s := by
  obtain ⟨hunarmed, -, hopen⟩ := hs
  have htrig : trigEval (timeOrder s w) s = s := (trigEval_unarmed hunarmed _).trans (openWindow_of_open hopen)
  have hstays : advance (producePacket (timeOrder s w) s) = producePacket (timeOrder s w) s := by
    rcases advance_cases (producePacket (timeOrder s w) s) with ⟨-, hmoves, -⟩ | ⟨-, hstays⟩
    · exact absurd ⟨hfull, hbusy⟩ hmoves
    · exact hstays
  rw [ingestBlock, htrig, hstays, kick_rests]
  simp [hbusy]

/-- Settles O35: the block is only stored, and the slot it is stored in is one short of the slot in flight. -/
theorem saturationDropsNewest : Obligations.SaturationDropsNewest := by
  intro idx val s h hs hbusy hfull
  have hother : s.sendFrom ≠ s.produceAt := by
    rw [← hfull]
    exact ringNext_ne h.ringSize h.indices.1
  have hslot := ingestBlock_slotRead h hother
  have hstored := ingestBlock_of_stalled hs hfull hbusy s.operand
  refine ⟨_, exec_ingest h idx val, ?_⟩
  rw [hstored] at hslot ⊢
  exact ⟨rfl, rfl, rfl, hbusy, rfl, hslot⟩

/-! ### The completions (R259, R260) -/

/-- Short of the burst a counted completion frees the transport, counts, and runs KICK. -/
theorem completeCounted_short {s : State} (h : s.fired = false ∨ burstReached (countCompletion s) = false) :
    completeCounted s = kick (countCompletion s) := by
  rw [completeCounted_eq]
  rcases endBurst_cases (countCompletion s) with ⟨hfired, hburst, -⟩ | ⟨-, hkeep⟩
  · rw [countCompletion_fired] at hfired
    simp [hfired, hburst] at h
  · rw [hkeep]

/-- Settles O41: what the completion counts, the frames of the burst test and of KICK, and KICK on the freed transport
where the burst goes on. -/
theorem txdoneCounted : Obligations.TxdoneCounted := by
  intro idx val s hn hi hbusy hcounted
  have hexec := exec_txdone hn hi hbusy idx val
  rw [hcounted, if_neg Bool.false_ne_true] at hexec
  have htotal : (completeCounted s).totalOut = s.totalOut + s.spp.setWidth 32 := by simp [completeCounted]
  refine ⟨_, hexec, by simp [completeCounted, ringNext], htotal, by simp [completeCounted, hcounted], ?_⟩
  -- the frame: seventeen fields that neither the count, the burst test nor KICK writes
  iterate 17 refine ⟨by simp [completeCounted], ?_⟩
  intro hshort
  have hgoesOn : s.fired = false ∨ burstReached (countCompletion s) = false :=
    hshort.imp_right fun hlt =>
      Bool.eq_false_iff.2 (mt (burstReached_countCompletion s).1 (not_le.2 (htotal ▸ hlt)))
  rw [completeCounted_short hgoesOn]
  refine ⟨kick_armed _, kick_fired _, kick_openBit _, kick_restartPending _, kick_strobe _, kick_held _,
    kick_prevValid _, kick_prevAbove _, kick_rxAnchor _, kick_txAnchor _, ?_⟩
  have hkick := kick_of_free (s := countCompletion s) rfl
  by_cases hstarts : winOpen s = true ∧ (countCompletion s).sendFrom ≠ s.produceAt
  · rw [kick_sendFrom, if_pos hstarts, hkick.trans (if_pos hstarts)]
    exact ⟨rfl, rfl⟩
  · rw [kick_sendFrom, if_neg hstarts, hkick.trans (if_neg hstarts)]
    exact ⟨rfl, rfl⟩

/-- Settles O44: the completion frees the transport and clears the stale mark, and KICK takes the transport again or
leaves it. -/
theorem txdoneStale : Obligations.TxdoneStale := by
  intro idx val s hn hi hbusy hstale
  rw [exec_txdone hn hi hbusy, if_pos hstale, completeStale, kick_of_free rfl, ← hbusy]
  rfl

/-! ### The slot in flight (R258, R59 (c)) -/

@[simp] theorem afterMode_slotEpoch (s : State) (b : Vector Byte 27) : (afterMode s b).slotEpoch = s.slotEpoch := by
  obtain ⟨-, -, -, -, hepoch, -⟩ := afterMode_frame s b
  exact hepoch

/-- Settles O52: of the operations other than RESET only INGEST writes slots, and it writes slot `produce_at`, which R59
(c) keeps apart from the one in flight. -/
theorem inFlightSlotPreserved : Obligations.InFlightSlotPreserved := by
  intro i s t h hbusy hcounted he hreset
  obtain ⟨-, ⟨idx, val, hi, -⟩ | ⟨r, c, -, rfl⟩ | ⟨_, _, -, rfl⟩ | ⟨_, _, -, hcan, rfl⟩ |
    ⟨_, _, -, -, -, -, rfl⟩ | ⟨_, _, -, -, -, -, rfl⟩ | ⟨-, -, -, o, rfl⟩⟩ := exec_cases he
  · exact absurd hi (hreset idx val)
  · exact slotRead_congr (by simp) (by simp) _
  · exact slotRead_congr (by simp) (by simp) _
  · obtain ⟨-, hother⟩ := h.inFlight hbusy hcounted
    exact ingestBlock_slotRead hcan hother
  · exact slotRead_congr (completeStale_slots s) (by simp [completeStale]) _
  · exact slotRead_congr (completeCounted_slots s) (by simp [completeCounted]) _
  · exact slotRead_congr (emit_slots o s) (emit_slotEpoch o s) _

end Sys2Proof.Machine
end

section
/-! SUPPORT and PROOFS. What stands where other hardware takes an exception: the answers Unsupported and Ignored, the two
refused inputs, the arbiter's order, and that a step from the invariant never faults (R290, R294, R297 to R299). -/

namespace Sys2Proof.Machine

/-! ### The unassigned `op` values (R105, R297) -/

/-- From 0x05 on the decoder answers a row of the unassigned range (R105). -/
theorem decodeOp_unassigned {op : Byte} (h : 5 ≤ op.toNat) (idx val : Half) :
    decodeOp op idx val ∈ [Instr.unsupported05 idx val, .unsupported06 op idx val, .unsupported08 op idx val,
      .unsupported10 op idx val, .unsupported20 op idx val, .unsupported40 op idx val, .unsupported80 op idx val] := by
  unfold decodeOp
  repeat' split
  iterate 5 omega
  all_goals simp

/-- Settles O3: an unassigned `op` selects one of the seven rows, and each of them only answers. -/
theorem unassignedOpsUnsupported : Obligations.UnassignedOpsUnsupported := by
  intro op idx val s hop hn
  have hdecode : decode (.evt (evtWord op idx val)) = .ok (decodeOp op idx val) := by
    rw [decode, decodeEvt_eq, evtOp_evtWord, evtIdx_evtWord, evtVal_evtWord]
  exact ⟨decodeOp op idx val, hdecode, unsupportedOutcome op idx val s hn _ (decodeOp_unassigned hop idx val)⟩

/-! ### Ignored events and refused inputs (R298, R299) -/

theorem exec_ingest_disengaged {s : State} (hn : 2 ≤ s.params.ringSlots) (he : s.engaged = false) (idx val : Half) :
    exec (.ingest idx val) s = .next (emit .ignored s) := by
  show execIngest idx val s = _
  rw [execIngest, inContract_of hn, if_pos he, raiseOutcome]

theorem exec_txdone_free {s : State} (hn : 2 ≤ s.params.ringSlots) (hb : s.txBusy = false) (idx val : Half) :
    exec (.txdone idx val) s = .next (emit .ignored s) := by
  show execTxdone idx val s = _
  rw [execTxdone, inContract_of hn, if_pos hb, raiseOutcome]

theorem exec_ingest_wrongLength {s : State} (hn : 2 ≤ s.params.ringSlots) (he : s.engaged = true)
    (hl : s.operand.length ≠ s.spp.toNat) (idx val : Half) : exec (.ingest idx val) s = .refused .blockLength := by
  show execIngest idx val s = _
  rw [execIngest, inContract_of hn, if_neg (by simp [he]), if_pos hl]

/-- Every meaning asks first whether the core is within the contract. -/
theorem exec_ringTooSmall {s : State} (h : s.params.ringSlots < 2) (i : Instr) :
    exec i s = .refused .ringTooSmall := by
  cases i <;> exact if_pos h

/-- Settles O45: both checks come before every other. -/
theorem eventsIgnored : Obligations.EventsIgnored := fun idx val _ hn =>
  ⟨fun he => exec_ingest_disengaged hn he idx val, fun hb => exec_txdone_free hn hb idx val⟩

/-- Settles O8: N is checked first, and the block's length as soon as the core is known to be engaged. -/
theorem refusedInputs : Obligations.RefusedInputs :=
  ⟨fun i _ h => exec_ringTooSmall h i, fun idx val _ hn he hl => exec_ingest_wrongLength hn he hl idx val⟩

/-! ### The arbiter (R294) -/

/-- A class whose search answers nothing has no event pending. -/
theorem not_mem_of_takeClass_none {l : List Request} {x : Request} (h : takeClass (priority x) l = none) : x ∉ l :=
  fun hx => (takeClass_spec _ l).2 h x hx rfl

/-- The event taken is the one its own class offers, and every class before it is empty. -/
theorem takeNext_eq_some {l : List Request} {r : Request} {rest : List Request} (h : takeNext l = some (r, rest)) :
    takeClass (priority r) l = some (r, rest) ∧ ∀ q < priority r, takeClass q l = none := by
  have hclass (p : Nat) (hp : takeClass p l = some (r, rest)) : priority r = p := ((takeClass_spec p l).1 r rest hp).1
  simp only [takeNext, Option.or_eq_some_iff] at h
  rcases h with h0 | ⟨h0, h1 | ⟨h1, h2 | ⟨h2, h3⟩⟩⟩
  · rw [hclass 0 h0]
    exact ⟨h0, fun q hq => by omega⟩
  · rw [hclass 1 h1]
    exact ⟨h1, fun q hq => by interval_cases q; exact h0⟩
  · rw [hclass 2 h2]
    exact ⟨h2, fun q hq => by interval_cases q; exacts [h0, h1]⟩
  · rw [hclass 3 h3]
    exact ⟨h3, fun q hq => by interval_cases q; exacts [h0, h1, h2]⟩

/-- With anything pending something is taken: every event has one of the four classes. -/
theorem eq_nil_of_takeNext_none {l : List Request} (h : takeNext l = none) : l = [] := by
  simp only [takeNext, Option.or_eq_none_iff] at h
  obtain ⟨h0, h1, h2, h3⟩ := h
  refine List.eq_nil_iff_forall_not_mem.2 fun x => not_mem_of_takeClass_none ?_
  have hp := priority_le x
  interval_cases priority x
  exacts [h0, h1, h2, h3]

/-- Settles O6: a pending event of an earlier class would have been found first. -/
theorem priorityOrder : Obligations.PriorityOrder := by
  refine ⟨fun l r rest h => ?_, fun l => eq_nil_of_takeNext_none, fun r i hi => ?_⟩
  · obtain ⟨htaken, hearlier⟩ := takeNext_eq_some h
    obtain ⟨-, hperm⟩ := (takeClass_spec _ l).1 r rest htaken
    refine ⟨hperm, fun x hx => not_lt.1 fun hlt => ?_⟩
    exact not_mem_of_takeClass_none (hearlier _ hlt) (hperm.mem_iff.2 (List.mem_cons_of_mem r hx))
  · rw [priority, hi]
    cases i <;> rfl

/-! ### No step faults (R290) -/

/-- The invariants read none of the model's inputs. -/
theorem CoreInvariant.accept_arrive {s : State} (h : CoreInvariant s) (r : Request) (rest : List Request) :
    CoreInvariant (accept r rest (arrive s)) := by
  rw [accept, arrive_frame]
  exact ⟨h.ring.congr rfl rfl rfl rfl rfl rfl rfl rfl,
    h.latch.congr rfl rfl rfl rfl rfl rfl rfl rfl h.latch.triggerEngaged, h.memory⟩

/-- Every step keeps the three invariants together. -/
theorem step_invariant {s t : State} (h : CoreInvariant s) (hs : step s = .next t) : CoreInvariant t :=
  ⟨ringInvariantKept s t h.ring hs, latchInvariantKept s t h.latch hs, memoryCanonicalKept s t h.memory hs⟩

/-- The event cannot be run: an INGEST while engaged whose block is not `spp` words long (R299). -/
def WrongBlock (i : Instr) (s : State) : Prop :=
  (∃ idx val, i = .ingest idx val) ∧ s.engaged = true ∧ s.operand.length ≠ s.spp.toNat

/-- INGEST from the invariant: Ignored, refused for its block, or taken, since R59 (a) and R75 rule the stops out. -/
theorem exec_ingest_answers {s : State} (h : CoreInvariant s) (idx val : Half) :
    (∃ t, exec (.ingest idx val) s = .next t) ∨
      (exec (.ingest idx val) s = .refused .blockLength ∧ WrongBlock (.ingest idx val) s) := by
  have hn := h.ring.ringSize
  cases he : s.engaged with
  | false => exact .inl ⟨_, exec_ingest_disengaged hn he idx val⟩
  | true =>
    by_cases hl : s.operand.length = s.spp.toNat
    · exact .inl ⟨_, exec_ingest ⟨hn, he, hl, h.ring.indices, h.latch.latchesOk he⟩ idx val⟩
    · exact .inr ⟨exec_ingest_wrongLength hn he hl idx val, ⟨idx, val, rfl⟩, he, hl⟩

/-- TXDONE from the invariant: Ignored, or a completion, since R59 (a) rules the stop out. -/
theorem exec_txdone_answers {s : State} (h : CoreInvariant s) (idx val : Half) :
    ∃ t, exec (.txdone idx val) s = .next t := by
  have hn := h.ring.ringSize
  cases hb : s.txBusy with
  | false => exact ⟨_, exec_txdone_free hn hb idx val⟩
  | true => exact ⟨_, exec_txdone hn h.ring.indices hb idx val⟩

/-- From the invariant an operation answers a next state or is refused its block: only INGEST and TXDONE check more than
the contract. -/
theorem exec_answers {s : State} (h : CoreInvariant s) (i : Instr) :
    (∃ t, exec i s = .next t) ∨ (exec i s = .refused .blockLength ∧ WrongBlock i s) := by
  cases i
  case ingest idx val => exact exec_ingest_answers h idx val
  case txdone idx val => exact .inl (exec_txdone_answers h idx val)
  all_goals exact .inl ⟨_, inContract_of h.ring.ringSize _⟩

/-- The write of a reserved code is never refused for its value (R106). -/
theorem selectReserved_answers {s : State} (hn : 2 ≤ s.params.ringSlots) (e : Encoded) :
    ∃ t, selectReserved e s = .next t := by
  cases e <;> exact ⟨_, inContract_of hn _⟩

/-- A step whose taken event is of no row of the table is the write of a reserved code. -/
theorem step_of_reserved {s : State} {r : Request} {rest : List Request} {e : DecodeError}
    (hr : takeNext (arrive s).pending = some (r, rest)) (he : decode r.word = .error e) :
    step s = selectReserved r.word (accept r rest (arrive s)) := by
  simp only [step, hr, runRequest, he]

/-- Settles O50: a step is idle, the write of a reserved code or an operation, each on a state that meets the invariants;
they rule the model's stops out, and every answered step keeps them. -/
theorem stepNeverFaults : Obligations.StepNeverFaults := by
  intro s h
  have hnext : (∃ t, step s = .next t) → ∃ t, step s = .next t ∧ CoreInvariant t :=
    fun ⟨t, ht⟩ => ⟨t, ht, step_invariant h ht⟩
  rcases htake : takeNext (arrive s).pending with _ | ⟨r, rest⟩
  · exact .inl (hnext ⟨_, step_of_idle (eq_nil_of_takeNext_none htake) h.ring.ringSize⟩)
  have hcore := h.accept_arrive r rest
  rcases hdecode : decode r.word with e | i
  · have hstep := step_of_reserved htake hdecode
    exact .inl (hnext (hstep ▸ selectReserved_answers hcore.ring.ringSize r.word))
  · have hstep := step_of_decoded htake hdecode
    rcases exec_answers hcore i with ht | ⟨hrefused, ⟨idx, val, rfl⟩, he, hl⟩
    · exact .inl (hnext (hstep ▸ ht))
    · exact .inr ⟨hstep.trans hrefused, r, rest, idx, val, rfl, hdecode, by simpa using he, by simpa using hl⟩

end Sys2Proof.Machine
end
